-- ==== Sys2Proof/Word.lean ====
section
/-! DEFINITION. The machine's two word types (spec/00_scope.md R7, spec/10_state.md R16, R27). -/

namespace Sys2Proof

/-- One byte: the addressable unit, an 8-bit register view, a byte of the image (R7, R17, R28). -/
abbrev Byte := BitVec 8

/-- One 16-bit word: a general register, `ip`, a word operand (R7, R16, R21). -/
abbrev Word := BitVec 16

end Sys2Proof
end

