-- ==== Sys2Proof/Config.lean ====
section
/-! DEFINITION. The named parameters of spec/00_scope.md R9 as plain data. They are configured before a
load and fixed for a run (spec/10_state.md R34); State holds them, so a statement about every state is a
statement about every value of them (assumption 1). Their default values stand in Machine/Defaults.lean. -/

namespace Sys2Proof

/-- `EXEC_PROFILE` (R9, R188): which decoded forms the executor carries out. -/
inductive Profile
  | source
  | full
deriving DecidableEq, Repr

/-- `CLK`: the base costs of the data instructions (R208) and of the jumps (R209). -/
structure Clk where
  movRr : Nat
  movRm : Nat
  movMr : Nat
  movRi : Nat
  movMi : Nat
  movAm : Nat
  aluRr : Nat
  aluRm : Nat
  aluMr : Nat
  aluRi : Nat
  aluMi : Nat
  aluAi : Nat
  cmpRr : Nat
  cmpRm : Nat
  cmpMr : Nat
  cmpRi : Nat
  cmpMi : Nat
  cmpAi : Nat
  jccTaken : Nat
  jccNotTaken : Nat
  loopTaken : Nat
  loopNotTaken : Nat
  loopzTaken : Nat
  loopzNotTaken : Nat
  loopnzTaken : Nat
  loopnzNotTaken : Nat
  jcxzTaken : Nat
  jcxzNotTaken : Nat
deriving DecidableEq, Repr

/-- One column of the `CLK_EA` table (R210): the costs of the eight `r_m` values under one `mod`. -/
structure EaColumn where
  rm000 : Nat
  rm001 : Nat
  rm010 : Nat
  rm011 : Nat
  rm100 : Nat
  rm101 : Nat
  rm110 : Nat
  rm111 : Nat
deriving DecidableEq, Repr

/-- `CLK_EA` (R210): one column for each of `mod` 00, 01, 10; `mod` 11 has none, as it is never used. -/
structure EaClocks where
  mod00 : EaColumn
  mod01 : EaColumn
  mod10 : EaColumn
deriving DecidableEq, Repr

/-- The parameter set of R9. -/
structure Params where
  /-- `EXEC_PROFILE`. -/
  profile : Profile
  /-- `CLK`. -/
  clk : Clk
  /-- `CLK_EA`. -/
  eaClocks : EaClocks
  /-- `CLK_ODD_WORD` (R212). -/
  oddWord : Nat
deriving DecidableEq, Repr

end Sys2Proof
end

