-- ==== Sys2Proof/Machine/Defaults.lean ====
section
/-! DEFINITION. The default parameters: `EXEC_PROFILE = FULL` and `CLK_ODD_WORD = 0` (spec/00_scope.md R9),
the tables of spec/70_reset_and_hazards.md R208 to R210. -/

namespace Sys2Proof.Machine

/-- The default `CLK` (R208, R209). -/
def defaultClk : Clk :=
  { movRr := 2, movRm := 8, movMr := 9, movRi := 4, movMi := 10, movAm := 10
    aluRr := 3, aluRm := 9, aluMr := 16, aluRi := 4, aluMi := 17, aluAi := 4
    cmpRr := 3, cmpRm := 9, cmpMr := 9, cmpRi := 4, cmpMi := 10, cmpAi := 4
    jccTaken := 16, jccNotTaken := 4
    loopTaken := 17, loopNotTaken := 5
    loopzTaken := 18, loopzNotTaken := 6
    loopnzTaken := 19, loopnzNotTaken := 5
    jcxzTaken := 18, jcxzNotTaken := 6 }

/-- The default `CLK_EA` (R210): `mod` 01 and 10 are charged alike. -/
def defaultEaClocks : EaClocks :=
  let displaced : EaColumn :=
    { rm000 := 11, rm001 := 12, rm010 := 12, rm011 := 11, rm100 := 9, rm101 := 9, rm110 := 9, rm111 := 9 }
  { mod00 := { rm000 := 7, rm001 := 8, rm010 := 8, rm011 := 7, rm100 := 5, rm101 := 5, rm110 := 6, rm111 := 5 }
    mod01 := displaced
    mod10 := displaced }

/-- The parameters before the host configures any (R9, R204). -/
def defaultParams : Params :=
  { profile := .full, clk := defaultClk, eaClocks := defaultEaClocks, oddWord := 0 }

end Sys2Proof.Machine
end

