-- ==== Sys2Proof/Syntax.lean ====
section
/-! DEFINITION. The instructions: one constructor of `Instr` for each of the 63 rows of
spec/opcode_table.json (the 62 forms of spec/30_encoding.md R77 in that order, then the raw-bytes
fallback `db` of spec/40_decoder.md R90). Operands are kept as they are encoded;
the decoded record with their values is in Machine/Record.lean (R89). -/

namespace Sys2Proof

/-- The eight 16-bit registers in index order 0..7 (spec/10_state.md R16). -/
inductive Reg16
  | ax | cx | dx | bx | sp | bp | si | di
deriving DecidableEq, Repr

/-- The eight 8-bit register views in index order 0..7 (spec/10_state.md R17). -/
inductive Reg8
  | al | cl | dl | bl | ah | ch | dh | bh
deriving DecidableEq, Repr

/-- The base-register combinations of `r_m` 000..111 in order (spec/20_memory.md R49). -/
inductive Base
  | bxSi | bxDi | bpSi | bpDi | si | di | bp | bx
deriving DecidableEq, Repr

/-- A memory operand, `mod` 00, 01 or 10 (spec/20_memory.md R50, R51; spec/30_encoding.md R63). -/
inductive MemOp
  /-- `mod = 00`, `r_m ≠ 110`: no displacement. -/
  | noDisp (b : Base)
  /-- `mod = 00`, `r_m = 110`: a direct address and no base. -/
  | direct (a16 : Word)
  /-- `mod = 01`: a base and a signed displacement byte. -/
  | disp8 (b : Base) (d : Byte)
  /-- `mod = 10`: a base and a signed displacement word. -/
  | disp16 (b : Base) (d : Word)
deriving DecidableEq, Repr

/-- An 8-bit r/m operand: a register when `mod = 11`, else memory (R63, R105). -/
inductive RM8
  | reg (r : Reg8)
  | mem (m : MemOp)
deriving DecidableEq, Repr

/-- A 16-bit r/m operand: a register when `mod = 11`, else memory (R63, R105). -/
inductive RM16
  | reg (r : Reg16)
  | mem (m : MemOp)
deriving DecidableEq, Repr

/-- The reason of a raw-bytes fallback (spec/40_decoder.md R89). -/
inductive FallbackReason
  /-- The first byte is unmapped (R92). -/
  | unmapped
  /-- The `reg` sub-opcode is not supported (R93). -/
  | subop
  /-- The instruction runs past the end of the buffer (R91). -/
  | truncated
deriving DecidableEq, Repr

/-- The instructions. `r8` is the encoded displacement byte of a short jump, signed (R72). -/
inductive Instr
  /-- `mov r/m8, r8` (R109). -/
  | movRm8R8 (dst : RM8) (src : Reg8)
  /-- `mov r/m16, r16` (R110). -/
  | movRm16R16 (dst : RM16) (src : Reg16)
  /-- `mov r8, r/m8` (R111). -/
  | movR8Rm8 (dst : Reg8) (src : RM8)
  /-- `mov r16, r/m16` (R112). -/
  | movR16Rm16 (dst : Reg16) (src : RM16)
  /-- `mov r/m8, imm8` (R113). -/
  | movRm8Imm8 (dst : RM8) (imm : Byte)
  /-- `mov r/m16, imm16` (R114). -/
  | movRm16Imm16 (dst : RM16) (imm : Word)
  /-- `mov r8, imm8` (R115). -/
  | movR8Imm8 (dst : Reg8) (imm : Byte)
  /-- `mov r16, imm16` (R116). -/
  | movR16Imm16 (dst : Reg16) (imm : Word)
  /-- `mov al, [a16]` (R117). -/
  | movAlMem (a16 : Word)
  /-- `mov ax, [a16]` (R118). -/
  | movAxMem (a16 : Word)
  /-- `mov [a16], al` (R119). -/
  | movMemAl (a16 : Word)
  /-- `mov [a16], ax` (R120). -/
  | movMemAx (a16 : Word)
  /-- `add r/m8, r8` (R127). -/
  | addRm8R8 (dst : RM8) (src : Reg8)
  /-- `add r/m16, r16` (R128). -/
  | addRm16R16 (dst : RM16) (src : Reg16)
  /-- `add r8, r/m8` (R129). -/
  | addR8Rm8 (dst : Reg8) (src : RM8)
  /-- `add r16, r/m16` (R130). -/
  | addR16Rm16 (dst : Reg16) (src : RM16)
  /-- `add al, imm8` (R131). -/
  | addAlImm8 (imm : Byte)
  /-- `add ax, imm16` (R132). -/
  | addAxImm16 (imm : Word)
  /-- `add r/m8, imm8`, opcode 0x80 (R133). -/
  | addRm8Imm8 (dst : RM8) (imm : Byte)
  /-- `add r/m16, imm16`, opcode 0x81 (R134). -/
  | addRm16Imm16 (dst : RM16) (imm : Word)
  /-- `add r/m8, imm8`, the alias opcode 0x82 (R135). -/
  | addRm8Imm8Alias (dst : RM8) (imm : Byte)
  /-- `add r/m16, sext imm8`, opcode 0x83 (R136); `imm` is the encoded byte. -/
  | addRm16SImm8 (dst : RM16) (imm : Byte)
  /-- `sub r/m8, r8` (R137). -/
  | subRm8R8 (dst : RM8) (src : Reg8)
  /-- `sub r/m16, r16` (R138). -/
  | subRm16R16 (dst : RM16) (src : Reg16)
  /-- `sub r8, r/m8` (R139). -/
  | subR8Rm8 (dst : Reg8) (src : RM8)
  /-- `sub r16, r/m16` (R140). -/
  | subR16Rm16 (dst : Reg16) (src : RM16)
  /-- `sub al, imm8` (R141). -/
  | subAlImm8 (imm : Byte)
  /-- `sub ax, imm16` (R142). -/
  | subAxImm16 (imm : Word)
  /-- `sub r/m8, imm8`, opcode 0x80 (R143). -/
  | subRm8Imm8 (dst : RM8) (imm : Byte)
  /-- `sub r/m16, imm16`, opcode 0x81 (R144). -/
  | subRm16Imm16 (dst : RM16) (imm : Word)
  /-- `sub r/m8, imm8`, the alias opcode 0x82 (R145). -/
  | subRm8Imm8Alias (dst : RM8) (imm : Byte)
  /-- `sub r/m16, sext imm8`, opcode 0x83 (R146); `imm` is the encoded byte. -/
  | subRm16SImm8 (dst : RM16) (imm : Byte)
  /-- `cmp r/m8, r8` (R147). -/
  | cmpRm8R8 (dst : RM8) (src : Reg8)
  /-- `cmp r/m16, r16` (R148). -/
  | cmpRm16R16 (dst : RM16) (src : Reg16)
  /-- `cmp r8, r/m8` (R149). -/
  | cmpR8Rm8 (dst : Reg8) (src : RM8)
  /-- `cmp r16, r/m16` (R150). -/
  | cmpR16Rm16 (dst : Reg16) (src : RM16)
  /-- `cmp al, imm8` (R151). -/
  | cmpAlImm8 (imm : Byte)
  /-- `cmp ax, imm16` (R152). -/
  | cmpAxImm16 (imm : Word)
  /-- `cmp r/m8, imm8`, opcode 0x80 (R153). -/
  | cmpRm8Imm8 (dst : RM8) (imm : Byte)
  /-- `cmp r/m16, imm16`, opcode 0x81 (R154). -/
  | cmpRm16Imm16 (dst : RM16) (imm : Word)
  /-- `cmp r/m8, imm8`, the alias opcode 0x82 (R155). -/
  | cmpRm8Imm8Alias (dst : RM8) (imm : Byte)
  /-- `cmp r/m16, sext imm8`, opcode 0x83 (R156); `imm` is the encoded byte. -/
  | cmpRm16SImm8 (dst : RM16) (imm : Byte)
  /-- `jo rel8`, opcode 0x70 (R164). -/
  | jo (r8 : Byte)
  /-- `jno rel8`, opcode 0x71 (R165). -/
  | jno (r8 : Byte)
  /-- `jb rel8`, opcode 0x72 (R166). -/
  | jb (r8 : Byte)
  /-- `jnb rel8`, opcode 0x73 (R167). -/
  | jnb (r8 : Byte)
  /-- `jz rel8`, opcode 0x74 (R168). -/
  | jz (r8 : Byte)
  /-- `jnz rel8`, opcode 0x75 (R169). -/
  | jnz (r8 : Byte)
  /-- `jbe rel8`, opcode 0x76 (R170). -/
  | jbe (r8 : Byte)
  /-- `ja rel8`, opcode 0x77 (R171). -/
  | ja (r8 : Byte)
  /-- `js rel8`, opcode 0x78 (R172). -/
  | js (r8 : Byte)
  /-- `jns rel8`, opcode 0x79 (R173). -/
  | jns (r8 : Byte)
  /-- `jp rel8`, opcode 0x7a (R174). -/
  | jp (r8 : Byte)
  /-- `jnp rel8`, opcode 0x7b (R175). -/
  | jnp (r8 : Byte)
  /-- `jl rel8`, opcode 0x7c (R176). -/
  | jl (r8 : Byte)
  /-- `jnl rel8`, opcode 0x7d (R177). -/
  | jnl (r8 : Byte)
  /-- `jle rel8`, opcode 0x7e (R178). -/
  | jle (r8 : Byte)
  /-- `jg rel8`, opcode 0x7f (R179). -/
  | jg (r8 : Byte)
  /-- `loopnz rel8`, opcode 0xe0 (R181). -/
  | loopnz (r8 : Byte)
  /-- `loopz rel8`, opcode 0xe1 (R182). -/
  | loopz (r8 : Byte)
  /-- `loop rel8`, opcode 0xe2 (R183). -/
  | loop (r8 : Byte)
  /-- `jcxz rel8`, opcode 0xe3 (R184). -/
  | jcxz (r8 : Byte)
  /-- The raw-bytes fallback (R90): its reason and every byte from its first to the end of the buffer. -/
  | db (reason : FallbackReason) (bytes : List Byte)
deriving DecidableEq, Repr

end Sys2Proof
end

