-- ==== Sys2Proof/Machine/State.lean ====
section
/-! DEFINITION. The state of the machine (spec/10_state.md), as plain data. -/

namespace Sys2Proof.Machine

/-- The general registers (R16). The 8-bit views of R17 are computed from them. -/
structure Regs where
  ax : Word
  cx : Word
  dx : Word
  bx : Word
  sp : Word
  bp : Word
  si : Word
  di : Word
deriving DecidableEq, Repr

/-- `mem` (R27): the bytes that are not 0, by rising offset; an offset not listed reads 0, its value
after reset (R29). Canonical form: `Memory.wf` of Ops.lean (assumption 6). -/
abbrev Memory := List Host.Cell

/-- `run_state` (R32). -/
inductive RunState
  | running
  | halted
  | faulted
deriving DecidableEq, Repr

/-- The fault codes of spec/60_exceptions.md R189. An instruction rule raises one; the step takes it, as R190
says, into a next state whose `run_state` is FAULTED, so no step ever answers `Outcome.fault`
(assumption 2; safe, since the state after the fault is the spec's). -/
inductive Fault
  /-- `EA_RANGE`: raised by a data access that reaches outside memory (R189; spec/20_memory.md R53).
  Safe: the spec names it. -/
  | eaRange
  /-- `SMC`: raised by a data write below `CODE_LEN` (R189; spec/20_memory.md R47). Safe: the spec names it. -/
  | smc
deriving DecidableEq, Repr

/-- Why the model gives an instruction no meaning. -/
inductive Refusal
  /-- Raised by an arm of `exec` without a meaning; no arm of this model raises it. Safe: the machine stops. -/
  | notModelled (mnemonic : String)
deriving DecidableEq, Repr

/-- The diagnostic codes 1..6 of spec/60_exceptions.md R186; `NONE` is `none` in `State.lastDiag`. -/
inductive DiagCode
  | unmapped
  | subop
  | truncated
  | profile
  | condUnmodeled
  | empty
deriving DecidableEq, Repr

/-- Every piece of state the spec gives the machine. `CODE_LEN` is `State.codeLen` (assumption 7). -/
structure State where
  /-- The parameters, fixed for a run (R34; assumption 1). -/
  params : Params
  /-- The eight general registers (R16). -/
  regs : Regs
  /-- The instruction pointer (R21). -/
  ip : Word
  /-- `ZF` (R23). -/
  zf : Bool
  /-- `SF` (R23). -/
  sf : Bool
  /-- The data memory (R27). -/
  mem : Memory
  /-- The immutable program image (R28). -/
  image : List Byte
  /-- `clocks`, the cost of the instruction of the current step (R30). -/
  clocks : Nat
  /-- `total_clocks` (R30). -/
  totalClocks : Nat
  /-- `run_state` (R32). -/
  runState : RunState
  /-- `fault_code`, `NONE` being `none` (R32). -/
  faultCode : Option Fault
  /-- `diag_seen` (R32). -/
  diagSeen : Bool
  /-- `last_diag`, `NONE` being `none` (R32). -/
  lastDiag : Option DiagCode
deriving DecidableEq, Repr

/-- `CODE_LEN` (R28). -/
abbrev State.codeLen (s : State) : Nat := s.image.length

/-- The machine right after reset (spec/70_reset_and_hazards.md R202; spec/10_state.md section 9) with the
default parameters and nothing loaded: the empty image (assumption 4). -/
def State.reset : State :=
  { params := defaultParams
    regs := { ax := 0, cx := 0, dx := 0, bx := 0, sp := 0, bp := 0, si := 0, di := 0 }
    ip := 0
    zf := false
    sf := false
    mem := []
    image := []
    clocks := 0
    totalClocks := 0
    runState := .running
    faultCode := none
    diagSeen := false
    lastDiag := none }

end Sys2Proof.Machine
end

