-- ==== Sys2Proof/Machine/Flags.lean ====
section
/-! DEFINITION. The flag updater (spec/42_arith.md R122). -/

namespace Sys2Proof.Machine

/-- `SetFlags(res, w)` at the operand's width `n`, 8 or 16: `ZF` iff the result is 0, `SF` its top bit. -/
def setFlags {n : Nat} (res : BitVec n) (s : State) : State :=
  { s with zf := decide (res = 0#n), sf := res.msb }

end Sys2Proof.Machine
end

