-- ==== Sys2Proof/WellFormed.lean ====
section
/-! DEFINITION. Which terms of `Instr` stand for something the decoder can read. The check of a fallback is
written from the opcode ranges and lengths of spec/30_encoding.md (R69, R70, R74, R77, R78), not from the
decoder of Decode.lean. -/

namespace Sys2Proof

/-- `mod = 00` with `r_m = 110` is the direct address, so no operand is `[bp]` without a displacement (R50). -/
def MemOp.wf : MemOp → Bool
  | .noDisp b => b != .bp
  | .direct _ => true
  | .disp8 _ _ => true
  | .disp16 _ _ => true

def RM8.wf : RM8 → Bool
  | .reg _ => true
  | .mem m => m.wf

def RM16.wf : RM16 → Bool
  | .reg _ => true
  | .mem m => m.wf

/-- The first bytes listed in R78 as unmapped. -/
def unmappedFirstByte (op : Nat) : Bool :=
  (0x06 ≤ op && op ≤ 0x27) || (0x2E ≤ op && op ≤ 0x2F) || (0x30 ≤ op && op ≤ 0x37) ||
  (0x3E ≤ op && op ≤ 0x6F) || (0x84 ≤ op && op ≤ 0x87) || (0x8C ≤ op && op ≤ 0x9F) ||
  (0xA4 ≤ op && op ≤ 0xAF) || (0xC0 ≤ op && op ≤ 0xC5) || (0xC8 ≤ op && op ≤ 0xDF) || 0xE4 ≤ op

/-- The opcodes whose second byte is a mod/reg/r_m byte: formats RM and RMI (R74). -/
def hasModRegRm (op : Nat) : Bool :=
  op ≤ 0x03 || (0x28 ≤ op && op ≤ 0x2B) || (0x38 ≤ op && op ≤ 0x3B) || (0x80 ≤ op && op ≤ 0x83) ||
  (0x88 ≤ op && op ≤ 0x8B) || op == 0xC6 || op == 0xC7

/-- R69: a `reg` value the handlers of 0x80..0x83, 0xC6 and 0xC7 do not support; `m` is the second byte. -/
def unsupportedSubop (op m : Nat) : Bool :=
  let reg := m / 8 % 8
  (0x80 ≤ op && op ≤ 0x83 && reg != 0 && reg != 5 && reg != 7) || ((op == 0xC6 || op == 0xC7) && reg != 0)

/-- R70: the displacement bytes a mod/reg/r_m byte asks for. -/
def displacementBytes (m : Nat) : Nat :=
  let mod := m / 64
  if mod = 0 then (if m % 8 = 6 then 2 else 0) else if mod = 1 then 1 else if mod = 2 then 2 else 0

/-- R74: the length of the instruction a mapped first byte and the bytes after it begin; where a
mod/reg/r_m byte is needed and absent, the 2 bytes needed so far. -/
def announcedLength (op : Nat) (rest : List Byte) : Nat :=
  if hasModRegRm op then
    match rest with
    | [] => 2
    | m :: _ =>
      2 + displacementBytes m.toNat +
        (if op = 0x81 || op = 0xC7 then 2 else if 0x80 ≤ op && op ≤ 0x83 || op = 0xC6 then 1 else 0)
  else if 0xA0 ≤ op && op ≤ 0xA3 then 3
  else if 0xB0 ≤ op && op ≤ 0xBF then (if op < 0xB8 then 2 else 3)
  else if op = 0x05 || op = 0x2D || op = 0x3D then 3
  else 2

/-- A fallback carries at least one byte, and its reason is the first that applies to its bytes (R88, R91 to R93). -/
def fallbackWf : FallbackReason → List Byte → Bool
  | _, [] => false
  | .unmapped, op :: _ => unmappedFirstByte op.toNat
  | .subop, op :: rest =>
    match rest with
    | [] => false
    | m :: _ => unsupportedSubop op.toNat m.toNat
  | .truncated, op :: rest =>
    !unmappedFirstByte op.toNat &&
      (match rest with | [] => true | m :: _ => !unsupportedSubop op.toNat m.toNat) &&
      decide ((op :: rest).length < announcedLength op.toNat rest)

/-- Every operand is one the encoding admits. -/
def Instr.wf : Instr → Bool
  | .movRm8R8 o _ | .movR8Rm8 _ o | .movRm8Imm8 o _ => o.wf
  | .movRm16R16 o _ | .movR16Rm16 _ o | .movRm16Imm16 o _ => o.wf
  | .movR8Imm8 _ _ | .movR16Imm16 _ _ => true
  | .movAlMem _ | .movAxMem _ | .movMemAl _ | .movMemAx _ => true
  | .addRm8R8 o _ | .addR8Rm8 _ o | .addRm8Imm8 o _ | .addRm8Imm8Alias o _ => o.wf
  | .addRm16R16 o _ | .addR16Rm16 _ o | .addRm16Imm16 o _ | .addRm16SImm8 o _ => o.wf
  | .addAlImm8 _ | .addAxImm16 _ => true
  | .subRm8R8 o _ | .subR8Rm8 _ o | .subRm8Imm8 o _ | .subRm8Imm8Alias o _ => o.wf
  | .subRm16R16 o _ | .subR16Rm16 _ o | .subRm16Imm16 o _ | .subRm16SImm8 o _ => o.wf
  | .subAlImm8 _ | .subAxImm16 _ => true
  | .cmpRm8R8 o _ | .cmpR8Rm8 _ o | .cmpRm8Imm8 o _ | .cmpRm8Imm8Alias o _ => o.wf
  | .cmpRm16R16 o _ | .cmpR16Rm16 _ o | .cmpRm16Imm16 o _ | .cmpRm16SImm8 o _ => o.wf
  | .cmpAlImm8 _ | .cmpAxImm16 _ => true
  | .jo _ | .jno _ | .jb _ | .jnb _ | .jz _ | .jnz _ | .jbe _ | .ja _ => true
  | .js _ | .jns _ | .jp _ | .jnp _ | .jl _ | .jnl _ | .jle _ | .jg _ => true
  | .loopnz _ | .loopz _ | .loop _ | .jcxz _ => true
  | .db reason bytes => fallbackWf reason bytes

end Sys2Proof
end

