-- ==== Sys2Proof/Decode.lean ====
section
/-! DEFINITION. The decoder of spec/40_decoder.md R88 over the encodings of spec/30_encoding.md, total on any
bytes: what it does not decode it rejects by name, as a fallback `db` with its reason (R90 to R93). After it
the encoder, written from the same formats. -/

namespace Sys2Proof

/-! ### Bytes and words (spec/10_state.md R18, spec/20_memory.md R39) -/

/-- `v[7:0]`. -/
def lowByte (v : Word) : Byte := v.extractLsb' 0 8

/-- `v[15:8]`. -/
def highByte (v : Word) : Byte := v.extractLsb' 8 8

/-- `hi ++ lo`. -/
def combine (hi lo : Byte) : Word := hi ++ lo

/-- A word in the instruction stream: the low byte first (R39, R71). -/
def wordBytes (v : Word) : List Byte := [lowByte v, highByte v]

/-! ### Register and base numbers (R16, R17, R49) -/

def Reg16.ofIndex (i : BitVec 3) : Reg16 :=
  match i.toNat with
  | 0 => .ax | 1 => .cx | 2 => .dx | 3 => .bx | 4 => .sp | 5 => .bp | 6 => .si | _ => .di

def Reg16.index : Reg16 → BitVec 3
  | .ax => 0 | .cx => 1 | .dx => 2 | .bx => 3 | .sp => 4 | .bp => 5 | .si => 6 | .di => 7

def Reg8.ofIndex (i : BitVec 3) : Reg8 :=
  match i.toNat with
  | 0 => .al | 1 => .cl | 2 => .dl | 3 => .bl | 4 => .ah | 5 => .ch | 6 => .dh | _ => .bh

def Reg8.index : Reg8 → BitVec 3
  | .al => 0 | .cl => 1 | .dl => 2 | .bl => 3 | .ah => 4 | .ch => 5 | .dh => 6 | .bh => 7

def Base.ofIndex (i : BitVec 3) : Base :=
  match i.toNat with
  | 0 => .bxSi | 1 => .bxDi | 2 => .bpSi | 3 => .bpDi | 4 => .si | 5 => .di | 6 => .bp | _ => .bx

def Base.index : Base → BitVec 3
  | .bxSi => 0 | .bxDi => 1 | .bpSi => 2 | .bpDi => 3 | .si => 4 | .di => 5 | .bp => 6 | .bx => 7

/-! ### The mod/reg/r_m byte (R62) -/

/-- The three fields of a mod/reg/r_m byte. -/
structure ModRegRm where
  mod : BitVec 2
  reg : BitVec 3
  rm : BitVec 3
deriving DecidableEq, Repr

/-- `mod = byte[7:6]`, `reg = byte[5:3]`, `r_m = byte[2:0]`. -/
def ModRegRm.ofByte (m : Byte) : ModRegRm :=
  { mod := m.extractLsb' 6 2, reg := m.extractLsb' 3 3, rm := m.extractLsb' 0 3 }

def ModRegRm.toByte (f : ModRegRm) : Byte := f.mod ++ f.reg ++ f.rm

/-- The r/m operand before its width is known: a register number, or memory (R63). -/
inductive RmField
  | reg (i : BitVec 3)
  | mem (m : MemOp)
deriving DecidableEq, Repr

def RM8.ofField : RmField → RM8
  | .reg i => .reg (Reg8.ofIndex i)
  | .mem m => .mem m

def RM8.field : RM8 → RmField
  | .reg r => .reg r.index
  | .mem m => .mem m

def RM16.ofField : RmField → RM16
  | .reg i => .reg (Reg16.ofIndex i)
  | .mem m => .mem m

def RM16.field : RM16 → RmField
  | .reg r => .reg r.index
  | .mem m => .mem m

/-! ### Lengths (R70, R74, R75) -/

/-- The displacement bytes of a memory operand (R70). -/
def MemOp.dispLen : MemOp → Nat
  | .noDisp _ => 0
  | .direct _ => 2
  | .disp8 _ _ => 1
  | .disp16 _ _ => 2

def RM8.dispLen : RM8 → Nat
  | .reg _ => 0
  | .mem m => m.dispLen

def RM16.dispLen : RM16 → Nat
  | .reg _ => 0
  | .mem m => m.dispLen

/-- The number of bytes of an instruction (R74); a fallback has every byte it consumes (R90). -/
def Instr.length : Instr → Nat
  | .movRm8R8 o _ | .movR8Rm8 _ o => 2 + o.dispLen
  | .movRm16R16 o _ | .movR16Rm16 _ o => 2 + o.dispLen
  | .movRm8Imm8 o _ => 2 + o.dispLen + 1
  | .movRm16Imm16 o _ => 2 + o.dispLen + 2
  | .movR8Imm8 _ _ => 2
  | .movR16Imm16 _ _ => 3
  | .movAlMem _ | .movAxMem _ | .movMemAl _ | .movMemAx _ => 3
  | .addRm8R8 o _ | .addR8Rm8 _ o => 2 + o.dispLen
  | .addRm16R16 o _ | .addR16Rm16 _ o => 2 + o.dispLen
  | .addAlImm8 _ => 2
  | .addAxImm16 _ => 3
  | .addRm8Imm8 o _ | .addRm8Imm8Alias o _ => 2 + o.dispLen + 1
  | .addRm16Imm16 o _ => 2 + o.dispLen + 2
  | .addRm16SImm8 o _ => 2 + o.dispLen + 1
  | .subRm8R8 o _ | .subR8Rm8 _ o => 2 + o.dispLen
  | .subRm16R16 o _ | .subR16Rm16 _ o => 2 + o.dispLen
  | .subAlImm8 _ => 2
  | .subAxImm16 _ => 3
  | .subRm8Imm8 o _ | .subRm8Imm8Alias o _ => 2 + o.dispLen + 1
  | .subRm16Imm16 o _ => 2 + o.dispLen + 2
  | .subRm16SImm8 o _ => 2 + o.dispLen + 1
  | .cmpRm8R8 o _ | .cmpR8Rm8 _ o => 2 + o.dispLen
  | .cmpRm16R16 o _ | .cmpR16Rm16 _ o => 2 + o.dispLen
  | .cmpAlImm8 _ => 2
  | .cmpAxImm16 _ => 3
  | .cmpRm8Imm8 o _ | .cmpRm8Imm8Alias o _ => 2 + o.dispLen + 1
  | .cmpRm16Imm16 o _ => 2 + o.dispLen + 2
  | .cmpRm16SImm8 o _ => 2 + o.dispLen + 1
  | .jo _ | .jno _ | .jb _ | .jnb _ | .jz _ | .jnz _ | .jbe _ | .ja _ => 2
  | .js _ | .jns _ | .jp _ | .jnp _ | .jl _ | .jnl _ | .jle _ | .jg _ => 2
  | .loopnz _ | .loopz _ | .loop _ | .jcxz _ => 2
  | .db _ bytes => bytes.length

/-- The row number 1..62 of R77, the record's `form` (R89); a fallback has none. -/
def Instr.form : Instr → Option Nat
  | .movRm8R8 _ _ => some 1
  | .movRm16R16 _ _ => some 2
  | .movR8Rm8 _ _ => some 3
  | .movR16Rm16 _ _ => some 4
  | .movRm8Imm8 _ _ => some 5
  | .movRm16Imm16 _ _ => some 6
  | .movR8Imm8 _ _ => some 7
  | .movR16Imm16 _ _ => some 8
  | .movAlMem _ => some 9
  | .movAxMem _ => some 10
  | .movMemAl _ => some 11
  | .movMemAx _ => some 12
  | .addRm8R8 _ _ => some 13
  | .addRm16R16 _ _ => some 14
  | .addR8Rm8 _ _ => some 15
  | .addR16Rm16 _ _ => some 16
  | .addAlImm8 _ => some 17
  | .addAxImm16 _ => some 18
  | .addRm8Imm8 _ _ => some 19
  | .addRm16Imm16 _ _ => some 20
  | .addRm8Imm8Alias _ _ => some 21
  | .addRm16SImm8 _ _ => some 22
  | .subRm8R8 _ _ => some 23
  | .subRm16R16 _ _ => some 24
  | .subR8Rm8 _ _ => some 25
  | .subR16Rm16 _ _ => some 26
  | .subAlImm8 _ => some 27
  | .subAxImm16 _ => some 28
  | .subRm8Imm8 _ _ => some 29
  | .subRm16Imm16 _ _ => some 30
  | .subRm8Imm8Alias _ _ => some 31
  | .subRm16SImm8 _ _ => some 32
  | .cmpRm8R8 _ _ => some 33
  | .cmpRm16R16 _ _ => some 34
  | .cmpR8Rm8 _ _ => some 35
  | .cmpR16Rm16 _ _ => some 36
  | .cmpAlImm8 _ => some 37
  | .cmpAxImm16 _ => some 38
  | .cmpRm8Imm8 _ _ => some 39
  | .cmpRm16Imm16 _ _ => some 40
  | .cmpRm8Imm8Alias _ _ => some 41
  | .cmpRm16SImm8 _ _ => some 42
  | .jo _ => some 43
  | .jno _ => some 44
  | .jb _ => some 45
  | .jnb _ => some 46
  | .jz _ => some 47
  | .jnz _ => some 48
  | .jbe _ => some 49
  | .ja _ => some 50
  | .js _ => some 51
  | .jns _ => some 52
  | .jp _ => some 53
  | .jnp _ => some 54
  | .jl _ => some 55
  | .jnl _ => some 56
  | .jle _ => some 57
  | .jg _ => some 58
  | .loopnz _ => some 59
  | .loopz _ => some 60
  | .loop _ => some 61
  | .jcxz _ => some 62
  | .db _ _ => none

/-! ### Reading bytes in increasing offset order (R85, R88) -/

def takeByte : List Byte → Option (Byte × List Byte)
  | [] => none
  | b :: rest => some (b, rest)

/-- Two bytes, the lower offset the low byte (R39). -/
def takeWord : List Byte → Option (Word × List Byte)
  | lo :: hi :: rest => some (combine hi lo, rest)
  | _ => none

/-- The r/m operand of `mod` and `r_m`, with its displacement bytes (R50, R63, R70). -/
def takeRm (mod : BitVec 2) (rm : BitVec 3) (bytes : List Byte) : Option (RmField × List Byte) :=
  match mod.toNat with
  | 0 =>
    if rm = 0b110#3 then (takeWord bytes).map fun (a16, rest) => (.mem (.direct a16), rest)
    else some (.mem (.noDisp (Base.ofIndex rm)), bytes)
  | 1 => (takeByte bytes).map fun (d, rest) => (.mem (.disp8 (Base.ofIndex rm) d), rest)
  | 2 => (takeWord bytes).map fun (d, rest) => (.mem (.disp16 (Base.ofIndex rm) d), rest)
  | _ => some (.reg rm, bytes)

/-- A byte that cannot be read makes the instruction truncated (R91). -/
def orTruncated {α : Type} : Option α → Except FallbackReason α
  | some a => .ok a
  | none => .error .truncated

/-- Format RM: the mod/reg/r_m byte and its displacement (R74, R88). -/
def formRm (mk : RmField → BitVec 3 → Instr) (bytes : List Byte) : Except FallbackReason Instr := do
  let (m, bytes) ← orTruncated (takeByte bytes)
  let f := ModRegRm.ofByte m
  let (o, _) ← orTruncated (takeRm f.mod f.rm bytes)
  return mk o f.reg

def formRm8R8 (mk : RM8 → Reg8 → Instr) : List Byte → Except FallbackReason Instr :=
  formRm fun o reg => mk (RM8.ofField o) (Reg8.ofIndex reg)

def formRm16R16 (mk : RM16 → Reg16 → Instr) : List Byte → Except FallbackReason Instr :=
  formRm fun o reg => mk (RM16.ofField o) (Reg16.ofIndex reg)

/-- Format RMI: the sub-opcode is judged as soon as the mod/reg/r_m byte is read (R93), then come the
displacement and the immediate (R88). -/
def formRmi {α ι : Type} (ofField : RmField → α) (takeImm : List Byte → Option (ι × List Byte))
    (select : BitVec 3 → Option (α → ι → Instr)) (bytes : List Byte) : Except FallbackReason Instr := do
  let (m, bytes) ← orTruncated (takeByte bytes)
  let f := ModRegRm.ofByte m
  match select f.reg with
  | none => throw .subop
  | some mk =>
    let (o, bytes) ← orTruncated (takeRm f.mod f.rm bytes)
    let (imm, _) ← orTruncated (takeImm bytes)
    return mk (ofField o) imm

def formRm8Imm8 (select : BitVec 3 → Option (RM8 → Byte → Instr)) : List Byte → Except FallbackReason Instr :=
  formRmi RM8.ofField takeByte select

def formRm16Imm16 (select : BitVec 3 → Option (RM16 → Word → Instr)) :
    List Byte → Except FallbackReason Instr :=
  formRmi RM16.ofField takeWord select

def formRm16Imm8 (select : BitVec 3 → Option (RM16 → Byte → Instr)) :
    List Byte → Except FallbackReason Instr :=
  formRmi RM16.ofField takeByte select

/-- The sub-opcodes of 0x80..0x83: `000` ADD, `101` SUB, `111` CMP (R69). -/
def aluGroup {α : Type} (add sub cmp : α) (reg : BitVec 3) : Option α :=
  match reg.toNat with
  | 0 => some add
  | 5 => some sub
  | 7 => some cmp
  | _ => none

/-- A byte after the opcode: format J8, and AI and RI with `w = 0` (R74). -/
def formImm8 (mk : Byte → Instr) (bytes : List Byte) : Except FallbackReason Instr := do
  let (imm, _) ← orTruncated (takeByte bytes)
  return mk imm

/-- A word after the opcode: format AM, and AI and RI with `w = 1` (R74). -/
def formImm16 (mk : Word → Instr) (bytes : List Byte) : Except FallbackReason Instr := do
  let (imm, _) ← orTruncated (takeWord bytes)
  return mk imm

/-! ### The decode procedure (R88) -/

/-- The opcode map of R77 and R78: the first byte alone selects the handler (R61). -/
def decodeOp (op : Byte) (rest : List Byte) : Except FallbackReason Instr :=
  match op.toNat with
  -- MOV, R109 to R120
  | 0x88 => formRm8R8 .movRm8R8 rest
  | 0x89 => formRm16R16 .movRm16R16 rest
  | 0x8A => formRm8R8 (fun o r => .movR8Rm8 r o) rest
  | 0x8B => formRm16R16 (fun o r => .movR16Rm16 r o) rest
  | 0xC6 => formRm8Imm8 (fun reg => if reg = 0#3 then some .movRm8Imm8 else none) rest
  | 0xC7 => formRm16Imm16 (fun reg => if reg = 0#3 then some .movRm16Imm16 else none) rest
  | 0xA0 => formImm16 .movAlMem rest
  | 0xA1 => formImm16 .movAxMem rest
  | 0xA2 => formImm16 .movMemAl rest
  | 0xA3 => formImm16 .movMemAx rest
  -- ADD, R127 on
  | 0x00 => formRm8R8 .addRm8R8 rest
  | 0x01 => formRm16R16 .addRm16R16 rest
  | 0x02 => formRm8R8 (fun o r => .addR8Rm8 r o) rest
  | 0x03 => formRm16R16 (fun o r => .addR16Rm16 r o) rest
  | 0x04 => formImm8 .addAlImm8 rest
  | 0x05 => formImm16 .addAxImm16 rest
  -- SUB, R137 on
  | 0x28 => formRm8R8 .subRm8R8 rest
  | 0x29 => formRm16R16 .subRm16R16 rest
  | 0x2A => formRm8R8 (fun o r => .subR8Rm8 r o) rest
  | 0x2B => formRm16R16 (fun o r => .subR16Rm16 r o) rest
  | 0x2C => formImm8 .subAlImm8 rest
  | 0x2D => formImm16 .subAxImm16 rest
  -- CMP, R147 on
  | 0x38 => formRm8R8 .cmpRm8R8 rest
  | 0x39 => formRm16R16 .cmpRm16R16 rest
  | 0x3A => formRm8R8 (fun o r => .cmpR8Rm8 r o) rest
  | 0x3B => formRm16R16 (fun o r => .cmpR16Rm16 r o) rest
  | 0x3C => formImm8 .cmpAlImm8 rest
  | 0x3D => formImm16 .cmpAxImm16 rest
  -- the immediate group of R69
  | 0x80 => formRm8Imm8 (aluGroup .addRm8Imm8 .subRm8Imm8 .cmpRm8Imm8) rest
  | 0x81 => formRm16Imm16 (aluGroup .addRm16Imm16 .subRm16Imm16 .cmpRm16Imm16) rest
  | 0x82 => formRm8Imm8 (aluGroup .addRm8Imm8Alias .subRm8Imm8Alias .cmpRm8Imm8Alias) rest
  | 0x83 => formRm16Imm8 (aluGroup .addRm16SImm8 .subRm16SImm8 .cmpRm16SImm8) rest
  -- the short jumps, R163, R180
  | 0x70 => formImm8 .jo rest
  | 0x71 => formImm8 .jno rest
  | 0x72 => formImm8 .jb rest
  | 0x73 => formImm8 .jnb rest
  | 0x74 => formImm8 .jz rest
  | 0x75 => formImm8 .jnz rest
  | 0x76 => formImm8 .jbe rest
  | 0x77 => formImm8 .ja rest
  | 0x78 => formImm8 .js rest
  | 0x79 => formImm8 .jns rest
  | 0x7A => formImm8 .jp rest
  | 0x7B => formImm8 .jnp rest
  | 0x7C => formImm8 .jl rest
  | 0x7D => formImm8 .jnl rest
  | 0x7E => formImm8 .jle rest
  | 0x7F => formImm8 .jg rest
  | 0xE0 => formImm8 .loopnz rest
  | 0xE1 => formImm8 .loopz rest
  | 0xE2 => formImm8 .loop rest
  | 0xE3 => formImm8 .jcxz rest
  | _ =>
    -- MOV register-immediate: `1011wrrr` (R67)
    if op.extractLsb' 3 5 = 0b10110#5 then formImm8 (.movR8Imm8 (Reg8.ofIndex (op.extractLsb' 0 3))) rest
    else if op.extractLsb' 3 5 = 0b10111#5 then
      formImm16 (.movR16Imm16 (Reg16.ofIndex (op.extractLsb' 0 3))) rest
    else throw .unmapped

/-- What the bytes from the decode position to the end of the buffer decode to; `none` is the record of
kind EMPTY (R83, R89). A fallback keeps all of the bytes (R90). -/
def decodeBytes : List Byte → Option Instr
  | [] => none
  | op :: rest =>
    match decodeOp op rest with
    | .ok i => some i
    | .error reason => some (.db reason (op :: rest))

/-- The record `decode(buffer, position)` hands to the execution engine (R82, R83). -/
def decodeAt (buffer : List Byte) (position : Nat) : Option Instr :=
  decodeBytes (buffer.drop position)

/-- `next_position` of `decode(buffer, position)` (R82, R83, R88, R90). -/
def nextPosition (buffer : List Byte) (position : Nat) : Nat :=
  match decodeAt buffer position with
  | none => position
  | some i => position + i.length

/-! ### The encoder (R62, R70 to R74) -/

/-- The mod/reg/r_m byte of an operand and its displacement bytes. -/
def rmBytes (reg : BitVec 3) : RmField → List Byte
  | .reg i => [ModRegRm.toByte { mod := 0b11, reg := reg, rm := i }]
  | .mem (.noDisp b) => [ModRegRm.toByte { mod := 0b00, reg := reg, rm := b.index }]
  | .mem (.direct a16) => ModRegRm.toByte { mod := 0b00, reg := reg, rm := 0b110 } :: wordBytes a16
  | .mem (.disp8 b d) => [ModRegRm.toByte { mod := 0b01, reg := reg, rm := b.index }, d]
  | .mem (.disp16 b d) => ModRegRm.toByte { mod := 0b10, reg := reg, rm := b.index } :: wordBytes d

/-- The bytes of an instruction in fetch order. -/
def encode : Instr → List Byte
  | .movRm8R8 o r => 0x88 :: rmBytes r.index o.field
  | .movRm16R16 o r => 0x89 :: rmBytes r.index o.field
  | .movR8Rm8 r o => 0x8A :: rmBytes r.index o.field
  | .movR16Rm16 r o => 0x8B :: rmBytes r.index o.field
  | .movRm8Imm8 o imm => 0xC6 :: rmBytes 0 o.field ++ [imm]
  | .movRm16Imm16 o imm => 0xC7 :: rmBytes 0 o.field ++ wordBytes imm
  | .movR8Imm8 r imm => [0b10110#5 ++ r.index, imm]
  | .movR16Imm16 r imm => (0b10111#5 ++ r.index) :: wordBytes imm
  | .movAlMem a16 => 0xA0 :: wordBytes a16
  | .movAxMem a16 => 0xA1 :: wordBytes a16
  | .movMemAl a16 => 0xA2 :: wordBytes a16
  | .movMemAx a16 => 0xA3 :: wordBytes a16
  | .addRm8R8 o r => 0x00 :: rmBytes r.index o.field
  | .addRm16R16 o r => 0x01 :: rmBytes r.index o.field
  | .addR8Rm8 r o => 0x02 :: rmBytes r.index o.field
  | .addR16Rm16 r o => 0x03 :: rmBytes r.index o.field
  | .addAlImm8 imm => [0x04, imm]
  | .addAxImm16 imm => 0x05 :: wordBytes imm
  | .addRm8Imm8 o imm => 0x80 :: rmBytes 0 o.field ++ [imm]
  | .addRm16Imm16 o imm => 0x81 :: rmBytes 0 o.field ++ wordBytes imm
  | .addRm8Imm8Alias o imm => 0x82 :: rmBytes 0 o.field ++ [imm]
  | .addRm16SImm8 o imm => 0x83 :: rmBytes 0 o.field ++ [imm]
  | .subRm8R8 o r => 0x28 :: rmBytes r.index o.field
  | .subRm16R16 o r => 0x29 :: rmBytes r.index o.field
  | .subR8Rm8 r o => 0x2A :: rmBytes r.index o.field
  | .subR16Rm16 r o => 0x2B :: rmBytes r.index o.field
  | .subAlImm8 imm => [0x2C, imm]
  | .subAxImm16 imm => 0x2D :: wordBytes imm
  | .subRm8Imm8 o imm => 0x80 :: rmBytes 5 o.field ++ [imm]
  | .subRm16Imm16 o imm => 0x81 :: rmBytes 5 o.field ++ wordBytes imm
  | .subRm8Imm8Alias o imm => 0x82 :: rmBytes 5 o.field ++ [imm]
  | .subRm16SImm8 o imm => 0x83 :: rmBytes 5 o.field ++ [imm]
  | .cmpRm8R8 o r => 0x38 :: rmBytes r.index o.field
  | .cmpRm16R16 o r => 0x39 :: rmBytes r.index o.field
  | .cmpR8Rm8 r o => 0x3A :: rmBytes r.index o.field
  | .cmpR16Rm16 r o => 0x3B :: rmBytes r.index o.field
  | .cmpAlImm8 imm => [0x3C, imm]
  | .cmpAxImm16 imm => 0x3D :: wordBytes imm
  | .cmpRm8Imm8 o imm => 0x80 :: rmBytes 7 o.field ++ [imm]
  | .cmpRm16Imm16 o imm => 0x81 :: rmBytes 7 o.field ++ wordBytes imm
  | .cmpRm8Imm8Alias o imm => 0x82 :: rmBytes 7 o.field ++ [imm]
  | .cmpRm16SImm8 o imm => 0x83 :: rmBytes 7 o.field ++ [imm]
  | .jo r8 => [0x70, r8]
  | .jno r8 => [0x71, r8]
  | .jb r8 => [0x72, r8]
  | .jnb r8 => [0x73, r8]
  | .jz r8 => [0x74, r8]
  | .jnz r8 => [0x75, r8]
  | .jbe r8 => [0x76, r8]
  | .ja r8 => [0x77, r8]
  | .js r8 => [0x78, r8]
  | .jns r8 => [0x79, r8]
  | .jp r8 => [0x7A, r8]
  | .jnp r8 => [0x7B, r8]
  | .jl r8 => [0x7C, r8]
  | .jnl r8 => [0x7D, r8]
  | .jle r8 => [0x7E, r8]
  | .jg r8 => [0x7F, r8]
  | .loopnz r8 => [0xE0, r8]
  | .loopz r8 => [0xE1, r8]
  | .loop r8 => [0xE2, r8]
  | .jcxz r8 => [0xE3, r8]
  | .db _ bytes => bytes

/-! ### The host's numbering of a table word -/

/-- The bytes of a table word: the first byte is its least significant one. -/
def tableBytes : Nat → Nat → List Byte
  | 0, _ => []
  | n + 1, w => BitVec.ofNat 8 w :: tableBytes n (w / 256)

/-- A table row's `nbits` bits in a buffer of the longest instruction's six bytes (R75), the bits above
`nbits` zero. -/
def tableBuffer (nbits w : Nat) : List Byte := tableBytes 6 (w % 2 ^ nbits)

/-- The instruction the decoder reads from a table word (assumption 8). -/
def decodeTableWord (nbits w : Nat) : Option Instr := decodeBytes (tableBuffer nbits w)

end Sys2Proof
end

