-- ==== Sys2Proof/Machine/Profile.lean ====
section
/-! DEFINITION. Which forms the executor carries out (spec/60_exceptions.md R188) and the code a step
records for one it does not (R187). -/

namespace Sys2Proof.Machine

/-- How the two profiles treat a record: a row of the table of R188, or a fallback. -/
inductive Coverage
  /-- `exec` under SOURCE and FULL. -/
  | always
  /-- `diag` under SOURCE, `exec` under FULL. -/
  | fullOnly
  /-- `cond` under both. -/
  | unmodelledCondition
  /-- A record of kind FALLBACK. -/
  | fallback (reason : FallbackReason)
deriving DecidableEq, Repr

/-- The table of R188, row by row. -/
def coverage : Instr → Coverage
  -- rows 2, 4, 8
  | .movRm16R16 _ _ | .movR16Rm16 _ _ | .movR16Imm16 _ _ => .always
  -- rows 1, 3, 5, 6, 7, 9..12
  | .movRm8R8 _ _ | .movR8Rm8 _ _ | .movRm8Imm8 _ _ | .movRm16Imm16 _ _ | .movR8Imm8 _ _ => .fullOnly
  | .movAlMem _ | .movAxMem _ | .movMemAl _ | .movMemAx _ => .fullOnly
  -- rows 14, 16, 24, 26, 34, 36
  | .addRm16R16 _ _ | .addR16Rm16 _ _ | .subRm16R16 _ _ | .subR16Rm16 _ _ => .always
  | .cmpRm16R16 _ _ | .cmpR16Rm16 _ _ => .always
  -- rows 20, 22, 30, 32, 40, 42
  | .addRm16Imm16 _ _ | .addRm16SImm8 _ _ | .subRm16Imm16 _ _ | .subRm16SImm8 _ _ => .always
  | .cmpRm16Imm16 _ _ | .cmpRm16SImm8 _ _ => .always
  -- rows 13, 15, 17, 18, 23, 25, 27, 28, 33, 35, 37, 38
  | .addRm8R8 _ _ | .addR8Rm8 _ _ | .addAlImm8 _ | .addAxImm16 _ => .fullOnly
  | .subRm8R8 _ _ | .subR8Rm8 _ _ | .subAlImm8 _ | .subAxImm16 _ => .fullOnly
  | .cmpRm8R8 _ _ | .cmpR8Rm8 _ _ | .cmpAlImm8 _ | .cmpAxImm16 _ => .fullOnly
  -- rows 19, 21, 29, 31, 39, 41
  | .addRm8Imm8 _ _ | .addRm8Imm8Alias _ _ | .subRm8Imm8 _ _ | .subRm8Imm8Alias _ _ => .fullOnly
  | .cmpRm8Imm8 _ _ | .cmpRm8Imm8Alias _ _ => .fullOnly
  -- rows 48; 47, 51, 52
  | .jnz _ => .always
  | .jz _ | .js _ | .jns _ => .fullOnly
  -- rows 43..46, 49, 50, 53..58
  | .jo _ | .jno _ | .jb _ | .jnb _ | .jbe _ | .ja _ => .unmodelledCondition
  | .jp _ | .jnp _ | .jl _ | .jnl _ | .jle _ | .jg _ => .unmodelledCondition
  -- rows 59..62
  | .loopnz _ | .loopz _ | .loop _ | .jcxz _ => .fullOnly
  | .db reason _ => .fallback reason

/-- The diagnostic of a fallback, after its reason (R187). -/
def fallbackDiag : FallbackReason → DiagCode
  | .unmapped => .unmapped
  | .subop => .subop
  | .truncated => .truncated

/-- The code of a record the profile does not execute, `none` for one it executes (R187, R188). -/
def diagnosis (i : Instr) (p : Profile) : Option DiagCode :=
  match coverage i, p with
  | .always, _ => none
  | .fullOnly, .full => none
  | .fullOnly, .source => some .profile
  | .unmodelledCondition, _ => some .condUnmodeled
  | .fallback reason, _ => some (fallbackDiag reason)

end Sys2Proof.Machine
end

