-- ==== Sys2Proof/Machine/Ops.lean ====
section
/-! DEFINITION. The operations every meaning is written over: register views, memory bytes, clock charges,
diagnostics, taking a fault, and the frame the sequencer puts around an instruction rule. -/

namespace Sys2Proof.Machine

/-- An instruction step's outcome. -/
abbrev Outcome := Host.Outcome State Fault Refusal

/-! ### General registers (spec/10_state.md R16 to R18) -/

def Regs.get16 (r : Regs) : Reg16 → Word
  | .ax => r.ax | .cx => r.cx | .dx => r.dx | .bx => r.bx
  | .sp => r.sp | .bp => r.bp | .si => r.si | .di => r.di

def Regs.set16 (r : Regs) (i : Reg16) (v : Word) : Regs :=
  match i with
  | .ax => { r with ax := v } | .cx => { r with cx := v } | .dx => { r with dx := v } | .bx => { r with bx := v }
  | .sp => { r with sp := v } | .bp => { r with bp := v } | .si => { r with si := v } | .di => { r with di := v }

/-- The register a view is a byte of: `x[i]` or `x[i-4]` (R17). -/
def Reg8.parent : Reg8 → Reg16
  | .al | .ah => .ax
  | .cl | .ch => .cx
  | .dl | .dh => .dx
  | .bl | .bh => .bx

/-- A view of index 4..7 is the high byte (R17). -/
def Reg8.isHigh : Reg8 → Bool
  | .al | .cl | .dl | .bl => false
  | .ah | .ch | .dh | .bh => true

/-- `x8[i]` (R17). -/
def Regs.get8 (r : Regs) (i : Reg8) : Byte :=
  let x := r.get16 (Reg8.parent i)
  if Reg8.isHigh i then highByte x else lowByte x

/-- `x8[i] <- v`: the other byte of the register is kept (R17, R18). -/
def Regs.set8 (r : Regs) (i : Reg8) (v : Byte) : Regs :=
  let x := r.get16 (Reg8.parent i)
  r.set16 (Reg8.parent i) (if Reg8.isHigh i then combine v (lowByte x) else combine (highByte x) v)

/-- The flags packed for observation: `ZF` at bit 6, `SF` at bit 7, every other bit 0 (R25). -/
def packedFlags (s : State) : Word :=
  (if s.zf then 0x0040 else 0) ||| (if s.sf then 0x0080 else 0)

/-! ### Memory (spec/10_state.md R27, R29; spec/20_memory.md R37 to R41) -/

/-- `MEM_SIZE` (spec/00_scope.md R7). -/
def memSize : Nat := 65536

/-- `mem[a]`; an offset not listed reads 0 (R29). -/
def Memory.read : Memory → Nat → Byte
  | [], _ => 0#8
  | (k, b) :: m, a => if k = a then b else Memory.read m a

/-- `mem[a] <- v`, keeping the canonical form: writing 0 removes the entry. -/
def Memory.write : Memory → Nat → Byte → Memory
  | [], a, v => if v = 0#8 then [] else [(a, v)]
  | (k, b) :: m, a, v =>
    if a < k then (if v = 0#8 then (k, b) :: m else (a, v) :: (k, b) :: m)
    else if a = k then (if v = 0#8 then m else (a, v) :: m)
    else (k, b) :: Memory.write m a v

/-- Offsets from `lo` on, strictly rising, inside memory, no byte 0. -/
def Memory.wfFrom : Nat → Memory → Bool
  | _, [] => true
  | lo, (k, b) :: m => decide (lo ≤ k) && decide (k < memSize) && b != 0#8 && Memory.wfFrom (k + 1) m

/-- The canonical form of memory (assumption 6). -/
def Memory.wf (m : Memory) : Bool := Memory.wfFrom 0 m

/-- Writes bytes at rising offsets from `a` on. -/
def Memory.writeBytes : Memory → Nat → List Byte → Memory
  | m, _, [] => m
  | m, a, b :: bs => Memory.writeBytes (Memory.write m a b) (a + 1) bs

/-- R53: an access of `n` bytes at `a` lies inside memory. -/
def inRange (a n : Nat) : Bool := decide (a + n ≤ memSize)

/-- `MemRead(a, 1)` (R40). -/
def memRead8 (a : Nat) (s : State) : Except Fault Byte :=
  if inRange a 1 then .ok (s.mem.read a) else .error .eaRange

/-- `MemRead(a, 2)` (R40), little-endian (R39). -/
def memRead16 (a : Nat) (s : State) : Except Fault Word :=
  if inRange a 2 then .ok (combine (s.mem.read (a + 1)) (s.mem.read a)) else .error .eaRange

/-- The checks of a write in order: the range, then the image, on the first byte (R41, R47). -/
def writeCheck (a n : Nat) (s : State) : Except Fault Unit :=
  if !inRange a n then .error .eaRange else if a < s.codeLen then .error .smc else .ok ()

/-- `MemWrite(a, 1, v)` (R41). -/
def memWrite8 (a : Nat) (v : Byte) (s : State) : Except Fault State :=
  (writeCheck a 1 s).map fun _ => { s with mem := s.mem.write a v }

/-- `MemWrite(a, 2, v)` (R41), little-endian (R39). -/
def memWrite16 (a : Nat) (v : Word) (s : State) : Except Fault State :=
  (writeCheck a 2 s).map fun _ => { s with mem := (s.mem.write a (lowByte v)).write (a + 1) (highByte v) }

/-! ### Clock charges (spec/70_reset_and_hazards.md R207, R212) -/

/-- `charge(n)` (R207). -/
def charge (n : Nat) (s : State) : State := { s with clocks := s.clocks + n }

/-- `odd(1, a, t)`: `CLK_ODD_WORD` for each of `t` word transfers at an odd address (R107, R212). -/
def oddCost (a transfers : Nat) (s : State) : Nat :=
  if a % 2 = 1 then s.params.oddWord * transfers else 0

/-! ### Diagnostics, faults and the step around an instruction -/

/-- `diag(code)` (spec/60_exceptions.md R185). -/
def diag (code : DiagCode) (s : State) : State := { s with diagSeen := true, lastDiag := some code }

/-- The sequencer's work before an instruction's effects: `clocks <- 0` and `ip <- trunc_16(start + len)`
(spec/43_control.md R157, R161). -/
def beginStep (len : Nat) (s : State) : State :=
  { s with clocks := 0, ip := s.ip + BitVec.ofNat 16 len }

/-- `total_clocks <- total_clocks + clocks` (R157). -/
def finishStep (s : State) : State := { s with totalClocks := s.totalClocks + s.clocks }

/-- Taking a fault (spec/60_exceptions.md R190): of the state at the start of the step, whose `ip` is the
faulting instruction's first byte, only `clocks`, `run_state` and `fault_code` change. -/
def takeFault (f : Fault) (s : State) : State :=
  { s with clocks := 0, runState := .faulted, faultCode := some f }

/-- A step whose instruction of `len` bytes is not carried out (R157, R185). -/
def diagnosticStep (code : DiagCode) (len : Nat) (s : State) : State :=
  finishStep (diag code (beginStep len s))

/-- One step that runs `i` from its first byte (R157): the diagnostic of R187 when the profile leaves `i` out,
else the instruction rule `rule` on the state with `ip` past `i` (spec/41_mov.md R104), a raised fault taken. -/
def perform (i : Instr) (rule : State → Except Fault State) (s : State) : Outcome :=
  match diagnosis i s.params.profile with
  | some code => .next (diagnosticStep code i.length s)
  | none =>
    match rule (beginStep i.length s) with
    | .ok t => .next (finishStep t)
    | .error f => .next (takeFault f s)

end Sys2Proof.Machine
end

