-- ==== Sys2Proof/Machine/Record.lean ====
section
/-! DEFINITION. The decoded record of spec/40_decoder.md R89, field by field, of an instruction the decoder read.
Its values are the ones the text renderer and the execution engine use: the signed displacement, the immediate
after its sign extension, the signed jump offset (assumption 17). -/

namespace Sys2Proof

/-- `kind` (R89). -/
inductive RecordKind
  | inst
  | fallback
  | empty
deriving DecidableEq, Repr

/-- `imm` at the operand's width (R89). -/
inductive Immediate
  | byte (v : Byte)
  | word (v : Word)
deriving DecidableEq, Repr

/-- The decoded record; a field the record's kind or format does not have is `none`. -/
structure Record where
  kind : RecordKind
  /-- The position. -/
  start : Nat
  /-- Bytes consumed. -/
  len : Nat
  /-- The row 1..62 of spec/30_encoding.md R77. -/
  form : Option Nat := none
  op : Option Byte := none
  d : Option (BitVec 1) := none
  w : Option (BitVec 1) := none
  s : Option (BitVec 1) := none
  mod : Option (BitVec 2) := none
  reg : Option (BitVec 3) := none
  rm : Option (BitVec 3) := none
  /-- Signed, or the unsigned direct address (spec/20_memory.md R50, R51). -/
  disp : Option Int := none
  imm : Option Immediate := none
  a16 : Option Word := none
  /-- `signed_8` of its byte. -/
  r8 : Option Int := none
  /-- Of a fallback. -/
  reason : Option FallbackReason := none
deriving DecidableEq, Repr

/-! ### The values of the fields -/

/-- `mod` of a memory operand (spec/30_encoding.md R63). -/
def MemOp.mod : MemOp → BitVec 2
  | .noDisp _ | .direct _ => 0b00
  | .disp8 _ _ => 0b01
  | .disp16 _ _ => 0b10

/-- `r_m` of a memory operand (spec/20_memory.md R49, R51). -/
def MemOp.rm : MemOp → BitVec 3
  | .noDisp b | .disp8 b _ | .disp16 b _ => b.index
  | .direct _ => 0b110

/-- The displacement: 0, `signed_8`, `signed_16`, or the unsigned direct address (spec/20_memory.md R50, R51). -/
def MemOp.disp : MemOp → Int
  | .noDisp _ => 0
  | .direct a16 => a16.toNat
  | .disp8 _ d => d.toInt
  | .disp16 _ d => d.toInt

def RmField.mod : RmField → BitVec 2
  | .reg _ => 0b11
  | .mem m => m.mod

def RmField.rm : RmField → BitVec 3
  | .reg i => i
  | .mem m => m.rm

/-- A register operand has no displacement (spec/20_memory.md R50). -/
def RmField.disp : RmField → Option Int
  | .reg _ => none
  | .mem m => some m.disp

/-- The immediate of 0x83: `trunc_16(sext_16(i8))` (spec/30_encoding.md R71). -/
def sextImm (imm : Byte) : Word := imm.signExtend 16

/-! ### The fields each format has (spec/30_encoding.md R74) -/

/-- `w = opcode[0]` (spec/30_encoding.md R64). -/
def Record.withW (op : Byte) (r : Record) : Record := { r with w := some (op.extractLsb' 0 1) }

/-- `d = opcode[1]` (spec/30_encoding.md R65, R68). -/
def Record.withD (op : Byte) (r : Record) : Record := { r with d := some (op.extractLsb' 1 1) }

/-- `s = opcode[1]` (spec/30_encoding.md R66). -/
def Record.withS (op : Byte) (r : Record) : Record := { r with s := some (op.extractLsb' 1 1) }

/-- The fields of the mod/reg/r_m byte and the displacement. -/
def Record.withModRegRm (reg : BitVec 3) (o : RmField) (r : Record) : Record :=
  { r with mod := some o.mod, reg := some reg, rm := some o.rm, disp := o.disp }

/-- Format RM. -/
def Record.formatRm (op : Byte) (reg : BitVec 3) (o : RmField) (r : Record) : Record :=
  ((r.withD op).withW op).withModRegRm reg o

/-- Format RMI of 0x80..0x83. -/
def Record.formatRmi (op : Byte) (reg : BitVec 3) (o : RmField) (imm : Immediate) (r : Record) : Record :=
  { ((r.withS op).withW op).withModRegRm reg o with imm := some imm }

/-- Format RMI of 0xC6 and 0xC7, which has no `s`. -/
def Record.formatMovRmi (op : Byte) (o : RmField) (imm : Immediate) (r : Record) : Record :=
  { (r.withW op).withModRegRm 0b000 o with imm := some imm }

/-- Format AI. -/
def Record.formatAi (op : Byte) (imm : Immediate) (r : Record) : Record := { r.withW op with imm := some imm }

/-- Format RI: `w = opcode[3]` (spec/30_encoding.md R67). -/
def Record.formatRi (op : Byte) (reg : BitVec 3) (imm : Immediate) (r : Record) : Record :=
  { r with w := some (op.extractLsb' 3 1), reg := some reg, imm := some imm }

/-- Format AM. -/
def Record.formatAm (op : Byte) (a16 : Word) (r : Record) : Record :=
  { (r.withD op).withW op with a16 := some a16 }

/-- Format J8. -/
def Record.formatJ8 (r8 : Byte) (r : Record) : Record := { r with r8 := some r8.toInt }

/-! ### The record of an instruction -/

/-- The opcode byte. -/
def Instr.opcode (i : Instr) : Byte := (encode i).headD 0

/-- The record of an instruction decoded at `position` (R89). -/
def recordOf (position : Nat) (i : Instr) : Record :=
  let op := i.opcode
  let r : Record := { kind := .inst, start := position, len := i.length, form := i.form, op := some op }
  match i with
  | .movRm8R8 o q | .addRm8R8 o q | .subRm8R8 o q | .cmpRm8R8 o q => r.formatRm op q.index o.field
  | .movR8Rm8 q o | .addR8Rm8 q o | .subR8Rm8 q o | .cmpR8Rm8 q o => r.formatRm op q.index o.field
  | .movRm16R16 o q | .addRm16R16 o q | .subRm16R16 o q | .cmpRm16R16 o q => r.formatRm op q.index o.field
  | .movR16Rm16 q o | .addR16Rm16 q o | .subR16Rm16 q o | .cmpR16Rm16 q o => r.formatRm op q.index o.field
  | .movRm8Imm8 o v => r.formatMovRmi op o.field (.byte v)
  | .movRm16Imm16 o v => r.formatMovRmi op o.field (.word v)
  | .addRm8Imm8 o v | .addRm8Imm8Alias o v => r.formatRmi op 0b000 o.field (.byte v)
  | .subRm8Imm8 o v | .subRm8Imm8Alias o v => r.formatRmi op 0b101 o.field (.byte v)
  | .cmpRm8Imm8 o v | .cmpRm8Imm8Alias o v => r.formatRmi op 0b111 o.field (.byte v)
  | .addRm16Imm16 o v => r.formatRmi op 0b000 o.field (.word v)
  | .subRm16Imm16 o v => r.formatRmi op 0b101 o.field (.word v)
  | .cmpRm16Imm16 o v => r.formatRmi op 0b111 o.field (.word v)
  | .addRm16SImm8 o v => r.formatRmi op 0b000 o.field (.word (sextImm v))
  | .subRm16SImm8 o v => r.formatRmi op 0b101 o.field (.word (sextImm v))
  | .cmpRm16SImm8 o v => r.formatRmi op 0b111 o.field (.word (sextImm v))
  | .movR8Imm8 q v => r.formatRi op q.index (.byte v)
  | .movR16Imm16 q v => r.formatRi op q.index (.word v)
  | .movAlMem a16 | .movAxMem a16 | .movMemAl a16 | .movMemAx a16 => r.formatAm op a16
  | .addAlImm8 v | .subAlImm8 v | .cmpAlImm8 v => r.formatAi op (.byte v)
  | .addAxImm16 v | .subAxImm16 v | .cmpAxImm16 v => r.formatAi op (.word v)
  | .jo r8 | .jno r8 | .jb r8 | .jnb r8 | .jz r8 | .jnz r8 | .jbe r8 | .ja r8 => r.formatJ8 r8
  | .js r8 | .jns r8 | .jp r8 | .jnp r8 | .jl r8 | .jnl r8 | .jle r8 | .jg r8 => r.formatJ8 r8
  | .loopnz r8 | .loopz r8 | .loop r8 | .jcxz r8 => r.formatJ8 r8
  | .db reason bytes => { kind := .fallback, start := position, len := bytes.length, reason := some reason }

/-- The record of `decode(buffer, position)`, of kind EMPTY at or beyond the end (R83, R89). -/
def decodeRecord (buffer : List Byte) (position : Nat) : Record :=
  match decodeAt buffer position with
  | none => { kind := .empty, start := position, len := 0 }
  | some i => recordOf position i

end Sys2Proof
end

