-- ==== Sys2Proof/Machine/Operands.lean ====
section
/-! DEFINITION. The effective-address unit (spec/20_memory.md R48 to R54) and the access to every operand form
(spec/41_mov.md R105, R107). -/

namespace Sys2Proof.Machine

/-- The sum of the registers an `r_m` selects, each zero-extended, exact (R49, R52). -/
def baseSum (b : Base) (r : Regs) : Int :=
  match b with
  | .bxSi => r.bx.toNat + r.si.toNat
  | .bxDi => r.bx.toNat + r.di.toNat
  | .bpSi => r.bp.toNat + r.si.toNat
  | .bpDi => r.bp.toNat + r.di.toNat
  | .si => r.si.toNat
  | .di => r.di.toNat
  | .bp => r.bp.toNat
  | .bx => r.bx.toNat

/-- The exact sum of R52: base and signed displacement (R50), or the unsigned direct address (R51). -/
def exactEa (m : MemOp) (r : Regs) : Int :=
  match m with
  | .noDisp b | .disp8 b _ | .disp16 b _ => baseSum b r + m.disp
  | .direct _ => m.disp

/-- The effective address: `trunc_32` of the exact sum (R48, R52). -/
def effectiveAddress (m : MemOp) (s : State) : BitVec 32 := BitVec.ofInt 32 (exactEa m s.regs)

/-- The effective address read as an unsigned number, as the range check reads it (R53). -/
def eaNat (m : MemOp) (s : State) : Nat := (effectiveAddress m s).toNat

/-- One column of `CLK_EA` at an `r_m` (R210). -/
def eaColumnAt (c : EaColumn) : Base → Nat
  | .bxSi => c.rm000 | .bxDi => c.rm001 | .bpSi => c.rm010 | .bpDi => c.rm011
  | .si => c.rm100 | .di => c.rm101 | .bp => c.rm110 | .bx => c.rm111

/-- `CLK_EA(mod, r_m)` (R54, R210); the direct address is `mod = 00`, `r_m = 110`. -/
def eaCost (m : MemOp) (s : State) : Nat :=
  match m with
  | .noDisp b => eaColumnAt s.params.eaClocks.mod00 b
  | .direct _ => s.params.eaClocks.mod00.rm110
  | .disp8 b _ => eaColumnAt s.params.eaClocks.mod01 b
  | .disp16 b _ => eaColumnAt s.params.eaClocks.mod10 b

/-! ### The r/m operand (R105) -/

def readRm8 (o : RM8) (s : State) : Except Fault Byte :=
  match o with
  | .reg r => .ok (s.regs.get8 r)
  | .mem m => memRead8 (eaNat m s) s

def readRm16 (o : RM16) (s : State) : Except Fault Word :=
  match o with
  | .reg r => .ok (s.regs.get16 r)
  | .mem m => memRead16 (eaNat m s) s

def writeReg8 (r : Reg8) (v : Byte) (s : State) : State := { s with regs := s.regs.set8 r v }

def writeReg16 (r : Reg16) (v : Word) (s : State) : State := { s with regs := s.regs.set16 r v }

def writeRm8 (o : RM8) (v : Byte) (s : State) : Except Fault State :=
  match o with
  | .reg r => .ok (writeReg8 r v s)
  | .mem m => memWrite8 (eaNat m s) v s

def writeRm16 (o : RM16) (v : Word) (s : State) : Except Fault State :=
  match o with
  | .reg r => .ok (writeReg16 r v s)
  | .mem m => memWrite16 (eaNat m s) v s

/-! ### The charge of an instruction with an r/m operand (R107) -/

/-- The base cost of the register or the memory form, and for memory the EA cost; a byte access has no
odd-address cost. -/
def rmCost8 (regBase memBase : Nat) (o : RM8) (s : State) : Nat :=
  match o with
  | .reg _ => regBase
  | .mem m => memBase + eaCost m s

/-- As `rmCost8`, with the odd-address cost of the form's word transfers. -/
def rmCost16 (regBase memBase transfers : Nat) (o : RM16) (s : State) : Nat :=
  match o with
  | .reg _ => regBase
  | .mem m => memBase + eaCost m s + oddCost (eaNat m s) transfers s

end Sys2Proof.Machine
end

