-- ==== Sys2Proof/Machine/Alu.lean ====
section
/-! DEFINITION. The ALU (spec/42_arith.md R121) and the generic rules of ADD, SUB and CMP: ArithRM, ArithAI and
ArithRMI (before R126), at each width, with the charges of R126. -/

namespace Sys2Proof.Machine

/-- The three operations. -/
inductive AluOp
  | add
  | sub
  | cmp
deriving DecidableEq, Repr

/-- Destination + source, or destination − source, modulo `2^n` (R121). -/
def aluResult {n : Nat} (op : AluOp) (a b : BitVec n) : BitVec n :=
  match op with
  | .add => a + b
  | .sub => a - b
  | .cmp => a - b

/-- CMP stores nothing (R123). -/
def aluStores : AluOp → Bool
  | .add => true
  | .sub => true
  | .cmp => false

/-- The base costs of an operation by form (R126), and the word transfers of its memory destination. -/
structure AluCosts where
  rr : Nat
  rm : Nat
  mr : Nat
  ri : Nat
  mi : Nat
  ai : Nat
  transfers : Nat
deriving DecidableEq, Repr

def aluCosts (op : AluOp) (s : State) : AluCosts :=
  let c := s.params.clk
  let alu : AluCosts :=
    { rr := c.aluRr, rm := c.aluRm, mr := c.aluMr, ri := c.aluRi, mi := c.aluMi, ai := c.aluAi, transfers := 2 }
  match op with
  | .add => alu
  | .sub => alu
  | .cmp =>
    { rr := c.cmpRr, rm := c.cmpRm, mr := c.cmpMr, ri := c.cmpRi, mi := c.cmpMi, ai := c.cmpAi, transfers := 1 }

/-! ### Storing the result: nothing for CMP (R123) -/

def storeRm8 (op : AluOp) (o : RM8) (res : Byte) (s : State) : Except Fault State :=
  if aluStores op then writeRm8 o res s else .ok s

def storeRm16 (op : AluOp) (o : RM16) (res : Word) (s : State) : Except Fault State :=
  if aluStores op then writeRm16 o res s else .ok s

def storeReg8 (op : AluOp) (r : Reg8) (res : Byte) (s : State) : State :=
  if aluStores op then writeReg8 r res s else s

def storeReg16 (op : AluOp) (r : Reg16) (res : Word) (s : State) : State :=
  if aluStores op then writeReg16 r res s else s

/-! ### ArithRM -/

/-- `d = 0`, `w = 0`. -/
def arithRm8R8 (op : AluOp) (dst : RM8) (src : Reg8) (s : State) : Except Fault State := do
  let a ← readRm8 dst s
  let res := aluResult op a (s.regs.get8 src)
  let t ← storeRm8 op dst res s
  return charge (rmCost8 (aluCosts op s).rr (aluCosts op s).mr dst s) (setFlags res t)

/-- `d = 0`, `w = 1`. -/
def arithRm16R16 (op : AluOp) (dst : RM16) (src : Reg16) (s : State) : Except Fault State := do
  let a ← readRm16 dst s
  let res := aluResult op a (s.regs.get16 src)
  let t ← storeRm16 op dst res s
  return charge (rmCost16 (aluCosts op s).rr (aluCosts op s).mr (aluCosts op s).transfers dst s) (setFlags res t)

/-- `d = 1`, `w = 0`. -/
def arithR8Rm8 (op : AluOp) (dst : Reg8) (src : RM8) (s : State) : Except Fault State := do
  let b ← readRm8 src s
  let res := aluResult op (s.regs.get8 dst) b
  return charge (rmCost8 (aluCosts op s).rr (aluCosts op s).rm src s) (setFlags res (storeReg8 op dst res s))

/-- `d = 1`, `w = 1`: one word transfer from memory. -/
def arithR16Rm16 (op : AluOp) (dst : Reg16) (src : RM16) (s : State) : Except Fault State := do
  let b ← readRm16 src s
  let res := aluResult op (s.regs.get16 dst) b
  return charge (rmCost16 (aluCosts op s).rr (aluCosts op s).rm 1 src s)
    (setFlags res (storeReg16 op dst res s))

/-! ### ArithAI -/

def arithAlImm8 (op : AluOp) (imm : Byte) (s : State) : Except Fault State :=
  let res := aluResult op (s.regs.get8 .al) imm
  .ok (charge (aluCosts op s).ai (setFlags res (storeReg8 op .al res s)))

def arithAxImm16 (op : AluOp) (imm : Word) (s : State) : Except Fault State :=
  let res := aluResult op (s.regs.get16 .ax) imm
  .ok (charge (aluCosts op s).ai (setFlags res (storeReg16 op .ax res s)))

/-! ### ArithRMI -/

def arithRm8Imm8 (op : AluOp) (dst : RM8) (imm : Byte) (s : State) : Except Fault State := do
  let a ← readRm8 dst s
  let res := aluResult op a imm
  let t ← storeRm8 op dst res s
  return charge (rmCost8 (aluCosts op s).ri (aluCosts op s).mi dst s) (setFlags res t)

/-- `imm` is the operand-width value, after the sign extension of 0x83. -/
def arithRm16Imm16 (op : AluOp) (dst : RM16) (imm : Word) (s : State) : Except Fault State := do
  let a ← readRm16 dst s
  let res := aluResult op a imm
  let t ← storeRm16 op dst res s
  return charge (rmCost16 (aluCosts op s).ri (aluCosts op s).mi (aluCosts op s).transfers dst s) (setFlags res t)

end Sys2Proof.Machine
end

