-- ==== Sys2Proof/Machine/Add.lean ====
section
/-! DEFINITION. The meanings of ADD (spec/42_arith.md R127 to R136). -/

namespace Sys2Proof.Machine

/-- `add r/m8, r8` (R127). -/
def execAddRm8R8 (dst : RM8) (src : Reg8) (s : State) : Outcome :=
  perform (.addRm8R8 dst src) (arithRm8R8 .add dst src) s

/-- `add r/m16, r16` (R128). -/
def execAddRm16R16 (dst : RM16) (src : Reg16) (s : State) : Outcome :=
  perform (.addRm16R16 dst src) (arithRm16R16 .add dst src) s

/-- `add r8, r/m8` (R129). -/
def execAddR8Rm8 (dst : Reg8) (src : RM8) (s : State) : Outcome :=
  perform (.addR8Rm8 dst src) (arithR8Rm8 .add dst src) s

/-- `add r16, r/m16` (R130). -/
def execAddR16Rm16 (dst : Reg16) (src : RM16) (s : State) : Outcome :=
  perform (.addR16Rm16 dst src) (arithR16Rm16 .add dst src) s

/-- `add al, imm8` (R131). -/
def execAddAlImm8 (imm : Byte) (s : State) : Outcome :=
  perform (.addAlImm8 imm) (arithAlImm8 .add imm) s

/-- `add ax, imm16` (R132). -/
def execAddAxImm16 (imm : Word) (s : State) : Outcome :=
  perform (.addAxImm16 imm) (arithAxImm16 .add imm) s

/-- `add r/m8, imm8` (R133). -/
def execAddRm8Imm8 (dst : RM8) (imm : Byte) (s : State) : Outcome :=
  perform (.addRm8Imm8 dst imm) (arithRm8Imm8 .add dst imm) s

/-- `add r/m16, imm16` (R134). -/
def execAddRm16Imm16 (dst : RM16) (imm : Word) (s : State) : Outcome :=
  perform (.addRm16Imm16 dst imm) (arithRm16Imm16 .add dst imm) s

/-- `add r/m8, imm8 (0x82)` (R135). -/
def execAddRm8Imm8Alias (dst : RM8) (imm : Byte) (s : State) : Outcome :=
  perform (.addRm8Imm8Alias dst imm) (arithRm8Imm8 .add dst imm) s

/-- `add r/m16, sext imm8` (R136). -/
def execAddRm16SImm8 (dst : RM16) (imm : Byte) (s : State) : Outcome :=
  perform (.addRm16SImm8 dst imm) (arithRm16Imm16 .add dst (sextImm imm)) s

end Sys2Proof.Machine
end

