-- ==== Sys2Proof/Machine/Cmp.lean ====
section
/-! DEFINITION. The meanings of CMP (spec/42_arith.md R147 to R156). -/

namespace Sys2Proof.Machine

/-- `cmp r/m8, r8` (R147). -/
def execCmpRm8R8 (dst : RM8) (src : Reg8) (s : State) : Outcome :=
  perform (.cmpRm8R8 dst src) (arithRm8R8 .cmp dst src) s

/-- `cmp r/m16, r16` (R148). -/
def execCmpRm16R16 (dst : RM16) (src : Reg16) (s : State) : Outcome :=
  perform (.cmpRm16R16 dst src) (arithRm16R16 .cmp dst src) s

/-- `cmp r8, r/m8` (R149). -/
def execCmpR8Rm8 (dst : Reg8) (src : RM8) (s : State) : Outcome :=
  perform (.cmpR8Rm8 dst src) (arithR8Rm8 .cmp dst src) s

/-- `cmp r16, r/m16` (R150). -/
def execCmpR16Rm16 (dst : Reg16) (src : RM16) (s : State) : Outcome :=
  perform (.cmpR16Rm16 dst src) (arithR16Rm16 .cmp dst src) s

/-- `cmp al, imm8` (R151). -/
def execCmpAlImm8 (imm : Byte) (s : State) : Outcome :=
  perform (.cmpAlImm8 imm) (arithAlImm8 .cmp imm) s

/-- `cmp ax, imm16` (R152). -/
def execCmpAxImm16 (imm : Word) (s : State) : Outcome :=
  perform (.cmpAxImm16 imm) (arithAxImm16 .cmp imm) s

/-- `cmp r/m8, imm8` (R153). -/
def execCmpRm8Imm8 (dst : RM8) (imm : Byte) (s : State) : Outcome :=
  perform (.cmpRm8Imm8 dst imm) (arithRm8Imm8 .cmp dst imm) s

/-- `cmp r/m16, imm16` (R154). -/
def execCmpRm16Imm16 (dst : RM16) (imm : Word) (s : State) : Outcome :=
  perform (.cmpRm16Imm16 dst imm) (arithRm16Imm16 .cmp dst imm) s

/-- `cmp r/m8, imm8 (0x82)` (R155). -/
def execCmpRm8Imm8Alias (dst : RM8) (imm : Byte) (s : State) : Outcome :=
  perform (.cmpRm8Imm8Alias dst imm) (arithRm8Imm8 .cmp dst imm) s

/-- `cmp r/m16, sext imm8` (R156). -/
def execCmpRm16SImm8 (dst : RM16) (imm : Byte) (s : State) : Outcome :=
  perform (.cmpRm16SImm8 dst imm) (arithRm16Imm16 .cmp dst (sextImm imm)) s

end Sys2Proof.Machine
end

