-- ==== Sys2Proof/Machine/Fallback.lean ====
section
/-! DEFINITION. The meaning of the raw-bytes fallback (spec/40_decoder.md R90; spec/43_control.md R159). -/

namespace Sys2Proof.Machine

/-- The diagnostic no-op of the fallback's reason, `ip` moved past its bytes (spec/60_exceptions.md R186, R187). -/
def execDb (reason : FallbackReason) (bytes : List Byte) (s : State) : Outcome :=
  .next (diagnosticStep (fallbackDiag reason) (Instr.db reason bytes).length s)

end Sys2Proof.Machine
end

