-- ==== Sys2Proof/Machine/Jump.lean ====
section
/-! DEFINITION. The meanings of the conditional short jumps (spec/43_control.md R163 to R179). -/

namespace Sys2Proof.Machine

/-- `ip <- trunc_16(ip + signed_8(r8))`, from the end of the jump (R161). -/
def jumpBy (r8 : Byte) (s : State) : State := { s with ip := s.ip + r8.signExtend 16 }

/-- A jump taken or not, with its two costs (R163, R209). -/
def jumpIf (cond : Bool) (taken notTaken : Nat) (r8 : Byte) (s : State) : State :=
  if cond then charge taken (jumpBy r8 s) else charge notTaken s

/-- `Jcc(cond, rec)` (R163). -/
def jcc (cond : Bool) (r8 : Byte) (s : State) : Except Fault State :=
  .ok (jumpIf cond s.params.clk.jccTaken s.params.clk.jccNotTaken r8 s)

/-- A jump whose condition needs a flag the machine does not have: the no-op `DIAG_COND_UNMODELED` under both
profiles (R163). -/
def unmodelledJump (i : Instr) (s : State) : Outcome := .next (diagnosticStep .condUnmodeled i.length s)

/-- `jo rel8`: `OF = 1`, not modelled by the machine (R164). -/
def execJo (r8 : Byte) (s : State) : Outcome := unmodelledJump (.jo r8) s

/-- `jno rel8`: `OF = 0`, not modelled by the machine (R165). -/
def execJno (r8 : Byte) (s : State) : Outcome := unmodelledJump (.jno r8) s

/-- `jb rel8`: `CF = 1`, not modelled by the machine (R166). -/
def execJb (r8 : Byte) (s : State) : Outcome := unmodelledJump (.jb r8) s

/-- `jnb rel8`: `CF = 0`, not modelled by the machine (R167). -/
def execJnb (r8 : Byte) (s : State) : Outcome := unmodelledJump (.jnb r8) s

/-- `jz rel8`: `ZF = 1` (R168). -/
def execJz (r8 : Byte) (s : State) : Outcome :=
  perform (.jz r8) (fun t => jcc t.zf r8 t) s

/-- `jnz rel8`: `ZF = 0` (R169). -/
def execJnz (r8 : Byte) (s : State) : Outcome :=
  perform (.jnz r8) (fun t => jcc (!t.zf) r8 t) s

/-- `jbe rel8`: `CF = 1 or ZF = 1`, not modelled by the machine (R170). -/
def execJbe (r8 : Byte) (s : State) : Outcome := unmodelledJump (.jbe r8) s

/-- `ja rel8`: `CF = 0 and ZF = 0`, not modelled by the machine (R171). -/
def execJa (r8 : Byte) (s : State) : Outcome := unmodelledJump (.ja r8) s

/-- `js rel8`: `SF = 1` (R172). -/
def execJs (r8 : Byte) (s : State) : Outcome :=
  perform (.js r8) (fun t => jcc t.sf r8 t) s

/-- `jns rel8`: `SF = 0` (R173). -/
def execJns (r8 : Byte) (s : State) : Outcome :=
  perform (.jns r8) (fun t => jcc (!t.sf) r8 t) s

/-- `jp rel8`: `PF = 1`, not modelled by the machine (R174). -/
def execJp (r8 : Byte) (s : State) : Outcome := unmodelledJump (.jp r8) s

/-- `jnp rel8`: `PF = 0`, not modelled by the machine (R175). -/
def execJnp (r8 : Byte) (s : State) : Outcome := unmodelledJump (.jnp r8) s

/-- `jl rel8`: `SF ≠ OF`, not modelled by the machine (R176). -/
def execJl (r8 : Byte) (s : State) : Outcome := unmodelledJump (.jl r8) s

/-- `jnl rel8`: `SF = OF`, not modelled by the machine (R177). -/
def execJnl (r8 : Byte) (s : State) : Outcome := unmodelledJump (.jnl r8) s

/-- `jle rel8`: `ZF = 1 or SF ≠ OF`, not modelled by the machine (R178). -/
def execJle (r8 : Byte) (s : State) : Outcome := unmodelledJump (.jle r8) s

/-- `jg rel8`: `ZF = 0 and SF = OF`, not modelled by the machine (R179). -/
def execJg (r8 : Byte) (s : State) : Outcome := unmodelledJump (.jg r8) s

end Sys2Proof.Machine
end

