-- ==== Sys2Proof/Machine/Loop.lean ====
section
/-! DEFINITION. The meanings of the LOOP family (spec/43_control.md R180 to R184). -/

namespace Sys2Proof.Machine

/-- `cx <- trunc_16(cx - 1)`, no flag touched (R180). -/
def decrementCx (s : State) : State := { s with regs := { s.regs with cx := s.regs.cx - 1#16 } }

/-- `loopnz rel8` (R181). -/
def execLoopnz (r8 : Byte) (s : State) : Outcome :=
  perform (.loopnz r8)
    (fun t =>
      let u := decrementCx t
      .ok (jumpIf (u.regs.cx != 0#16 && !u.zf) u.params.clk.loopnzTaken u.params.clk.loopnzNotTaken r8 u)) s

/-- `loopz rel8` (R182). -/
def execLoopz (r8 : Byte) (s : State) : Outcome :=
  perform (.loopz r8)
    (fun t =>
      let u := decrementCx t
      .ok (jumpIf (u.regs.cx != 0#16 && u.zf) u.params.clk.loopzTaken u.params.clk.loopzNotTaken r8 u)) s

/-- `loop rel8` (R183). -/
def execLoop (r8 : Byte) (s : State) : Outcome :=
  perform (.loop r8)
    (fun t =>
      let u := decrementCx t
      .ok (jumpIf (u.regs.cx != 0#16) u.params.clk.loopTaken u.params.clk.loopNotTaken r8 u)) s

/-- `jcxz rel8`: `cx` is read and not written (R184). -/
def execJcxz (r8 : Byte) (s : State) : Outcome :=
  perform (.jcxz r8)
    (fun t => .ok (jumpIf (t.regs.cx == 0#16) t.params.clk.jcxzTaken t.params.clk.jcxzNotTaken r8 t)) s

end Sys2Proof.Machine
end

