-- ==== Sys2Proof/Machine/Mov.lean ====
section
/-! DEFINITION. The meanings of MOV (spec/41_mov.md R109 to R120). No form touches a flag (R108). -/

namespace Sys2Proof.Machine

/-! ### The instruction rules -/

/-- `WriteRM(rec, v)` and the charge of a byte form. -/
def moveToRm8 (dst : RM8) (v : Byte) (regBase memBase : Nat) (s : State) : Except Fault State := do
  let t ← writeRm8 dst v s
  return charge (rmCost8 regBase memBase dst s) t

/-- `WriteRM(rec, v)` and the charge of a word form: one word transfer to memory. -/
def moveToRm16 (dst : RM16) (v : Word) (regBase memBase : Nat) (s : State) : Except Fault State := do
  let t ← writeRm16 dst v s
  return charge (rmCost16 regBase memBase 1 dst s) t

def moveFromRm8 (dst : Reg8) (src : RM8) (s : State) : Except Fault State := do
  let v ← readRm8 src s
  return charge (rmCost8 s.params.clk.movRr s.params.clk.movRm src s) (writeReg8 dst v s)

def moveFromRm16 (dst : Reg16) (src : RM16) (s : State) : Except Fault State := do
  let v ← readRm16 src s
  return charge (rmCost16 s.params.clk.movRr s.params.clk.movRm 1 src s) (writeReg16 dst v s)

/-- R117. -/
def loadAl (a16 : Word) (s : State) : Except Fault State := do
  let v ← memRead8 a16.toNat s
  return charge s.params.clk.movAm (writeReg8 .al v s)

/-- R118. -/
def loadAx (a16 : Word) (s : State) : Except Fault State := do
  let v ← memRead16 a16.toNat s
  return charge (s.params.clk.movAm + oddCost a16.toNat 1 s) (writeReg16 .ax v s)

/-- R119. -/
def storeAl (a16 : Word) (s : State) : Except Fault State := do
  let t ← memWrite8 a16.toNat (s.regs.get8 .al) s
  return charge s.params.clk.movAm t

/-- R120. -/
def storeAx (a16 : Word) (s : State) : Except Fault State := do
  let t ← memWrite16 a16.toNat (s.regs.get16 .ax) s
  return charge (s.params.clk.movAm + oddCost a16.toNat 1 s) t

/-! ### The meanings -/

/-- `mov r/m8, r8` (R109). -/
def execMovRm8R8 (dst : RM8) (src : Reg8) (s : State) : Outcome :=
  perform (.movRm8R8 dst src)
    (fun t => moveToRm8 dst (t.regs.get8 src) t.params.clk.movRr t.params.clk.movMr t) s

/-- `mov r/m16, r16` (R110). -/
def execMovRm16R16 (dst : RM16) (src : Reg16) (s : State) : Outcome :=
  perform (.movRm16R16 dst src)
    (fun t => moveToRm16 dst (t.regs.get16 src) t.params.clk.movRr t.params.clk.movMr t) s

/-- `mov r8, r/m8` (R111). -/
def execMovR8Rm8 (dst : Reg8) (src : RM8) (s : State) : Outcome :=
  perform (.movR8Rm8 dst src) (moveFromRm8 dst src) s

/-- `mov r16, r/m16` (R112). -/
def execMovR16Rm16 (dst : Reg16) (src : RM16) (s : State) : Outcome :=
  perform (.movR16Rm16 dst src) (moveFromRm16 dst src) s

/-- `mov r/m8, imm8` (R113). -/
def execMovRm8Imm8 (dst : RM8) (imm : Byte) (s : State) : Outcome :=
  perform (.movRm8Imm8 dst imm) (fun t => moveToRm8 dst imm t.params.clk.movRi t.params.clk.movMi t) s

/-- `mov r/m16, imm16` (R114). -/
def execMovRm16Imm16 (dst : RM16) (imm : Word) (s : State) : Outcome :=
  perform (.movRm16Imm16 dst imm) (fun t => moveToRm16 dst imm t.params.clk.movRi t.params.clk.movMi t) s

/-- `mov r8, imm8` (R115). -/
def execMovR8Imm8 (dst : Reg8) (imm : Byte) (s : State) : Outcome :=
  perform (.movR8Imm8 dst imm) (fun t => .ok (charge t.params.clk.movRi (writeReg8 dst imm t))) s

/-- `mov r16, imm16` (R116). -/
def execMovR16Imm16 (dst : Reg16) (imm : Word) (s : State) : Outcome :=
  perform (.movR16Imm16 dst imm) (fun t => .ok (charge t.params.clk.movRi (writeReg16 dst imm t))) s

/-- `mov al, [a16]` (R117). -/
def execMovAlMem (a16 : Word) (s : State) : Outcome :=
  perform (.movAlMem a16) (loadAl a16) s

/-- `mov ax, [a16]` (R118). -/
def execMovAxMem (a16 : Word) (s : State) : Outcome :=
  perform (.movAxMem a16) (loadAx a16) s

/-- `mov [a16], al` (R119). -/
def execMovMemAl (a16 : Word) (s : State) : Outcome :=
  perform (.movMemAl a16) (storeAl a16) s

/-- `mov [a16], ax` (R120). -/
def execMovMemAx (a16 : Word) (s : State) : Outcome :=
  perform (.movMemAx a16) (storeAx a16) s

end Sys2Proof.Machine
end

