-- ==== Sys2Proof/Machine/Sub.lean ====
section
/-! DEFINITION. The meanings of SUB (spec/42_arith.md R137 to R146). -/

namespace Sys2Proof.Machine

/-- `sub r/m8, r8` (R137). -/
def execSubRm8R8 (dst : RM8) (src : Reg8) (s : State) : Outcome :=
  perform (.subRm8R8 dst src) (arithRm8R8 .sub dst src) s

/-- `sub r/m16, r16` (R138). -/
def execSubRm16R16 (dst : RM16) (src : Reg16) (s : State) : Outcome :=
  perform (.subRm16R16 dst src) (arithRm16R16 .sub dst src) s

/-- `sub r8, r/m8` (R139). -/
def execSubR8Rm8 (dst : Reg8) (src : RM8) (s : State) : Outcome :=
  perform (.subR8Rm8 dst src) (arithR8Rm8 .sub dst src) s

/-- `sub r16, r/m16` (R140). -/
def execSubR16Rm16 (dst : Reg16) (src : RM16) (s : State) : Outcome :=
  perform (.subR16Rm16 dst src) (arithR16Rm16 .sub dst src) s

/-- `sub al, imm8` (R141). -/
def execSubAlImm8 (imm : Byte) (s : State) : Outcome :=
  perform (.subAlImm8 imm) (arithAlImm8 .sub imm) s

/-- `sub ax, imm16` (R142). -/
def execSubAxImm16 (imm : Word) (s : State) : Outcome :=
  perform (.subAxImm16 imm) (arithAxImm16 .sub imm) s

/-- `sub r/m8, imm8` (R143). -/
def execSubRm8Imm8 (dst : RM8) (imm : Byte) (s : State) : Outcome :=
  perform (.subRm8Imm8 dst imm) (arithRm8Imm8 .sub dst imm) s

/-- `sub r/m16, imm16` (R144). -/
def execSubRm16Imm16 (dst : RM16) (imm : Word) (s : State) : Outcome :=
  perform (.subRm16Imm16 dst imm) (arithRm16Imm16 .sub dst imm) s

/-- `sub r/m8, imm8 (0x82)` (R145). -/
def execSubRm8Imm8Alias (dst : RM8) (imm : Byte) (s : State) : Outcome :=
  perform (.subRm8Imm8Alias dst imm) (arithRm8Imm8 .sub dst imm) s

/-- `sub r/m16, sext imm8` (R146). -/
def execSubRm16SImm8 (dst : RM16) (imm : Byte) (s : State) : Outcome :=
  perform (.subRm16SImm8 dst imm) (arithRm16Imm16 .sub dst (sextImm imm)) s

end Sys2Proof.Machine
end

