-- ==== Sys2Proof/Machine/Dispatch.lean ====
section
/-! DEFINITION. One arm for each constructor of `Instr` (spec/30_encoding.md R61: every opcode has one handler). -/

namespace Sys2Proof.Machine

/-- The step that runs `i`, from the state at `i`'s first byte (assumption 3). -/
def exec (i : Instr) (s : State) : Host.Outcome State Fault Refusal :=
  match i with
  | .movRm8R8 x y => Sys2Proof.Machine.execMovRm8R8 x y s
  | .movRm16R16 x y => Sys2Proof.Machine.execMovRm16R16 x y s
  | .movR8Rm8 x y => Sys2Proof.Machine.execMovR8Rm8 x y s
  | .movR16Rm16 x y => Sys2Proof.Machine.execMovR16Rm16 x y s
  | .movRm8Imm8 x y => Sys2Proof.Machine.execMovRm8Imm8 x y s
  | .movRm16Imm16 x y => Sys2Proof.Machine.execMovRm16Imm16 x y s
  | .movR8Imm8 x y => Sys2Proof.Machine.execMovR8Imm8 x y s
  | .movR16Imm16 x y => Sys2Proof.Machine.execMovR16Imm16 x y s
  | .movAlMem x => Sys2Proof.Machine.execMovAlMem x s
  | .movAxMem x => Sys2Proof.Machine.execMovAxMem x s
  | .movMemAl x => Sys2Proof.Machine.execMovMemAl x s
  | .movMemAx x => Sys2Proof.Machine.execMovMemAx x s
  | .addRm8R8 x y => Sys2Proof.Machine.execAddRm8R8 x y s
  | .addRm16R16 x y => Sys2Proof.Machine.execAddRm16R16 x y s
  | .addR8Rm8 x y => Sys2Proof.Machine.execAddR8Rm8 x y s
  | .addR16Rm16 x y => Sys2Proof.Machine.execAddR16Rm16 x y s
  | .addAlImm8 x => Sys2Proof.Machine.execAddAlImm8 x s
  | .addAxImm16 x => Sys2Proof.Machine.execAddAxImm16 x s
  | .addRm8Imm8 x y => Sys2Proof.Machine.execAddRm8Imm8 x y s
  | .addRm16Imm16 x y => Sys2Proof.Machine.execAddRm16Imm16 x y s
  | .addRm8Imm8Alias x y => Sys2Proof.Machine.execAddRm8Imm8Alias x y s
  | .addRm16SImm8 x y => Sys2Proof.Machine.execAddRm16SImm8 x y s
  | .subRm8R8 x y => Sys2Proof.Machine.execSubRm8R8 x y s
  | .subRm16R16 x y => Sys2Proof.Machine.execSubRm16R16 x y s
  | .subR8Rm8 x y => Sys2Proof.Machine.execSubR8Rm8 x y s
  | .subR16Rm16 x y => Sys2Proof.Machine.execSubR16Rm16 x y s
  | .subAlImm8 x => Sys2Proof.Machine.execSubAlImm8 x s
  | .subAxImm16 x => Sys2Proof.Machine.execSubAxImm16 x s
  | .subRm8Imm8 x y => Sys2Proof.Machine.execSubRm8Imm8 x y s
  | .subRm16Imm16 x y => Sys2Proof.Machine.execSubRm16Imm16 x y s
  | .subRm8Imm8Alias x y => Sys2Proof.Machine.execSubRm8Imm8Alias x y s
  | .subRm16SImm8 x y => Sys2Proof.Machine.execSubRm16SImm8 x y s
  | .cmpRm8R8 x y => Sys2Proof.Machine.execCmpRm8R8 x y s
  | .cmpRm16R16 x y => Sys2Proof.Machine.execCmpRm16R16 x y s
  | .cmpR8Rm8 x y => Sys2Proof.Machine.execCmpR8Rm8 x y s
  | .cmpR16Rm16 x y => Sys2Proof.Machine.execCmpR16Rm16 x y s
  | .cmpAlImm8 x => Sys2Proof.Machine.execCmpAlImm8 x s
  | .cmpAxImm16 x => Sys2Proof.Machine.execCmpAxImm16 x s
  | .cmpRm8Imm8 x y => Sys2Proof.Machine.execCmpRm8Imm8 x y s
  | .cmpRm16Imm16 x y => Sys2Proof.Machine.execCmpRm16Imm16 x y s
  | .cmpRm8Imm8Alias x y => Sys2Proof.Machine.execCmpRm8Imm8Alias x y s
  | .cmpRm16SImm8 x y => Sys2Proof.Machine.execCmpRm16SImm8 x y s
  | .jo x => Sys2Proof.Machine.execJo x s
  | .jno x => Sys2Proof.Machine.execJno x s
  | .jb x => Sys2Proof.Machine.execJb x s
  | .jnb x => Sys2Proof.Machine.execJnb x s
  | .jz x => Sys2Proof.Machine.execJz x s
  | .jnz x => Sys2Proof.Machine.execJnz x s
  | .jbe x => Sys2Proof.Machine.execJbe x s
  | .ja x => Sys2Proof.Machine.execJa x s
  | .js x => Sys2Proof.Machine.execJs x s
  | .jns x => Sys2Proof.Machine.execJns x s
  | .jp x => Sys2Proof.Machine.execJp x s
  | .jnp x => Sys2Proof.Machine.execJnp x s
  | .jl x => Sys2Proof.Machine.execJl x s
  | .jnl x => Sys2Proof.Machine.execJnl x s
  | .jle x => Sys2Proof.Machine.execJle x s
  | .jg x => Sys2Proof.Machine.execJg x s
  | .loopnz x => Sys2Proof.Machine.execLoopnz x s
  | .loopz x => Sys2Proof.Machine.execLoopz x s
  | .loop x => Sys2Proof.Machine.execLoop x s
  | .jcxz x => Sys2Proof.Machine.execJcxz x s
  | .db x y => Sys2Proof.Machine.execDb x y s

end Sys2Proof.Machine
end

