-- ==== Sys2Proof/Machine/Sequencer.lean ====
section
/-! DEFINITION. The sequencer (spec/43_control.md R157) and the placing of an instruction where it fetches. -/

namespace Sys2Proof.Machine

/-- `execute(buffer, position, context)` (spec/41_mov.md R104). A record of kind EMPTY is the no-op
`DIAG_EMPTY` (spec/60_exceptions.md R186, R187; assumption 9); the sequencer never meets it. -/
def execute (buffer : List Byte) (position : Nat) (s : State) : Outcome :=
  match decodeAt buffer position with
  | none => .next (diagnosticStep .empty 0 s)
  | some i => exec i s

/-- `step()` (R157): HALTED and FAULTED are final; `ip >= CODE_LEN` halts and changes nothing else
(assumption 10); else the instruction of the image at `ip` runs (spec/20_memory.md R38). -/
def sequencerStep (s : State) : Outcome :=
  match s.runState with
  | .halted => .next s
  | .faulted => .next s
  | .running =>
    if s.ip.toNat ≥ s.codeLen then .next { s with runState := .halted }
    else execute s.image s.ip.toNat s

/-- `n` bytes of memory from `a` on. -/
def memoryBytes (m : Memory) : Nat → Nat → List Byte
  | _, 0 => []
  | a, n + 1 => m.read a :: memoryBytes m (a + 1) n

/-- Loads `bytes` at `ip`, in the image and in its copy in `mem` (spec/20_memory.md R45), as far as memory
reaches, and makes the machine run (assumption 5). An image that ends before `ip` is first filled up from `mem`. -/
def placeAtIp (bytes : List Byte) (s : State) : State :=
  let start := s.ip.toNat
  let placed := bytes.take (memSize - start)
  let before := s.image.take start ++ memoryBytes s.mem s.codeLen (start - s.codeLen)
  { s with
    image := before ++ placed ++ s.image.drop (start + placed.length)
    mem := s.mem.writeBytes start placed
    runState := .running }

end Sys2Proof.Machine
end

