-- ==== Sys2Proof/Machine/Step.lean ====
section
/-! DEFINITION. The machine's one step (spec/43_control.md R157) and the host's placing of a table word. -/

namespace Sys2Proof.Machine

/-- One step of the core (R157). It answers a next state from every state. -/
def step (s : State) : Host.Outcome State Fault Refusal := sequencerStep s

/-- `s` with the table word's instruction, in a buffer of six bytes, where the next step fetches (assumption 5). -/
def State.withFetchWord (s : State) (nbits w : Nat) : State := placeAtIp (tableBuffer nbits w) s

end Sys2Proof.Machine
end

