-- ==== Sys2Proof/Machine/Text.lean ====
section
/-! DEFINITION. The decoder's text rendering (spec/40_decoder.md R90, R94 to R103; spec/00_scope.md R13). -/

namespace Sys2Proof.Machine

/-! ### Numbers (R13) -/

def hexDigit (n : Nat) : Char := "0123456789abcdef".toList.getD n '0'

/-- The lowercase hexadecimal digits of `n` with no leading zeros, at most `fuel` of them. -/
def hexDigits : Nat → Nat → List Char
  | 0, _ => []
  | fuel + 1, n => if n < 16 then [hexDigit n] else hexDigits fuel (n / 16) ++ [hexDigit (n % 16)]

/-- Exactly `k` lowercase hexadecimal digits of `n`. -/
def fixedHexDigits : Nat → Nat → List Char
  | 0, _ => []
  | k + 1, n => fixedHexDigits k (n / 16) ++ [hexDigit (n % 16)]

/-- `hex(v)` of a number below 2^32: every number the decoder prints (R13). -/
def hex (n : Nat) : String := "0x" ++ String.ofList (hexDigits 8 n)

/-- `hex2(v)` (R13). -/
def hex2 (b : Byte) : String := "0x" ++ String.ofList (fixedHexDigits 2 b.toNat)

/-- `hex4(v)` (spec/70_reset_and_hazards.md R205). -/
def hex4 (v : Word) : String := "0x" ++ String.ofList (fixedHexDigits 4 v.toNat)

/-! ### Operands (R95 to R101) -/

def textReg16 : Reg16 → String
  | .ax => "ax" | .cx => "cx" | .dx => "dx" | .bx => "bx" | .sp => "sp" | .bp => "bp" | .si => "si" | .di => "di"

def textReg8 : Reg8 → String
  | .al => "al" | .cl => "cl" | .dl => "dl" | .bl => "bl" | .ah => "ah" | .ch => "ch" | .dh => "dh" | .bh => "bh"

/-- R49, R96. -/
def textBase : Base → String
  | .bxSi => "bx+si" | .bxDi => "bx+di" | .bpSi => "bp+si" | .bpDi => "bp+di"
  | .si => "si" | .di => "di" | .bp => "bp" | .bx => "bx"

/-- R97: the sign and the magnitude, a zero displacement printed. -/
def textDisp (d : Int) : String := (if d < 0 then "-" else "+") ++ hex d.natAbs

/-- R98. -/
def textAddress (a16 : Word) : String := "[" ++ hex a16.toNat ++ "]"

/-- R96. -/
def textMem (m : MemOp) : String :=
  match m with
  | .noDisp b => "[" ++ textBase b ++ "]"
  | .direct a16 => textAddress a16
  | .disp8 b _ | .disp16 b _ => "[" ++ textBase b ++ textDisp m.disp ++ "]"

def textRm8 : RM8 → String
  | .reg r => textReg8 r
  | .mem m => textMem m

def textRm16 : RM16 → String
  | .reg r => textReg16 r
  | .mem m => textMem m

/-- R99: the size keyword of a memory operand beside an immediate. -/
def textSizedRm8 : RM8 → String
  | .reg r => textReg8 r
  | .mem m => "byte " ++ textMem m

def textSizedRm16 : RM16 → String
  | .reg r => textReg16 r
  | .mem m => "word " ++ textMem m

/-- R101: the absolute target, modulo 2^16. -/
def textTarget (position : Nat) (r8 : Byte) : String :=
  hex (BitVec.ofNat 16 position + 2 + r8.signExtend 16).toNat

/-- R94: mnemonic, one space, the operands, destination first. -/
def textTwo (mnemonic dst src : String) : String := mnemonic ++ " " ++ dst ++ "," ++ src

/-- R94, R101: a short jump. -/
def textJump (mnemonic : String) (position : Nat) (r8 : Byte) : String :=
  mnemonic ++ " " ++ textTarget position r8

/-- R90, R102. -/
def textFallback (bytes : List Byte) : String := "db " ++ String.intercalate "," (bytes.map hex2)

/-- R100: an immediate at the operand's width. -/
def textImm8 (imm : Byte) : String := hex imm.toNat

def textImm16 (imm : Word) : String := hex imm.toNat

/-- The text of an instruction decoded at `position`. -/
def textOf (position : Nat) : Instr → String
  | .movRm8R8 o r => textTwo "mov" (textRm8 o) (textReg8 r)
  | .movRm16R16 o r => textTwo "mov" (textRm16 o) (textReg16 r)
  | .movR8Rm8 r o => textTwo "mov" (textReg8 r) (textRm8 o)
  | .movR16Rm16 r o => textTwo "mov" (textReg16 r) (textRm16 o)
  | .movRm8Imm8 o imm => textTwo "mov" (textSizedRm8 o) (textImm8 imm)
  | .movRm16Imm16 o imm => textTwo "mov" (textSizedRm16 o) (textImm16 imm)
  | .movR8Imm8 r imm => textTwo "mov" (textReg8 r) (textImm8 imm)
  | .movR16Imm16 r imm => textTwo "mov" (textReg16 r) (textImm16 imm)
  | .movAlMem a16 => textTwo "mov" "al" (textAddress a16)
  | .movAxMem a16 => textTwo "mov" "ax" (textAddress a16)
  | .movMemAl a16 => textTwo "mov" (textAddress a16) "al"
  | .movMemAx a16 => textTwo "mov" (textAddress a16) "ax"
  | .addRm8R8 o r => textTwo "add" (textRm8 o) (textReg8 r)
  | .addRm16R16 o r => textTwo "add" (textRm16 o) (textReg16 r)
  | .addR8Rm8 r o => textTwo "add" (textReg8 r) (textRm8 o)
  | .addR16Rm16 r o => textTwo "add" (textReg16 r) (textRm16 o)
  | .addRm8Imm8 o imm => textTwo "add" (textSizedRm8 o) (textImm8 imm)
  | .addRm16Imm16 o imm => textTwo "add" (textSizedRm16 o) (textImm16 imm)
  | .addAlImm8 imm => textTwo "add" "al" (textImm8 imm)
  | .addAxImm16 imm => textTwo "add" "ax" (textImm16 imm)
  | .addRm8Imm8Alias o imm => textTwo "add" (textSizedRm8 o) (textImm8 imm)
  | .addRm16SImm8 o imm => textTwo "add" (textSizedRm16 o) (textImm16 (sextImm imm))
  | .subRm8R8 o r => textTwo "sub" (textRm8 o) (textReg8 r)
  | .subRm16R16 o r => textTwo "sub" (textRm16 o) (textReg16 r)
  | .subR8Rm8 r o => textTwo "sub" (textReg8 r) (textRm8 o)
  | .subR16Rm16 r o => textTwo "sub" (textReg16 r) (textRm16 o)
  | .subRm8Imm8 o imm => textTwo "sub" (textSizedRm8 o) (textImm8 imm)
  | .subRm16Imm16 o imm => textTwo "sub" (textSizedRm16 o) (textImm16 imm)
  | .subAlImm8 imm => textTwo "sub" "al" (textImm8 imm)
  | .subAxImm16 imm => textTwo "sub" "ax" (textImm16 imm)
  | .subRm8Imm8Alias o imm => textTwo "sub" (textSizedRm8 o) (textImm8 imm)
  | .subRm16SImm8 o imm => textTwo "sub" (textSizedRm16 o) (textImm16 (sextImm imm))
  | .cmpRm8R8 o r => textTwo "cmp" (textRm8 o) (textReg8 r)
  | .cmpRm16R16 o r => textTwo "cmp" (textRm16 o) (textReg16 r)
  | .cmpR8Rm8 r o => textTwo "cmp" (textReg8 r) (textRm8 o)
  | .cmpR16Rm16 r o => textTwo "cmp" (textReg16 r) (textRm16 o)
  | .cmpRm8Imm8 o imm => textTwo "cmp" (textSizedRm8 o) (textImm8 imm)
  | .cmpRm16Imm16 o imm => textTwo "cmp" (textSizedRm16 o) (textImm16 imm)
  | .cmpAlImm8 imm => textTwo "cmp" "al" (textImm8 imm)
  | .cmpAxImm16 imm => textTwo "cmp" "ax" (textImm16 imm)
  | .cmpRm8Imm8Alias o imm => textTwo "cmp" (textSizedRm8 o) (textImm8 imm)
  | .cmpRm16SImm8 o imm => textTwo "cmp" (textSizedRm16 o) (textImm16 (sextImm imm))
  | .jo r8 => textJump "jo" position r8
  | .jno r8 => textJump "jno" position r8
  | .jb r8 => textJump "jb" position r8
  | .jnb r8 => textJump "jnb" position r8
  | .jz r8 => textJump "jz" position r8
  | .jnz r8 => textJump "jnz" position r8
  | .jbe r8 => textJump "jbe" position r8
  | .ja r8 => textJump "ja" position r8
  | .js r8 => textJump "js" position r8
  | .jns r8 => textJump "jns" position r8
  | .jp r8 => textJump "jp" position r8
  | .jnp r8 => textJump "jnp" position r8
  | .jl r8 => textJump "jl" position r8
  | .jnl r8 => textJump "jnl" position r8
  | .jle r8 => textJump "jle" position r8
  | .jg r8 => textJump "jg" position r8
  | .loopnz r8 => textJump "loopnz" position r8
  | .loopz r8 => textJump "loopz" position r8
  | .loop r8 => textJump "loop" position r8
  | .jcxz r8 => textJump "jcxz" position r8
  | .db _ bytes => textFallback bytes

/-- The text of `decode(buffer, position)`, empty for the terminal case (R82, R83). -/
def decodeText (buffer : List Byte) (position : Nat) : String :=
  match decodeAt buffer position with
  | none => ""
  | some i => textOf position i

/-! ### The listing (R103) -/

/-- The texts from `position` on, over the bytes that remain; each decode consumes at least one byte, so as much
`fuel` as there are bytes reaches the end. -/
def listingFrom : Nat → Nat → List Byte → List String
  | 0, _, _ => []
  | fuel + 1, position, bytes =>
    match decodeBytes bytes with
    | none => []
    | some i => textOf position i :: listingFrom fuel (position + i.length) (bytes.drop i.length)

/-- The lines of a decode-only pass, without their newline characters. -/
def listingLines (buffer : List Byte) : List String :=
  "bits 16" :: listingFrom buffer.length 0 buffer

/-- Lines, each ending in a newline character. -/
def joinLines (lines : List String) : String := String.join (lines.map (· ++ "\n"))

/-- The decode-only pass over a buffer (R103). -/
def listing (buffer : List Byte) : String := joinLines (listingLines buffer)

end Sys2Proof.Machine
end

