-- ==== Sys2Proof/Machine/Output.lean ====
section
/-! DEFINITION. What the host reads between steps: the numeric codes of the status record, the trace line of a
step and the register dump (spec/60_exceptions.md R186, R189; spec/70_reset_and_hazards.md R205, R206).
The lines are functions of the state, not part of it (assumption 13). -/

namespace Sys2Proof.Machine

/-- The value of `last_diag` (R186). -/
def diagValue : Option DiagCode → Nat
  | none => 0
  | some .unmapped => 1
  | some .subop => 2
  | some .truncated => 3
  | some .profile => 4
  | some .condUnmodeled => 5
  | some .empty => 6

/-- The value of `fault_code` (R189). -/
def faultValue : Option Fault → Nat
  | none => 0
  | some .eaRange => 1
  | some .smc => 2

def diagName : DiagCode → String
  | .unmapped => "DIAG_UNMAPPED"
  | .subop => "DIAG_SUBOP"
  | .truncated => "DIAG_TRUNCATED"
  | .profile => "DIAG_PROFILE"
  | .condUnmodeled => "DIAG_COND_UNMODELED"
  | .empty => "DIAG_EMPTY"

def faultName : Fault → String
  | .eaRange => "EA_RANGE"
  | .smc => "SMC"

/-- The clock comment, with the values after the step (R206). -/
def clockComment (t : State) : String :=
  " ; Clocks: +" ++ toString t.clocks ++ " = " ++ toString t.totalClocks

/-- The line of a step that ran `i` from `s` to `t` (R206). -/
def stepLine (i : Instr) (s t : State) : String :=
  textOf s.ip.toNat i ++
    (match t.runState, t.faultCode with
      | .faulted, some f => " ; FAULT " ++ faultName f
      | _, _ =>
        clockComment t ++
          (match diagnosis i s.params.profile with
            | none => ""
            | some code => " ; " ++ diagName code))

/-- What the step from `s` emits when tracing: nothing if the run is over or the step halts (R206). -/
def traceLine (s : State) : Option String :=
  if s.runState = .running ∧ s.ip.toNat < s.codeLen then
    match decodeAt s.image s.ip.toNat, sequencerStep s with
    | some i, .next t => some (stepLine i s t)
    | _, _ => none
  else none

/-- One register's line of the dump (R205). -/
def dumpLine (name : String) (v : Word) : String := "    " ++ name ++ ": " ++ hex4 v

/-- The lines of the register dump, without their newline characters (R205). -/
def dumpLines (s : State) : List String :=
  ["Final registers:",
    dumpLine "ax" s.regs.ax, dumpLine "cx" s.regs.cx, dumpLine "dx" s.regs.dx, dumpLine "bx" s.regs.bx,
    dumpLine "sp" s.regs.sp, dumpLine "bp" s.regs.bp, dumpLine "si" s.regs.si, dumpLine "di" s.regs.di,
    dumpLine "ip" s.ip,
    "    flags: " ++ (if s.sf then "S" else "-") ++ (if s.zf then "Z" else "-"),
    "    clocks: " ++ toString s.totalClocks]

/-- `dump` (R205). -/
def dump (s : State) : String := joinLines (dumpLines s)

/-- `memdump`: the bytes of `mem` in offset order (R204). -/
def memdump (s : State) : List Byte := memoryBytes s.mem 0 memSize

end Sys2Proof.Machine
end

