-- ==== Sys2Proof/Machine/Driver.lean ====
section
/-! DEFINITION. The host's operations that make or run a machine (spec/70_reset_and_hazards.md R204): configure,
load and run. `decode` and `listing` are in Decode.lean and Text.lean, `dump` and `memdump` in Output.lean;
`read` is reading a field of State. -/

namespace Sys2Proof.Machine

/-- Why a load is rejected. -/
inductive LoadError
  /-- `LOAD_OVERSIZE`: more bytes than memory holds (spec/60_exceptions.md R193). -/
  | oversize
deriving DecidableEq, Repr

/-- `configure` (R204). -/
def configure (p : Params) (s : State) : State := { s with params := p }

/-- The state right after a successful load: reset, the image set and copied into `mem` at offset 0, the
parameters kept (R202; spec/60_exceptions.md R193; spec/20_memory.md R45). -/
def loadedState (p : Params) (bytes : List Byte) : State :=
  { State.reset with params := p, image := bytes, mem := Memory.writeBytes [] 0 bytes }

/-- `load` (R193): rejected whole when the bytes exceed memory, and then no state is created. -/
def load (bytes : List Byte) (s : State) : Except LoadError State :=
  if memSize < bytes.length then .error .oversize else .ok (loadedState s.params bytes)

/-- `run` with the step limit `n` (R204): steps while `run_state = RUNNING` and fewer than `n` steps have been
taken (spec/43_control.md R158). -/
def runSteps : Nat → State → State
  | 0, s => s
  | n + 1, s =>
    match s.runState, sequencerStep s with
    | .running, .next t => runSteps n t
    | _, _ => s

/-- The trace lines of such a run (R206). -/
def runTrace : Nat → State → List String
  | 0, _ => []
  | n + 1, s =>
    match s.runState, sequencerStep s with
    | .running, .next t => (traceLine s).toList ++ runTrace n t
    | _, _ => []

end Sys2Proof.Machine
end

