-- ==== Sys2Proof/Safety.lean ====
section
/-! DEFINITION. What claims say about a run: the invariant of every state a run reaches, and safe runs. -/

namespace Sys2Proof.Machine

/-- The status record's three parts agree: a fault code exactly when FAULTED, a last diagnostic exactly when one
was seen (spec/10_state.md R32; spec/60_exceptions.md R185, R190). -/
structure State.StatusOk (s : State) : Prop where
  fault_iff : s.runState = .faulted ↔ s.faultCode ≠ none
  diag_iff : s.diagSeen = true ↔ s.lastDiag ≠ none
  not_empty : s.lastDiag ≠ some .empty

/-- What the load makes true and every step keeps: memory in canonical form, an image that fits, its bytes in
`mem` below `CODE_LEN` (spec/20_memory.md R45, R47), and an agreeing status record. -/
structure State.Inv (s : State) : Prop where
  mem_wf : s.mem.wf = true
  image_fits : s.codeLen ≤ memSize
  image_in_mem : ∀ a, a < s.codeLen → s.image[a]? = some (s.mem.read a)
  status : s.StatusOk

/-- A run ends normally within `n` steps: HALTED (spec/70_reset_and_hazards.md R203). -/
def HaltsWithin (n : Nat) (s : State) : Prop := (runSteps n s).runState = .halted

/-- A run never faults, however many steps it takes (spec/43_control.md R158). -/
def NeverFaults (s : State) : Prop := ∀ n, (runSteps n s).runState ≠ .faulted

/-- A run carries out every instruction it meets: no diagnostic, however many steps it takes. -/
def NeverDiagnoses (s : State) : Prop := ∀ n, (runSteps n s).diagSeen = false

end Sys2Proof.Machine
end

