-- ==== Sys2Proof/Certificates/Slice0/Obligations.lean ====
section
/-! DEFINITION. The statements for the provers, and the words of the spec they are written in: values of
operands, what a store or a register write leaves, the access an instruction makes. -/

namespace Sys2Proof.Spec

open Sys2Proof Sys2Proof.Machine

/-! ### Values and writes -/

/-- `mem[a] + 256 * mem[a+1]` (R40). -/
def wordAt (m : Memory) (a : Nat) : Word := BitVec.ofNat 16 ((m.read a).toNat + 256 * (m.read (a + 1)).toNat)

/-- The value of an 8-bit r/m operand (R105). -/
def value8 (o : RM8) (s : State) : Byte :=
  match o with
  | .reg r => s.regs.get8 r
  | .mem m => s.mem.read (eaNat m s)

/-- The value of a 16-bit r/m operand (R105). -/
def value16 (o : RM16) (s : State) : Word :=
  match o with
  | .reg r => s.regs.get16 r
  | .mem m => wordAt s.mem (eaNat m s)

/-- The operand is a register, or lies inside memory (R53). -/
def Readable8 (o : RM8) (s : State) : Prop :=
  match o with
  | .reg _ => True
  | .mem m => eaNat m s + 1 ≤ 65536

def Readable16 (o : RM16) (s : State) : Prop :=
  match o with
  | .reg _ => True
  | .mem m => eaNat m s + 2 ≤ 65536

/-- The operand is a register, or lies inside memory and not in the image (R41, R47). -/
def Writable8 (o : RM8) (s : State) : Prop :=
  match o with
  | .reg _ => True
  | .mem m => eaNat m s + 1 ≤ 65536 ∧ s.codeLen ≤ eaNat m s

def Writable16 (o : RM16) (s : State) : Prop :=
  match o with
  | .reg _ => True
  | .mem m => eaNat m s + 2 ≤ 65536 ∧ s.codeLen ≤ eaNat m s

/-- `x8[r] <- v` and nothing else (R17, R18). -/
def Put8 (r : Reg8) (v : Byte) (old new : Regs) : Prop :=
  new.get8 r = v ∧ (∀ q, q ≠ r → new.get8 q = old.get8 q) ∧
    new.sp = old.sp ∧ new.bp = old.bp ∧ new.si = old.si ∧ new.di = old.di

/-- `x[r] <- v` and nothing else (R16). -/
def Put16 (r : Reg16) (v : Word) (old new : Regs) : Prop :=
  new.get16 r = v ∧ ∀ q, q ≠ r → new.get16 q = old.get16 q

/-- One byte stored at `a`, every other byte as before. -/
def Store8 (a : Nat) (v : Byte) (old new : Memory) : Prop :=
  new.read a = v ∧ ∀ x, x ≠ a → new.read x = old.read x

/-- One little-endian word stored at `a`, every other byte as before. -/
def Store16 (a : Nat) (v : Word) (old new : Memory) : Prop :=
  wordAt new a = v ∧ ∀ x, x ≠ a → x ≠ a + 1 → new.read x = old.read x

/-- `WriteRM(rec, v)` of R105 and nothing else: the registers and the memory after it. -/
def Written8 (o : RM8) (v : Byte) (s : State) (regs : Regs) (mem : Memory) : Prop :=
  match o with
  | .reg r => Put8 r v s.regs regs ∧ mem = s.mem
  | .mem m => regs = s.regs ∧ Store8 (eaNat m s) v s.mem mem

def Written16 (o : RM16) (v : Word) (s : State) (regs : Regs) (mem : Memory) : Prop :=
  match o with
  | .reg r => Put16 r v s.regs regs ∧ mem = s.mem
  | .mem m => regs = s.regs ∧ Store16 (eaNat m s) v s.mem mem

/-- Nothing is written. -/
def Unwritten (s : State) (regs : Regs) (mem : Memory) : Prop := regs = s.regs ∧ mem = s.mem

/-- `CLK_ODD_WORD` for each of `transfers` word transfers at an odd address (R212). -/
def odd (a transfers : Nat) (s : State) : Nat := if a % 2 = 1 then s.params.oddWord * transfers else 0

/-- The cost of a byte form: its base cost, and for memory `CLK_EA` (R107). -/
def cost8 (reg mem : Nat) (o : RM8) (s : State) : Nat :=
  match o with
  | .reg _ => reg
  | .mem m => mem + eaCost m s

/-- The cost of a word form, with its word transfers (R107, R212). -/
def cost16 (reg mem transfers : Nat) (o : RM16) (s : State) : Nat :=
  match o with
  | .reg _ => reg
  | .mem m => mem + eaCost m s + odd (eaNat m s) transfers s

/-- `i` runs to its end: `ip` moves past it, it costs `c`, the flags become `zf` and `sf`, registers and memory
are as `effect` says, and every other part of the state is unchanged (R157, R161, R207). -/
def Completes (i : Instr) (s : State) (c : Nat) (zf sf : Bool) (effect : Regs → Memory → Prop) : Prop :=
  ∃ regs mem, effect regs mem ∧
    exec i s = .next { s with
      regs := regs, mem := mem, zf := zf, sf := sf, ip := s.ip + BitVec.ofNat 16 i.length
      clocks := c, totalClocks := s.totalClocks + c }

/-- `i` completes with the byte result `res` and the byte flag rule (R122). -/
def CompletesByte (i : Instr) (s : State) (c : Nat) (res : Byte) (effect : Regs → Memory → Prop) : Prop :=
  Completes i s c (decide (res = 0#8)) (res.getLsbD 7) effect

/-- `i` completes with the word result `res` and the word flag rule (R122). -/
def CompletesWord (i : Instr) (s : State) (c : Nat) (res : Word) (effect : Regs → Memory → Prop) : Prop :=
  Completes i s c (decide (res = 0#16)) (res.getLsbD 15) effect

/-- A jump of two bytes: taken or not, with its cost, every other part of the state but the registers
`regs` unchanged (R161, R163). -/
def Jumps (i : Instr) (s : State) (regs : Regs) (taken : Bool) (r8 : Byte) (takenCost otherCost : Nat) : Prop :=
  exec i s = .next { s with
    regs := regs
    ip := if taken then s.ip + 2#16 + r8.signExtend 16 else s.ip + 2#16
    clocks := if taken then takenCost else otherCost
    totalClocks := s.totalClocks + (if taken then takenCost else otherCost) }

/-- The diagnostic no-op of an instruction of `len` bytes (R185). -/
def noOp (code : DiagCode) (len : Nat) (s : State) : State :=
  { s with ip := s.ip + BitVec.ofNat 16 len, clocks := 0, diagSeen := true, lastDiag := some code }

/-- The code of a fallback's reason (R187). -/
def reasonCode : FallbackReason → DiagCode
  | .unmapped => .unmapped
  | .subop => .subop
  | .truncated => .truncated

/-- The state after a fault (R190). -/
def faulted (f : Fault) (s : State) : State :=
  { s with clocks := 0, runState := .faulted, faultCode := some f }

/-! ### Classes of instructions -/

/-- The access of an 8-bit r/m operand: its address, its width in bytes and whether it writes. -/
def access8 (o : RM8) (writes : Bool) (s : State) : Option (Nat × Nat × Bool) :=
  match o with
  | .reg _ => none
  | .mem m => some (eaNat m s, 1, writes)

def access16 (o : RM16) (writes : Bool) (s : State) : Option (Nat × Nat × Bool) :=
  match o with
  | .reg _ => none
  | .mem m => some (eaNat m s, 2, writes)

/-- The data access an instruction makes: address, bytes, and whether it writes (R189). -/
def access (i : Instr) (s : State) : Option (Nat × Nat × Bool) :=
  match i with
  | .movRm8R8 o _ | .movRm8Imm8 o _ | .addRm8R8 o _ | .addRm8Imm8 o _ => access8 o true s
  | .addRm8Imm8Alias o _ | .subRm8R8 o _ | .subRm8Imm8 o _ | .subRm8Imm8Alias o _ => access8 o true s
  | .movRm16R16 o _ | .movRm16Imm16 o _ | .addRm16R16 o _ | .addRm16Imm16 o _ => access16 o true s
  | .addRm16SImm8 o _ | .subRm16R16 o _ | .subRm16Imm16 o _ | .subRm16SImm8 o _ => access16 o true s
  | .movR8Rm8 _ o | .addR8Rm8 _ o | .subR8Rm8 _ o | .cmpR8Rm8 _ o => access8 o false s
  | .cmpRm8R8 o _ | .cmpRm8Imm8 o _ | .cmpRm8Imm8Alias o _ => access8 o false s
  | .movR16Rm16 _ o | .addR16Rm16 _ o | .subR16Rm16 _ o | .cmpR16Rm16 _ o => access16 o false s
  | .cmpRm16R16 o _ | .cmpRm16Imm16 o _ | .cmpRm16SImm8 o _ => access16 o false s
  | .movAlMem a16 => some (a16.toNat, 1, false)
  | .movAxMem a16 => some (a16.toNat, 2, false)
  | .movMemAl a16 => some (a16.toNat, 1, true)
  | .movMemAx a16 => some (a16.toNat, 2, true)
  | .movR8Imm8 _ _ | .movR16Imm16 _ _ => none
  | .addAlImm8 _ | .addAxImm16 _ | .subAlImm8 _ | .subAxImm16 _ | .cmpAlImm8 _ | .cmpAxImm16 _ => none
  | .jo _ | .jno _ | .jb _ | .jnb _ | .jz _ | .jnz _ | .jbe _ | .ja _ => none
  | .js _ | .jns _ | .jp _ | .jnp _ | .jl _ | .jnl _ | .jle _ | .jg _ => none
  | .loopnz _ | .loopz _ | .loop _ | .jcxz _ => none
  | .db _ _ => none

def regOf8 : RM8 → Option Reg8
  | .reg r => some r
  | .mem _ => none

def regOf16 : RM16 → Option Reg16
  | .reg r => some r
  | .mem _ => none

/-- The byte register an instruction has as its destination. -/
def destination8 : Instr → Option Reg8
  | .movRm8R8 o _ | .movRm8Imm8 o _ | .addRm8R8 o _ | .addRm8Imm8 o _ => regOf8 o
  | .addRm8Imm8Alias o _ | .subRm8R8 o _ | .subRm8Imm8 o _ | .subRm8Imm8Alias o _ => regOf8 o
  | .movR8Rm8 r _ | .addR8Rm8 r _ | .subR8Rm8 r _ | .movR8Imm8 r _ => some r
  | .movAlMem _ | .addAlImm8 _ | .subAlImm8 _ => some .al
  | _ => none

/-- The word register an instruction has as its destination; the LOOP family decrements `cx` (R180). -/
def destination16 : Instr → Option Reg16
  | .movRm16R16 o _ | .movRm16Imm16 o _ | .addRm16R16 o _ | .addRm16Imm16 o _ => regOf16 o
  | .addRm16SImm8 o _ | .subRm16R16 o _ | .subRm16Imm16 o _ | .subRm16SImm8 o _ => regOf16 o
  | .movR16Rm16 r _ | .addR16Rm16 r _ | .subR16Rm16 r _ | .movR16Imm16 r _ => some r
  | .movAxMem _ | .addAxImm16 _ | .subAxImm16 _ => some .ax
  | .loopnz _ | .loopz _ | .loop _ => some .cx
  | _ => none

/-- The ADD, SUB and CMP forms, rows 13 to 42 of R77. -/
def isArithmetic (i : Instr) : Prop := ∃ n, i.form = some n ∧ 13 ≤ n ∧ n ≤ 42

/-- The CMP forms, rows 33 to 42 of R77. -/
def isCompare (i : Instr) : Prop := ∃ n, i.form = some n ∧ 33 ≤ n ∧ n ≤ 42

/-- The MOV forms, rows 1 to 12 of R77. -/
def isMove (i : Instr) : Prop := ∃ n, i.form = some n ∧ 1 ≤ n ∧ n ≤ 12

/-- The displacement of a jump whose condition holds (R163, R181 to R184). -/
def takenDisplacement (i : Instr) (s : State) : Option Byte :=
  match i with
  | .jz r8 => if s.zf then some r8 else none
  | .jnz r8 => if s.zf then none else some r8
  | .js r8 => if s.sf then some r8 else none
  | .jns r8 => if s.sf then none else some r8
  | .loopnz r8 => if s.regs.cx ≠ 1#16 ∧ s.zf = false then some r8 else none
  | .loopz r8 => if s.regs.cx ≠ 1#16 ∧ s.zf = true then some r8 else none
  | .loop r8 => if s.regs.cx ≠ 1#16 then some r8 else none
  | .jcxz r8 => if s.regs.cx = 0#16 then some r8 else none
  | _ => none

/-- The same state with other clock tables and counts (R213). -/
def withClocks (clk : Clk) (ea : EaClocks) (oddWord clocks total : Nat) (s : State) : State :=
  { s with
    params := { s.params with clk := clk, eaClocks := ea, oddWord := oddWord }
    clocks := clocks
    totalClocks := total }

/-- `x[i]`, zero-extended to 32 bits (R52). -/
def x32 (s : State) (i : BitVec 3) : BitVec 32 := (s.regs.get16 (Reg16.ofIndex i)).zeroExtend 32

/-- The registers an `r_m` sums (the table of R49). -/
def baseOf (s : State) (rm : BitVec 3) : BitVec 32 :=
  match rm.toNat with
  | 0 => x32 s 3 + x32 s 6
  | 1 => x32 s 3 + x32 s 7
  | 2 => x32 s 5 + x32 s 6
  | 3 => x32 s 5 + x32 s 7
  | 4 => x32 s 6
  | 5 => x32 s 7
  | 6 => x32 s 5
  | _ => x32 s 3

/-- Bytes from numbers. -/
def bytes (l : List Nat) : List Byte := l.map (BitVec.ofNat 8)

/-- The `reg` field of a mod/reg/r_m byte (R62). -/
def regField (m : Byte) : Nat := m.toNat / 8 % 8

/-- An opcode and a `reg` field that R69 does not support. -/
def UnsupportedSubop (op m : Byte) : Prop :=
  (op ∈ [0x80#8, 0x81#8, 0x82#8, 0x83#8] ∧ regField m ∉ [0, 5, 7]) ∨ (op ∈ [0xC6#8, 0xC7#8] ∧ regField m ≠ 0)

/-- The short jumps with their mnemonics (R77 rows 43 to 62). -/
def jumps : List ((Byte → Instr) × String) :=
  [(.jo, "jo"), (.jno, "jno"), (.jb, "jb"), (.jnb, "jnb"), (.jz, "jz"),
    (.jnz, "jnz"), (.jbe, "jbe"), (.ja, "ja"), (.js, "js"), (.jns, "jns"),
    (.jp, "jp"), (.jnp, "jnp"), (.jl, "jl"), (.jnl, "jnl"), (.jle, "jle"),
    (.jg, "jg"), (.loopnz, "loopnz"), (.loopz, "loopz"), (.loop, "loop"), (.jcxz, "jcxz")]

/-- The rows of R77 executed under SOURCE (R188). -/
def sourceRows : List Nat := [2, 4, 8, 14, 16, 20, 22, 24, 26, 30, 32, 34, 36, 40, 42, 48]

/-- The rows of R77 executed under neither profile (R188). -/
def conditionRows : List Nat := [43, 44, 45, 46, 49, 50, 53, 54, 55, 56, 57, 58]

/-- Format RM, RMI, AI and RI, AM rows of R77 (R74). -/
def rowsRM : List Nat := [1, 2, 3, 4, 13, 14, 15, 16, 23, 24, 25, 26, 33, 34, 35, 36]
def rowsRMI : List Nat := [5, 6, 19, 20, 21, 22, 29, 30, 31, 32, 39, 40, 41, 42]
def rowsAIRI : List Nat := [7, 8, 17, 18, 27, 28, 37, 38]
def rowsAM : List Nat := [9, 10, 11, 12]

/-! ### The decoded record, read from the bytes of the instruction -/

/-- `B(k)` (R85). -/
def byteAt (bs : List Byte) (k : Nat) : Byte := bs.getD k 0

/-- Bit `k` of a byte. -/
def bitOf (b : Byte) (k : Nat) : BitVec 1 := b.extractLsb' k 1

/-- The displacement after a mod/reg/r_m byte, by its `mod` and `r_m` (R50, R51). -/
def dispOfBytes (bs : List Byte) : Option Int :=
  let m := (byteAt bs 1).toNat
  match m / 64 with
  | 0 => some (if m % 8 = 6 then (byteAt bs 3 ++ byteAt bs 2 : Word).toNat else 0)
  | 1 => some (byteAt bs 2).toInt
  | 2 => some (byteAt bs 3 ++ byteAt bs 2 : Word).toInt
  | _ => none

/-- An immediate of one byte or of two from `B(k)` on (R71). -/
def immOfBytes (wide : Bool) (bs : List Byte) (k : Nat) : Immediate :=
  if wide then .word (byteAt bs (k + 1) ++ byteAt bs k) else .byte (byteAt bs k)

/-- The fields of the format of row `n` (R74, R89), read from the bytes `bs` of the instruction on. -/
def fieldsOfBytes (n : Nat) (bs : List Byte) (r : Record) : Record :=
  let op := byteAt bs 0
  let m := byteAt bs 1
  if n ∈ rowsRM then
    { r with
      d := some (bitOf op 1), w := some (bitOf op 0), mod := some (m.extractLsb' 6 2)
      reg := some (m.extractLsb' 3 3), rm := some (m.extractLsb' 0 3), disp := dispOfBytes bs }
  else if n ∈ rowsRMI then
    let k := 2 + displacementBytes m.toNat
    { r with
      s := if op = 0xC6#8 ∨ op = 0xC7#8 then none else some (bitOf op 1)
      w := some (bitOf op 0), mod := some (m.extractLsb' 6 2)
      reg := some (m.extractLsb' 3 3), rm := some (m.extractLsb' 0 3), disp := dispOfBytes bs
      imm := some (if op = 0x83#8 then .word ((byteAt bs k).signExtend 16)
        else immOfBytes (bitOf op 0 = 1#1) bs k) }
  else if n = 7 ∨ n = 8 then
    { r with
      w := some (bitOf op 3), reg := some (op.extractLsb' 0 3), imm := some (immOfBytes (bitOf op 3 = 1#1) bs 1) }
  else if n ∈ rowsAIRI then
    { r with w := some (bitOf op 0), imm := some (immOfBytes (bitOf op 0 = 1#1) bs 1) }
  else if n ∈ rowsAM then
    { r with d := some (bitOf op 1), w := some (bitOf op 0), a16 := some (byteAt bs 2 ++ byteAt bs 1) }
  else { r with r8 := some m.toInt }

end Sys2Proof.Spec

open Sys2Proof Sys2Proof.Machine Sys2Proof.Spec

/-- For every well-formed instruction of the 62 forms, decoding its encoding followed by any bytes gives exactly that instruction; for every well-formed fallback, decoding its bytes gives that fallback.
(30_encoding.md sections 2 to 5, 40_decoder.md section 2) -/
def Obligations.DecodeEncodeRoundTrip : Prop :=
  (∀ i : Instr, i.wf = true → (∀ reason bs, i ≠ .db reason bs) →
    ∀ rest, decodeBytes (encode i ++ rest) = some i) ∧
  ∀ reason bs, (Instr.db reason bs).wf = true → decodeBytes (encode (.db reason bs)) = some (.db reason bs)

/-- Whenever some bytes decode to an instruction (a fallback included), the instruction is well formed, its length is at least 1 and at most the number of bytes, and its encoding is exactly the bytes of that length at the front.
(30_encoding.md sections 2 to 5, 40_decoder.md sections 2 and 3) -/
def Obligations.DecodedBytesReencode : Prop :=
  ∀ bs i, decodeBytes bs = some i →
    i.wf = true ∧ 0 < i.length ∧ i.length ≤ bs.length ∧ encode i = bs.take i.length

/-- One word of every family and format, written out from the spec's encodings, decodes to its instruction (40_decoder.md's and 95_test_vectors.md's examples among them).
(30_encoding.md sections 2 to 5, 95_test_vectors.md section 1) -/
def Obligations.WordsOfTheSpecDecode : Prop :=
  decodeBytes (bytes [0x89, 0xd9]) = some (.movRm16R16 (.reg .cx) .bx) ∧
  decodeBytes (bytes [0xb1, 0x0c]) = some (.movR8Imm8 .cl 0x0c) ∧
  decodeBytes (bytes [0x8b, 0x56, 0x00]) = some (.movR16Rm16 .dx (.mem (.disp8 .bp 0))) ∧
  decodeBytes (bytes [0x8a, 0x60, 0x04]) = some (.movR8Rm8 .ah (.mem (.disp8 .bxSi 4))) ∧
  decodeBytes (bytes [0xc6, 0x03, 0x07]) = some (.movRm8Imm8 (.mem (.noDisp .bpDi)) 7) ∧
  decodeBytes (bytes [0xb8, 0x05, 0x00]) = some (.movR16Imm16 .ax 5) ∧
  decodeBytes (bytes [0xa1, 0xe8, 0x03]) = some (.movAxMem 1000) ∧
  decodeBytes (bytes [0x03, 0x5e, 0x00]) = some (.addR16Rm16 .bx (.mem (.disp8 .bp 0))) ∧
  decodeBytes (bytes [0x29, 0xd8]) = some (.subRm16R16 (.reg .ax) .bx) ∧
  decodeBytes (bytes [0x80, 0x7f, 0x04, 0x01]) = some (.cmpRm8Imm8 (.mem (.disp8 .bx 4)) 1) ∧
  decodeBytes (bytes [0x83, 0xc1, 0xfe]) = some (.addRm16SImm8 (.reg .cx) 0xfe) ∧
  decodeBytes (bytes [0xc7, 0x06, 0x00, 0x02, 0xff, 0xff]) = some (.movRm16Imm16 (.mem (.direct 0x200)) 0xffff) ∧
  decodeBytes (bytes [0x3d, 0x01, 0x00]) = some (.cmpAxImm16 1) ∧
  decodeBytes (bytes [0x75, 0xfc]) = some (.jnz 0xfc) ∧
  decodeBytes (bytes [0xe2, 0xfe]) = some (.loop 0xfe) ∧
  decodeBytes (bytes [0x90, 0x89, 0xd9]) = some (.db .unmapped (bytes [0x90, 0x89, 0xd9]))

/-- A first byte gives the fallback with reason UNMAPPED over all of the bytes exactly when it is in the ranges 30_encoding.md lists as unmapped; the example of 40_decoder.md R92 comes out as text and next position.
(R92) -/
def Obligations.UnmappedFirstByteFallsBack : Prop :=
  (∀ (op : Byte) rest, decodeBytes (op :: rest) = some (.db .unmapped (op :: rest)) ↔
    (0x06 ≤ op.toNat ∧ op.toNat ≤ 0x27) ∨ op.toNat = 0x2E ∨ op.toNat = 0x2F ∨
    (0x30 ≤ op.toNat ∧ op.toNat ≤ 0x37) ∨ (0x3E ≤ op.toNat ∧ op.toNat ≤ 0x6F) ∨
    (0x84 ≤ op.toNat ∧ op.toNat ≤ 0x87) ∨ (0x8C ≤ op.toNat ∧ op.toNat ≤ 0x9F) ∨
    (0xA4 ≤ op.toNat ∧ op.toNat ≤ 0xAF) ∨ (0xC0 ≤ op.toNat ∧ op.toNat ≤ 0xC5) ∨
    (0xC8 ≤ op.toNat ∧ op.toNat ≤ 0xDF) ∨ 0xE4 ≤ op.toNat) ∧
  decodeText (bytes [0x90, 0x89, 0xd9]) 0 = "db 0x90,0x89,0xd9" ∧
  nextPosition (bytes [0x90, 0x89, 0xd9]) 0 = 3

/-- For the opcodes 0x80..0x83 with reg other than 0, 5, 7 and for 0xC6, 0xC7 with reg other than 0, the bytes decode to the fallback with reason SUBOP whatever follows the mod/reg/r_m byte, nothing included; no other bytes do; the example of R93 comes out as text.
(R93) -/
def Obligations.UnsupportedSubopFallsBack : Prop :=
  (∀ op m rest, UnsupportedSubop op m →
    decodeBytes (op :: m :: rest) = some (.db .subop (op :: m :: rest))) ∧
  (∀ bs more, decodeBytes bs = some (.db .subop more) →
    ∃ op m rest, bs = op :: m :: rest ∧ UnsupportedSubop op m) ∧
  decodeText (bytes [0x80, 0xc8, 0x05]) 0 = "db 0x80,0xc8,0x05"

/-- If the buffer ends before the last byte of an instruction of the 62 forms, what remains of it decodes to the fallback with reason TRUNCATED over all of the remaining bytes; conversely a fallback of that reason stands for bytes that some further bytes complete to an instruction; the example of R91 comes out as text and next position.
(R91) -/
def Obligations.TruncatedFallsBack : Prop :=
  (∀ i : Instr, i.wf = true → (∀ reason bs, i ≠ .db reason bs) → ∀ k, 0 < k → k < i.length →
    decodeBytes ((encode i).take k) = some (.db .truncated ((encode i).take k))) ∧
  (∀ bs more, decodeBytes bs = some (.db .truncated more) →
    more = bs ∧ ∃ i : Instr, (∀ reason bs', i ≠ .db reason bs') ∧ bs.length < i.length ∧
      (encode i).take bs.length = bs) ∧
  decodeText (bytes [0x8b, 0x56]) 0 = "db 0x8b,0x56" ∧
  nextPosition (bytes [0x8b, 0x56]) 0 = 2

/-- For a position inside the buffer, position <= next_position <= n, and next_position > position unless the result is EMPTY; for every byte value the one-byte buffer decodes with next_position 1 (the spec's sentence 'Always position <= next_position <= n', which it marks as derived).
(40_decoder.md section 1) -/
def Obligations.NextPositionBounds : Prop :=
  (∀ buffer position, position ≤ buffer.length →
    position ≤ nextPosition buffer position ∧ nextPosition buffer position ≤ buffer.length ∧
    (decodeAt buffer position ≠ none → position < nextPosition buffer position)) ∧
  ∀ v : Byte, nextPosition [v] 0 = 1

/-- Decoding at a position equal to or greater than the buffer's length gives the record of kind EMPTY, the empty text and next_position = position; inside the buffer the result is never EMPTY.
(R83) -/
def Obligations.EndOfBufferIsEmpty : Prop :=
  (∀ buffer position, buffer.length ≤ position →
    decodeAt buffer position = none ∧ decodeText buffer position = "" ∧ nextPosition buffer position = position) ∧
  ∀ buffer position, position < buffer.length → decodeAt buffer position ≠ none

/-- Whatever its reason, a fallback at a position holds exactly the bytes from that position to the end, its text is 'db ' and those bytes as two hexadecimal digits each, joined by commas, and next_position is the buffer's length.
(R90) -/
def Obligations.FallbackConsumesTheRest : Prop :=
  ∀ buffer position reason bs, decodeAt buffer position = some (.db reason bs) →
    bs = buffer.drop position ∧ nextPosition buffer position = buffer.length ∧
    decodeText buffer position = "db " ++ String.intercalate "," ((buffer.drop position).map hex2)

/-- A decoded form has length 2 to 6: RM 2 to 4, RMI 3 to 6, AI and RI 2 or 3, AM 3, J8 2, and 6 only for the forms of 0x81 and 0xC7. Two decoded forms that share their first byte, and their second too where the format is RM or RMI, have the same length (the spec's sentence 'The length of an instruction is fixed by its opcode byte', which it marks as derived).
(30_encoding.md section 4) -/
def Obligations.InstructionLengths : Prop :=
  (∀ bs i n, decodeBytes bs = some i → i.form = some n →
    2 ≤ i.length ∧ i.length ≤ 6 ∧ (n ∈ rowsRM → i.length ≤ 4) ∧ (n ∈ rowsRMI → 3 ≤ i.length) ∧
    (n ∈ rowsAIRI → i.length ≤ 3) ∧ (n ∈ rowsAM → i.length = 3) ∧ (43 ≤ n → i.length = 2) ∧
    (i.length = 6 → n ∈ [6, 20, 30, 40])) ∧
  (∀ op m rest rest' i j, decodeBytes (op :: m :: rest) = some i → decodeBytes (op :: m :: rest') = some j →
    i.form ≠ none → j.form ≠ none → i.length = j.length) ∧
  ∀ op rest rest' i j n, decodeBytes (op :: rest) = some i → decodeBytes (op :: rest') = some j →
    i.form = some n → n ∉ rowsRM → n ∉ rowsRMI → j.form ≠ none → i.length = j.length

/-- For each of the twenty short jumps, the text at any position is the mnemonic, a space and the hexadecimal of (position + 2 + the signed displacement) modulo 2^16, computed on integers; the example of R101 comes out.
(R101) -/
def Obligations.JumpTextIsTheTarget : Prop :=
  (∀ e ∈ jumps, ∀ position (r8 : Byte),
    textOf position (e.1 r8) = e.2 ++ " " ++ hex (((position : Int) + 2 + r8.toInt) % 65536).toNat) ∧
  decodeText (bytes [0, 0, 0, 0, 0, 0, 0x75, 0xfc]) 6 = "jnz 0x4"

/-- Operands of every kind are rendered as the spec's examples show: registers, displaced and direct memory, size keywords, immediates, sign-extended immediates.
(40_decoder.md section 4, 95_test_vectors.md section 2.1) -/
def Obligations.RenderedTextsOfSpec : Prop :=
  decodeText (bytes [0x89, 0xd9]) 0 = "mov cx,bx" ∧
  decodeText (bytes [0x8b, 0x46, 0xfe]) 0 = "mov ax,[bp-0x2]" ∧
  decodeText (bytes [0x8b, 0x86, 0x00, 0xfe]) 0 = "mov ax,[bp-0x200]" ∧
  decodeText (bytes [0x8b, 0x56, 0x00]) 0 = "mov dx,[bp+0x0]" ∧
  decodeText (bytes [0xa3, 0xe8, 0x03]) 0 = "mov [0x3e8],ax" ∧
  decodeText (bytes [0xc6, 0x03, 0x07]) 0 = "mov byte [bp+di],0x7" ∧
  decodeText (bytes [0xc6, 0xc1, 0x07]) 0 = "mov cl,0x7" ∧
  decodeText (bytes [0x83, 0x07, 0xff]) 0 = "add word [bx],0xffff" ∧
  decodeText (bytes [0x2d, 0x01, 0x00]) 0 = "sub ax,0x1" ∧
  decodeText (bytes [0x3a, 0x4a, 0x10]) 0 = "cmp cl,[bp+si+0x10]" ∧
  listing (bytes [0xb8, 0x05, 0x00, 0xbb, 0x05, 0x00, 0x29, 0xd8]) =
    "bits 16\nmov ax,0x5\nmov bx,0x5\nsub ax,bx\n"

/-- When the machine is running, ip is inside the image and the bytes of the image from ip on decode to i, the step is exec of i at that state, with nothing around it. That exec is given the state at the start of the step, and so does the sequencer's part too, is the model's choice (log entry 3).
(43_control.md section 1) -/
def Obligations.StepRunsTheDecodedInstruction : Prop :=
  ∀ s i, s.runState = .running → s.ip.toNat < s.codeLen →
    decodeBytes (s.image.drop s.ip.toNat) = some i → step s = exec i s

/-- When the machine is running and the image is some bytes up to ip, then the encoding of a well-formed instruction of the 62 forms, then any bytes, the step is exec of that instruction at that state (the state at the start of the step: the model's choice, log entry 3).
(43_control.md section 1, 30_encoding.md section 4) -/
def Obligations.StepRunsTheEncodedInstruction : Prop :=
  ∀ s i pre post, s.runState = .running → i.wf = true → (∀ reason bs, i ≠ .db reason bs) →
    s.image = pre ++ encode i ++ post → pre.length = s.ip.toNat → step s = exec i s

/-- A step of a machine that is not RUNNING changes nothing at all; a step of a RUNNING machine whose ip is at or beyond CODE_LEN sets run_state to HALTED and changes nothing else. That the halting step keeps clocks too is the model's reading of the order in the spec's step (log entry 10).
(43_control.md sections 1 and 2 (the first two lines of step, and jump targets outside the image)) -/
def Obligations.HaltedAndFaultedAreFinal : Prop :=
  ∀ s, (s.runState ≠ .running → step s = .next s) ∧
    (s.runState = .running → s.codeLen ≤ s.ip.toNat → step s = .next { s with runState := .halted })

/-- From every state whatever, reached by a run or not, the step answers a next state: no encoding traps, every byte sequence runs or is a diagnostic no-op, and the two faults are taken into a FAULTED state. That a fault is a next state of the machine and no outcome of its own is the model's reading (log entry 2).
(30_encoding.md section 5, 60_exceptions.md sections 1 and 3, 93_implementation_defined.md part 1) -/
def Obligations.EveryStepAnswersNext : Prop :=
  ∀ s, ∃ t, step s = .next t

/-- From every state in which memory is in canonical form, the image fits in memory and is what memory holds below CODE_LEN, and the status record agrees with itself (a fault code exactly when FAULTED, a last diagnostic exactly when one was seen, never DIAG_EMPTY), a step gives such a state. The canonical form is the model's (log entry 6).
(20_memory.md section 3, 10_state.md section 7, 60_exceptions.md sections 1 and 3) -/
def Obligations.InvariantKeptByEveryStep : Prop :=
  ∀ s t, s.Inv → step s = .next t → t.Inv

/-- State.reset meets the invariant that every step keeps.
(70_reset_and_hazards.md section 1) -/
def Obligations.InvariantAtReset : Prop :=
  State.reset.Inv

/-- A load of more than 65536 bytes is rejected with LOAD_OVERSIZE; otherwise it gives the reset state with the parameters kept, the image set, CODE_LEN its length, memory the image at offset 0 and 0 elsewhere; an empty image is accepted and its first step halts.
(R193) -/
def Obligations.LoadTransaction : Prop :=
  ∀ (s : State) (bs : List Byte),
    (65536 < bs.length → load bs s = .error .oversize) ∧
    (bs.length ≤ 65536 → ∃ t, load bs s = .ok t ∧ t.codeLen = bs.length ∧
      t = { State.reset with params := s.params, image := bs, mem := t.mem } ∧
      (∀ a, a < bs.length → bs[a]? = some (t.mem.read a)) ∧
      (∀ a, bs.length ≤ a → t.mem.read a = 0#8) ∧
      (bs = [] → step t = .next { t with runState := .halted }))

/-- For every state, every image that loads and every number of steps, the state the run reaches meets the invariant. The canonical form of memory in it is the model's (log entry 6), and a run is runSteps n for each number of steps n, the model's reading (log entry 14).
(60_exceptions.md section 4, 43_control.md section 1) -/
def Obligations.EveryRunAfterALoadKeepsTheInvariant : Prop :=
  ∀ s bs t n, load bs s = .ok t → (runSteps n t).Inv

/-- Whatever a step does, the image and the parameters are as before, and so is every byte of memory below CODE_LEN: a store that would change one faults instead.
(10_state.md section 5, 20_memory.md sections 3 and 5, 70_reset_and_hazards.md sections 2 and 4) -/
def Obligations.ImageAndParametersNeverChange : Prop :=
  ∀ s t, step s = .next t →
    t.image = s.image ∧ t.params = s.params ∧ ∀ a, a < s.codeLen → t.mem.read a = s.mem.read a

/-- Two machines that differ only in the clock tables and the two counts take steps that again differ only in those: no rule reads them.
(R213) -/
def Obligations.ClockValuesChangeCountsOnly : Prop :=
  ∀ s t clk ea oddWord c n, step s = .next t →
    ∃ c' n', step (withClocks clk ea oddWord c n s) = .next (withClocks clk ea oddWord c' n' t)

/-- A step that runs an instruction, carried out or not, faulting or not, adds the step's own clocks to total_clocks, whatever clocks was before.
(10_state.md section 6, 70_reset_and_hazards.md section 3) -/
def Obligations.TotalClocksAccumulate : Prop :=
  ∀ s t, s.runState = .running → s.ip.toNat < s.codeLen → step s = .next t →
    t.totalClocks = s.totalClocks + t.clocks

/-- With the default CLK and CLK_EA and CLK_ODD_WORD = 0, a step of a running machine inside its image charges at most 29 clocks, under either profile, and 29 is reached by add word [bx+di+d],imm.
(10_state.md section 6, 70_reset_and_hazards.md section 3) -/
def Obligations.DefaultChargesAtMost29 : Prop :=
  (∀ s t, s.params.clk = defaultClk → s.params.eaClocks = defaultEaClocks → s.params.oddWord = 0 →
    s.runState = .running → s.ip.toNat < s.codeLen → step s = .next t → t.clocks ≤ 29) ∧
  ∀ d imm s, s.params = defaultParams → Writable16 (.mem (.disp16 .bxDi d)) s →
    ∃ t, exec (.addRm16Imm16 (.mem (.disp16 .bxDi d)) imm) s = .next t ∧ t.clocks = 29

/-- A step that takes a running machine to FAULTED leaves every register, flag and memory byte, ip, total_clocks and the diagnostics as they were, sets clocks to 0 and fault_code to a code, and no further step changes anything. That the fault is a next state (log entry 2) and that the diagnostics are kept (log entry 11) are the model's readings.
(60_exceptions.md section 3, 43_control.md section 1) -/
def Obligations.FaultIsPreciseAndFatal : Prop :=
  ∀ s t, s.runState = .running → step s = .next t → t.runState = .faulted →
    (∃ f, t = faulted f s) ∧ step t = .next t

/-- For an instruction the profile executes: with no data access it does not fault; an access past 65536 (code EA_RANGE, value 1) faults; else a write below CODE_LEN (SMC, value 2) does; else it does not fault. The access of every form is listed (the table of R189). A negative exact sum is past 65536. That the range check comes first and that a diagnostic and a fault never coincide is the sentence after that table, which the spec marks as derived. The model's readings: the fault is a next state (log entry 2), it keeps the diagnostics (log entry 11), and a negative sum is checked through its 32 bits (log entry 12).
(60_exceptions.md sections 1 to 3, 20_memory.md sections 2 to 4) -/
def Obligations.FaultConditions : Prop :=
  (∀ i s, diagnosis i s.params.profile = none →
    ∃ t, exec i s = .next t ∧ t.diagSeen = s.diagSeen ∧ t.lastDiag = s.lastDiag ∧
      match access i s with
      | none => t.runState = s.runState ∧ t.faultCode = s.faultCode
      | some (a, n, writes) =>
        (65536 < a + n → t = faulted .eaRange s) ∧
        (a + n ≤ 65536 → writes = true → a < s.codeLen → t = faulted .smc s) ∧
        (a + n ≤ 65536 → (writes = true → s.codeLen ≤ a) →
          t.runState = s.runState ∧ t.faultCode = s.faultCode)) ∧
  (∀ i s, diagnosis i s.params.profile ≠ none →
    ∃ t, exec i s = .next t ∧ t.runState = s.runState ∧ t.faultCode = s.faultCode) ∧
  faultValue none = 0 ∧ faultValue (some .eaRange) = 1 ∧ faultValue (some .smc) = 2 ∧
  ∀ m s, exactEa m s.regs < 0 → 65536 < eaNat m s + 1

/-- For every instruction with a diagnostic code under the profile, the step sets ip to the end of the instruction, clocks to 0, diag_seen to 1 and last_diag to the code, and changes nothing else: no register, flag, memory byte or total_clocks, and the run goes on.
(R185) -/
def Obligations.DiagnosticNoOp : Prop :=
  ∀ i s code, diagnosis i s.params.profile = some code → exec i s = .next (noOp code i.length s)

/-- SOURCE carries out exactly its 16 rows, FULL the 50 that are not among the 12 cond rows, recording no diagnostic; a cond row is a DIAG_COND_UNMODELED no-op under both profiles and another row left out by SOURCE a DIAG_PROFILE no-op; a fallback is a no-op with the code of its reason under both; EMPTY is the DIAG_EMPTY no-op with ip kept and clocks 0 (this last clause is the model's reading, log entry 9).
(60_exceptions.md sections 1 and 2, 40_decoder.md section 1) -/
def Obligations.ProfileTable : Prop :=
  (∀ i n, i.form = some n →
    (∀ s, n ∈ conditionRows → exec i s = .next (noOp .condUnmodeled i.length s)) ∧
    (∀ s, n ∉ conditionRows → n ∈ sourceRows ∨ s.params.profile = .full →
      diagnosis i s.params.profile = none ∧
      ∃ t, exec i s = .next t ∧ t.diagSeen = s.diagSeen ∧ t.lastDiag = s.lastDiag) ∧
    ∀ s, n ∉ conditionRows → n ∉ sourceRows → s.params.profile = .source →
      exec i s = .next (noOp .profile i.length s)) ∧
  sourceRows.length = 16 ∧ 62 - conditionRows.length = 50 ∧
  (∀ n ∈ sourceRows, n ∉ conditionRows) ∧
  (∀ bs s, exec (.db .unmapped bs) s = .next (noOp .unmapped bs.length s) ∧
    exec (.db .subop bs) s = .next (noOp .subop bs.length s) ∧
    exec (.db .truncated bs) s = .next (noOp .truncated bs.length s)) ∧
  ∀ s buffer position, buffer.length ≤ position →
    execute buffer position s = .next (noOp .empty 0 s)

/-- When the image decodes at ip to a fallback, the step is a diagnostic no-op with the code of the fallback's reason and ip <- CODE_LEN modulo 2^16; the next step halts unless CODE_LEN is 65536 or more.
(43_control.md section 1, 60_exceptions.md section 1) -/
def Obligations.FallbackRunsToTheEnd : Prop :=
  ∀ s reason bs, s.runState = .running → s.ip.toNat < s.codeLen →
    decodeAt s.image s.ip.toNat = some (.db reason bs) →
    ∃ t, step s = .next t ∧
      t = { s with
        ip := BitVec.ofNat 16 s.codeLen
        clocks := 0
        diagSeen := true
        lastDiag := some (reasonCode reason) } ∧
      (s.codeLen < 65536 → step t = .next { t with runState := .halted })

/-- From a running state: after a fault ip is the instruction's first byte; otherwise it is the end of the instruction, modulo 2^16, plus the signed displacement of a jump that the profile executes and whose condition holds; no other instruction writes ip. After a taken jump ip is the target its text prints.
(R161) -/
def Obligations.InstructionPointerContract : Prop :=
  (∀ i s t, s.runState = .running → exec i s = .next t →
    (t.runState = .faulted → t.ip = s.ip) ∧
    (t.runState ≠ .faulted → t.ip = s.ip + BitVec.ofNat 16 i.length +
      (match diagnosis i s.params.profile, takenDisplacement i s with
        | none, some r8 => r8.signExtend 16
        | _, _ => 0#16))) ∧
  ∀ e ∈ jumps, ∀ r8 s t, exec (e.1 r8) s = .next t → diagnosis (e.1 r8) s.params.profile = none →
    takenDisplacement (e.1 r8) s = some r8 → textOf s.ip.toNat (e.1 r8) = e.2 ++ " " ++ hex t.ip.toNat

/-- An instruction that is no ADD, SUB or CMP form leaves both flags as they were, whatever else it does.
(10_state.md section 4) -/
def Obligations.FlagsWrittenOnlyByArithmetic : Prop :=
  ∀ i s t, exec i s = .next t → ¬isArithmetic i → t.zf = s.zf ∧ t.sf = s.sf

/-- Running a MOV form from a state with any other two flags gives the same next state with those two flags: it neither reads nor writes them.
(R108) -/
def Obligations.MovNeitherReadsNorWritesFlags : Prop :=
  ∀ i s t, isMove i → exec i s = .next t →
    t.zf = s.zf ∧ t.sf = s.sf ∧
    ∀ z f, exec i { s with zf := z, sf := f } = .next { t with zf := z, sf := f }

/-- When an instruction gives a next state, every word register that is not its destination, and does not hold its byte destination, is unchanged; with a byte destination every other byte view is unchanged. The destinations are listed: a register of the first operand of MOV, ADD and SUB, the accumulator of the accumulator forms, cx of loop, loopz and loopnz.
(10_state.md section 2, 41_mov.md sections 1 to 5, 42_arith.md section 1, 43_control.md sections 3 and 4) -/
def Obligations.RegistersOtherThanTheDestinationKept : Prop :=
  ∀ i s t, exec i s = .next t →
    (∀ r, destination16 i ≠ some r → (∀ b, destination8 i = some b → r ≠ Reg8.parent b) →
      t.regs.get16 r = s.regs.get16 r) ∧
    ∀ b v, destination8 i = some b → v ≠ b → t.regs.get8 v = s.regs.get8 v

/-- When an instruction gives a next state, every byte outside the one or two bytes of its write access (computed by the meaning's own address function) reads as before; an instruction without a write access changes no byte. The image and the parameters are unchanged.
(20_memory.md sections 2 and 5, 41_mov.md section 1) -/
def Obligations.MemoryOutsideTheStoreKept : Prop :=
  ∀ i s t, exec i s = .next t →
    (∀ x, (∀ a n, access i s = some (a, n, true) → x < a ∨ a + n ≤ x) → t.mem.read x = s.mem.read x) ∧
    t.image = s.image ∧ t.params = s.params

/-- al, cl, dl, bl are bits 7..0 and ah, ch, dh, bh bits 15..8 of ax, cx, dx, bx, in index order; writing a view replaces exactly those bits.
(R17) -/
def Obligations.ByteViewsOfRegisters : Prop :=
  (∀ i : BitVec 3, ∀ r : Regs, r.get8 (Reg8.ofIndex i) =
    if i.toNat < 4 then (r.get16 (Reg16.ofIndex i)).extractLsb' 0 8
    else (r.get16 (Reg16.ofIndex (i - 4#3))).extractLsb' 8 8) ∧
  (∀ i : BitVec 3, ∀ (r : Regs) (v : Byte), r.set8 (Reg8.ofIndex i) v =
    if i.toNat < 4 then r.set16 (Reg16.ofIndex i) ((r.get16 (Reg16.ofIndex i)).extractLsb' 8 8 ++ v)
    else r.set16 (Reg16.ofIndex (i - 4#3)) (v ++ (r.get16 (Reg16.ofIndex (i - 4#3))).extractLsb' 0 8)) ∧
  (List.range 8).map (fun n => Reg8.ofIndex (BitVec.ofNat 3 n)) = [.al, .cl, .dl, .bl, .ah, .ch, .dh, .bh] ∧
  decodeText (bytes [0xb1, 0x0c]) 0 = "mov cl,0xc" ∧
  decodeText (bytes [0x8a, 0x60, 0x04]) 0 = "mov ah,[bx+si+0x4]"

/-- After a write of a byte view, that view reads the written byte and nothing else of the register file has changed: every other view and sp, bp, si, di.
(R18) -/
def Obligations.ByteWriteKeepsTheOtherByte : Prop :=
  ∀ (r : Regs) (i : Reg8) (v : Byte), Put8 i v r (r.set8 i v)

/-- For every r_m of the table of R49 the effective address is the 32-bit sum of its registers, zero-extended, and the displacement, sign-extended; the texts are the table's; mod 00 with r_m 110 decodes to the direct address in the next two bytes, zero-extended; the exact sum lies in [-32768, 163837], and the 32-bit value is the sum itself when it is not negative and at least 0xFFFF8000 when it is (this last clause is the spec's sentence 'so the 32-bit value is the sum itself', which it marks as derived). The model's: the 32-bit value (log entry 12), and bp as the base of the operand without displacement at r_m 110, which no encoding gives (log entry 16).
(20_memory.md section 4) -/
def Obligations.EffectiveAddressSum : Prop :=
  (∀ s (rm : BitVec 3) (d8 : Byte) (d16 : Word),
    effectiveAddress (.noDisp (Base.ofIndex rm)) s = baseOf s rm ∧
    effectiveAddress (.disp8 (Base.ofIndex rm) d8) s = baseOf s rm + d8.signExtend 32 ∧
    effectiveAddress (.disp16 (Base.ofIndex rm) d16) s = baseOf s rm + d16.signExtend 32) ∧
  (List.range 8).map (fun n => textBase (Base.ofIndex (BitVec.ofNat 3 n))) =
    ["bx+si", "bx+di", "bp+si", "bp+di", "si", "di", "bp", "bx"] ∧
  (∀ (reg rm : BitVec 3) rest, rm ≠ 0b110#3 → decodeBytes (0x8B#8 :: (0b00#2 ++ reg ++ rm) :: rest) =
    some (.movR16Rm16 (Reg16.ofIndex reg) (.mem (.noDisp (Base.ofIndex rm))))) ∧
  (∀ (reg : BitVec 3) (lo hi : Byte) rest,
    decodeBytes (0x8B#8 :: (0b00#2 ++ reg ++ 0b110#3) :: lo :: hi :: rest) =
      some (.movR16Rm16 (Reg16.ofIndex reg) (.mem (.direct (hi ++ lo))))) ∧
  (∀ s (a16 : Word), effectiveAddress (.direct a16) s = a16.zeroExtend 32) ∧
  (∀ m (r : Regs), -32768 ≤ exactEa m r ∧ exactEa m r ≤ 163837) ∧
  ∀ m s, (0 ≤ exactEa m s.regs → ((eaNat m s : Nat) : Int) = exactEa m s.regs) ∧
    (exactEa m s.regs < 0 → 0xFFFF8000 ≤ eaNat m s)

/-- For accesses of one and of two bytes, the check on the unsigned 32-bit address is the check that the exact sum lies in [0, 65536 - n]: there is no wrap-around.
(20_memory.md section 4) -/
def Obligations.AddressInRangeByExactSum : Prop :=
  ∀ m s n, n = 1 ∨ n = 2 →
    (eaNat m s + n ≤ 65536 ↔ 0 ≤ exactEa m s.regs ∧ exactEa m s.regs ≤ 65536 - (n : Int))

/-- A read of one or two bytes checks the range and returns the bytes, the lower offset the low byte; a write checks the range, then the image, then stores exactly those bytes and changes nothing else. In a memory of canonical form (log entry 6) the stored value reads back.
(R40, R41) -/
def Obligations.MemoryReadAndWrite : Prop :=
  ∀ (s : State) (a : Nat),
    memRead8 a s = (if a + 1 ≤ 65536 then .ok (s.mem.read a) else .error .eaRange) ∧
    memRead16 a s = (if a + 2 ≤ 65536 then .ok (wordAt s.mem a) else .error .eaRange) ∧
    (∀ v : Byte,
      (65536 < a + 1 → memWrite8 a v s = .error .eaRange) ∧
      (a + 1 ≤ 65536 → a < s.codeLen → memWrite8 a v s = .error .smc) ∧
      (a + 1 ≤ 65536 → s.codeLen ≤ a → s.mem.wf = true →
        ∃ m, memWrite8 a v s = .ok { s with mem := m } ∧ Store8 a v s.mem m)) ∧
    ∀ v : Word,
      (65536 < a + 2 → memWrite16 a v s = .error .eaRange) ∧
      (a + 2 ≤ 65536 → a < s.codeLen → memWrite16 a v s = .error .smc) ∧
      (a + 2 ≤ 65536 → s.codeLen ≤ a → s.mem.wf = true →
        ∃ m, memWrite16 a v s = .ok { s with mem := m } ∧ Store16 a v s.mem m)

/-- The canonical form of the model's memory (log entry 6) is unique: if every offset reads the same, the lists are equal.
(10_state.md section 5 (the array of 65536 bytes)) -/
def Obligations.EqualMemoriesAreEqualData : Prop :=
  ∀ m m' : Memory, m.wf = true → m'.wf = true → (∀ a, m.read a = m'.read a) → m = m'

/-- For every r/m operand that is a register or a writable memory operand, the move completes: the operand holds the source register, the clocks are the register or the memory cost, ip moves past the instruction and nothing else changes. The byte form needs the profile FULL. The source is read before the write, also where it addresses the destination.
(41_mov.md sections 1 and 2, 70_reset_and_hazards.md section 3) -/
def Obligations.MovRegisterToRm : Prop :=
  (∀ dst src s, s.params.profile = .full → s.mem.wf = true → Writable8 dst s →
    Completes (.movRm8R8 dst src) s (cost8 s.params.clk.movRr s.params.clk.movMr dst s) s.zf s.sf
      (Written8 dst (s.regs.get8 src) s)) ∧
  ∀ dst src s, s.mem.wf = true → Writable16 dst s →
    Completes (.movRm16R16 dst src) s (cost16 s.params.clk.movRr s.params.clk.movMr 1 dst s) s.zf s.sf
      (Written16 dst (s.regs.get16 src) s)

/-- For every r/m operand that is a register or a readable memory operand, the load completes: the destination register holds the operand's value before the instruction, the address is computed from the old registers, and nothing else changes but ip and the clocks. The byte form needs the profile FULL.
(41_mov.md sections 1 and 2, 70_reset_and_hazards.md section 3) -/
def Obligations.MovRmToRegister : Prop :=
  (∀ dst src s, s.params.profile = .full → Readable8 src s →
    Completes (.movR8Rm8 dst src) s (cost8 s.params.clk.movRr s.params.clk.movRm src s) s.zf s.sf
      (Written8 (.reg dst) (value8 src s) s)) ∧
  ∀ dst src s, Readable16 src s →
    Completes (.movR16Rm16 dst src) s (cost16 s.params.clk.movRr s.params.clk.movRm 1 src s) s.zf s.sf
      (Written16 (.reg dst) (value16 src s) s)

/-- Under FULL, for every r/m operand that is a register or writable memory, the operand holds the immediate and nothing else changes but ip and the clocks.
(41_mov.md section 3, 70_reset_and_hazards.md section 3) -/
def Obligations.MovImmediateToRm : Prop :=
  (∀ dst imm s, s.params.profile = .full → s.mem.wf = true → Writable8 dst s →
    Completes (.movRm8Imm8 dst imm) s (cost8 s.params.clk.movRi s.params.clk.movMi dst s) s.zf s.sf
      (Written8 dst imm s)) ∧
  ∀ dst imm s, s.params.profile = .full → s.mem.wf = true → Writable16 dst s →
    Completes (.movRm16Imm16 dst imm) s (cost16 s.params.clk.movRi s.params.clk.movMi 1 dst s) s.zf s.sf
      (Written16 dst imm s)

/-- The register holds the immediate, the other byte of a byte destination is kept, and nothing else changes but ip and the clocks. The byte form needs the profile FULL.
(41_mov.md section 4, 70_reset_and_hazards.md section 3) -/
def Obligations.MovImmediateToRegister : Prop :=
  (∀ dst imm s, s.params.profile = .full →
    Completes (.movR8Imm8 dst imm) s s.params.clk.movRi s.zf s.sf (Written8 (.reg dst) imm s)) ∧
  ∀ dst imm s,
    Completes (.movR16Imm16 dst imm) s s.params.clk.movRi s.zf s.sf (Written16 (.reg dst) imm s)

/-- Under FULL the four direct-address forms complete: al or ax loads the byte or word at the address, or is stored there when the address is not below CODE_LEN; a word at 0xffff is excluded; nothing else changes but ip and the clocks.
(41_mov.md section 5, 70_reset_and_hazards.md section 3) -/
def Obligations.MovAccumulatorDirect : Prop :=
  (∀ a16 s, s.params.profile = .full →
    Completes (.movAlMem a16) s s.params.clk.movAm s.zf s.sf
      (Written8 (.reg .al) (s.mem.read a16.toNat) s)) ∧
  (∀ a16 s, s.params.profile = .full → a16 ≠ 0xffff#16 →
    Completes (.movAxMem a16) s (s.params.clk.movAm + odd a16.toNat 1 s) s.zf s.sf
      (Written16 (.reg .ax) (wordAt s.mem a16.toNat) s)) ∧
  (∀ a16 s, s.params.profile = .full → s.mem.wf = true → s.codeLen ≤ a16.toNat →
    Completes (.movMemAl a16) s s.params.clk.movAm s.zf s.sf
      (fun regs mem => regs = s.regs ∧ Store8 a16.toNat (s.regs.get8 .al) s.mem mem)) ∧
  ∀ a16 s, s.params.profile = .full → s.mem.wf = true → a16 ≠ 0xffff#16 → s.codeLen ≤ a16.toNat →
    Completes (.movMemAx a16) s (s.params.clk.movAm + odd a16.toNat 1 s) s.zf s.sf
      (fun regs mem => regs = s.regs ∧ Store16 a16.toNat (s.regs.get16 .ax) s.mem mem)

/-- For every r/m operand that is a register or writable memory, the operand holds operand + source or operand - source modulo 2^W, ZF and SF follow the result, the clocks are the register cost or the memory cost with two word transfers, and nothing else changes but ip. The byte forms need the profile FULL.
(42_arith.md sections 1 to 3, 70_reset_and_hazards.md section 3) -/
def Obligations.AddSubRegisterToRm : Prop :=
  (∀ dst src s, s.params.profile = .full → s.mem.wf = true → Writable8 dst s →
    CompletesByte (.addRm8R8 dst src) s (cost8 s.params.clk.aluRr s.params.clk.aluMr dst s)
      (value8 dst s + s.regs.get8 src) (Written8 dst (value8 dst s + s.regs.get8 src) s) ∧
    CompletesByte (.subRm8R8 dst src) s (cost8 s.params.clk.aluRr s.params.clk.aluMr dst s)
      (value8 dst s - s.regs.get8 src) (Written8 dst (value8 dst s - s.regs.get8 src) s)) ∧
  ∀ dst src s, s.mem.wf = true → Writable16 dst s →
    CompletesWord (.addRm16R16 dst src) s (cost16 s.params.clk.aluRr s.params.clk.aluMr 2 dst s)
      (value16 dst s + s.regs.get16 src) (Written16 dst (value16 dst s + s.regs.get16 src) s) ∧
    CompletesWord (.subRm16R16 dst src) s (cost16 s.params.clk.aluRr s.params.clk.aluMr 2 dst s)
      (value16 dst s - s.regs.get16 src) (Written16 dst (value16 dst s - s.regs.get16 src) s)

/-- For every r/m operand that is a register or readable memory, the register holds register + operand or register - operand modulo 2^W, ZF and SF follow the result, and nothing else changes but ip and the clocks (one word transfer from memory). The byte forms need the profile FULL.
(42_arith.md sections 1 to 3, 70_reset_and_hazards.md section 3) -/
def Obligations.AddSubRmToRegister : Prop :=
  (∀ dst src s, s.params.profile = .full → Readable8 src s →
    CompletesByte (.addR8Rm8 dst src) s (cost8 s.params.clk.aluRr s.params.clk.aluRm src s)
      (s.regs.get8 dst + value8 src s) (Written8 (.reg dst) (s.regs.get8 dst + value8 src s) s) ∧
    CompletesByte (.subR8Rm8 dst src) s (cost8 s.params.clk.aluRr s.params.clk.aluRm src s)
      (s.regs.get8 dst - value8 src s) (Written8 (.reg dst) (s.regs.get8 dst - value8 src s) s)) ∧
  ∀ dst src s, Readable16 src s →
    CompletesWord (.addR16Rm16 dst src) s (cost16 s.params.clk.aluRr s.params.clk.aluRm 1 src s)
      (s.regs.get16 dst + value16 src s) (Written16 (.reg dst) (s.regs.get16 dst + value16 src s) s) ∧
    CompletesWord (.subR16Rm16 dst src) s (cost16 s.params.clk.aluRr s.params.clk.aluRm 1 src s)
      (s.regs.get16 dst - value16 src s) (Written16 (.reg dst) (s.regs.get16 dst - value16 src s) s)

/-- Under FULL the accumulator holds accumulator + immediate or accumulator - immediate modulo 2^W, ZF and SF follow the result, and nothing else changes but ip and the clocks.
(42_arith.md sections 1 to 3, 70_reset_and_hazards.md section 3) -/
def Obligations.AddSubAccumulatorImmediate : Prop :=
  ∀ s, s.params.profile = .full →
    (∀ imm,
      CompletesByte (.addAlImm8 imm) s s.params.clk.aluAi (s.regs.get8 .al + imm)
        (Written8 (.reg .al) (s.regs.get8 .al + imm) s) ∧
      CompletesByte (.subAlImm8 imm) s s.params.clk.aluAi (s.regs.get8 .al - imm)
        (Written8 (.reg .al) (s.regs.get8 .al - imm) s)) ∧
    ∀ imm,
      CompletesWord (.addAxImm16 imm) s s.params.clk.aluAi (s.regs.get16 .ax + imm)
        (Written16 (.reg .ax) (s.regs.get16 .ax + imm) s) ∧
      CompletesWord (.subAxImm16 imm) s s.params.clk.aluAi (s.regs.get16 .ax - imm)
        (Written16 (.reg .ax) (s.regs.get16 .ax - imm) s)

/-- For every r/m operand that is a register or writable memory, the operand holds operand + immediate or operand - immediate modulo 2^W, the 0x83 immediate sign-extended and 0x82 as 0x80; ZF and SF follow the result, and nothing else changes but ip and the clocks (two word transfers). The byte forms need the profile FULL.
(42_arith.md sections 1 to 3, 30_encoding.md section 2, 70_reset_and_hazards.md section 3) -/
def Obligations.AddSubImmediateToRm : Prop :=
  (∀ dst imm s, s.params.profile = .full → s.mem.wf = true → Writable8 dst s →
    ∀ i, (i = .addRm8Imm8 dst imm ∨ i = .addRm8Imm8Alias dst imm →
        CompletesByte i s (cost8 s.params.clk.aluRi s.params.clk.aluMi dst s)
          (value8 dst s + imm) (Written8 dst (value8 dst s + imm) s)) ∧
      (i = .subRm8Imm8 dst imm ∨ i = .subRm8Imm8Alias dst imm →
        CompletesByte i s (cost8 s.params.clk.aluRi s.params.clk.aluMi dst s)
          (value8 dst s - imm) (Written8 dst (value8 dst s - imm) s))) ∧
  ∀ dst s, s.mem.wf = true → Writable16 dst s →
    (∀ imm,
      CompletesWord (.addRm16Imm16 dst imm) s (cost16 s.params.clk.aluRi s.params.clk.aluMi 2 dst s)
        (value16 dst s + imm) (Written16 dst (value16 dst s + imm) s) ∧
      CompletesWord (.subRm16Imm16 dst imm) s (cost16 s.params.clk.aluRi s.params.clk.aluMi 2 dst s)
        (value16 dst s - imm) (Written16 dst (value16 dst s - imm) s)) ∧
    ∀ imm : Byte,
      CompletesWord (.addRm16SImm8 dst imm) s (cost16 s.params.clk.aluRi s.params.clk.aluMi 2 dst s)
        (value16 dst s + imm.signExtend 16) (Written16 dst (value16 dst s + imm.signExtend 16) s) ∧
      CompletesWord (.subRm16SImm8 dst imm) s (cost16 s.params.clk.aluRi s.params.clk.aluMi 2 dst s)
        (value16 dst s - imm.signExtend 16) (Written16 dst (value16 dst s - imm.signExtend 16) s)

/-- For every r/m operand that is a register or readable memory, the image region included, ZF and SF follow first operand - second operand and nothing else changes but ip and the clocks. The byte forms need the profile FULL.
(42_arith.md sections 1 and 4, 70_reset_and_hazards.md section 3) -/
def Obligations.CmpRegisterAndRm : Prop :=
  (∀ o r s, s.params.profile = .full → Readable8 o s →
    CompletesByte (.cmpRm8R8 o r) s (cost8 s.params.clk.cmpRr s.params.clk.cmpMr o s)
      (value8 o s - s.regs.get8 r) (Unwritten s) ∧
    CompletesByte (.cmpR8Rm8 r o) s (cost8 s.params.clk.cmpRr s.params.clk.cmpRm o s)
      (s.regs.get8 r - value8 o s) (Unwritten s)) ∧
  ∀ o r s, Readable16 o s →
    CompletesWord (.cmpRm16R16 o r) s (cost16 s.params.clk.cmpRr s.params.clk.cmpMr 1 o s)
      (value16 o s - s.regs.get16 r) (Unwritten s) ∧
    CompletesWord (.cmpR16Rm16 r o) s (cost16 s.params.clk.cmpRr s.params.clk.cmpRm 1 o s)
      (s.regs.get16 r - value16 o s) (Unwritten s)

/-- For al and ax, and for every r/m operand that is a register or readable memory, ZF and SF follow operand - immediate (the 0x83 immediate sign-extended, 0x82 as 0x80) and nothing else changes but ip and the clocks. The byte and accumulator forms need the profile FULL.
(42_arith.md sections 1 and 4, 30_encoding.md section 2, 70_reset_and_hazards.md section 3) -/
def Obligations.CmpImmediate : Prop :=
  (∀ imm s, s.params.profile = .full →
    CompletesByte (.cmpAlImm8 imm) s s.params.clk.cmpAi (s.regs.get8 .al - imm) (Unwritten s)) ∧
  (∀ imm s, s.params.profile = .full →
    CompletesWord (.cmpAxImm16 imm) s s.params.clk.cmpAi (s.regs.get16 .ax - imm) (Unwritten s)) ∧
  (∀ o imm s, s.params.profile = .full → Readable8 o s →
    ∀ i, i = .cmpRm8Imm8 o imm ∨ i = .cmpRm8Imm8Alias o imm →
      CompletesByte i s (cost8 s.params.clk.cmpRi s.params.clk.cmpMi o s) (value8 o s - imm) (Unwritten s)) ∧
  ∀ o s, Readable16 o s →
    (∀ imm, CompletesWord (.cmpRm16Imm16 o imm) s (cost16 s.params.clk.cmpRi s.params.clk.cmpMi 1 o s)
      (value16 o s - imm) (Unwritten s)) ∧
    ∀ imm : Byte, CompletesWord (.cmpRm16SImm8 o imm) s (cost16 s.params.clk.cmpRi s.params.clk.cmpMi 1 o s)
      (value16 o s - imm.signExtend 16) (Unwritten s)

/-- Whatever the operand and the profile, a CMP form leaves every register and all of memory as they were, and never sets the fault code SMC.
(42_arith.md section 1) -/
def Obligations.CmpStoresNothing : Prop :=
  ∀ i s t, isCompare i → exec i s = .next t →
    t.regs = s.regs ∧ t.mem = s.mem ∧ (t.faultCode = some .smc → s.faultCode = some .smc)

/-- For every word register: sub r,r writes 0 and sets ZF = 1, SF = 0; cmp r,r sets the same flags and writes nothing; add r,r doubles r modulo 2^16; the same at byte width under FULL (the spec's sentence 'When the source and destination are the same register', which it marks as derived).
(42_arith.md section 1) -/
def Obligations.SameRegisterArithmetic : Prop :=
  (∀ r s,
    (∃ t, exec (.subRm16R16 (.reg r) r) s = .next t ∧ t.regs.get16 r = 0#16 ∧ t.zf = true ∧ t.sf = false) ∧
    (∃ t, exec (.cmpRm16R16 (.reg r) r) s = .next t ∧ t.regs = s.regs ∧ t.zf = true ∧ t.sf = false) ∧
    ∃ t, exec (.addRm16R16 (.reg r) r) s = .next t ∧
      (t.regs.get16 r).toNat = 2 * (s.regs.get16 r).toNat % 65536) ∧
  ∀ r s, s.params.profile = .full →
    (∃ t, exec (.subRm8R8 (.reg r) r) s = .next t ∧ t.regs.get8 r = 0#8 ∧ t.zf = true ∧ t.sf = false) ∧
    (∃ t, exec (.cmpRm8R8 (.reg r) r) s = .next t ∧ t.regs = s.regs ∧ t.zf = true ∧ t.sf = false) ∧
    ∃ t, exec (.addRm8R8 (.reg r) r) s = .next t ∧
      (t.regs.get8 r).toNat = 2 * (s.regs.get8 r).toNat % 256

/-- jnz under both profiles, and jz, js, jns under FULL, go to the end of the jump plus the signed displacement when their condition on ZF or SF holds and to its end otherwise, with the taken or the not-taken cost, and change nothing else.
(43_control.md sections 2 and 3, 70_reset_and_hazards.md section 3) -/
def Obligations.ConditionalJumps : Prop :=
  (∀ r8 s, Jumps (.jnz r8) s s.regs (!s.zf) r8 s.params.clk.jccTaken s.params.clk.jccNotTaken) ∧
  ∀ r8 s, s.params.profile = .full →
    Jumps (.jz r8) s s.regs s.zf r8 s.params.clk.jccTaken s.params.clk.jccNotTaken ∧
    Jumps (.js r8) s s.regs s.sf r8 s.params.clk.jccTaken s.params.clk.jccNotTaken ∧
    Jumps (.jns r8) s s.regs (!s.sf) r8 s.params.clk.jccTaken s.params.clk.jccNotTaken

/-- jo, jno, jb, jnb, jbe, ja, jp, jnp, jl, jnl, jle, jg fall through with DIAG_COND_UNMODELED whatever the flags and the profile (jbe with ZF = 1 too); a fallback moves ip past its bytes with the code of its reason; clocks is 0 and nothing else changes.
(43_control.md section 3, 60_exceptions.md section 1) -/
def Obligations.UnmodelledConditionsAndFallbacks : Prop :=
  (∀ i r8 s,
    (i = .jo r8 ∨ i = .jno r8 ∨ i = .jb r8 ∨ i = .jnb r8 ∨ i = .jbe r8 ∨ i = .ja r8 ∨
      i = .jp r8 ∨ i = .jnp r8 ∨ i = .jl r8 ∨ i = .jnl r8 ∨ i = .jle r8 ∨ i = .jg r8) →
    exec i s = .next (noOp .condUnmodeled 2 s)) ∧
  ∀ bs s,
    exec (.db .unmapped bs) s = .next (noOp .unmapped bs.length s) ∧
    exec (.db .subop bs) s = .next (noOp .subop bs.length s) ∧
    exec (.db .truncated bs) s = .next (noOp .truncated bs.length s)

/-- Under FULL, loop, loopz and loopnz decrement cx modulo 2^16 whether taken or not and jump when the new cx is not 0 and, for loopz and loopnz, ZF is 1 or 0; jcxz jumps when cx is 0 and does not change it; each has its own two costs and changes nothing else, no flag in particular.
(43_control.md section 4, 70_reset_and_hazards.md section 3) -/
def Obligations.LoopFamily : Prop :=
  ∀ r8 s, s.params.profile = .full →
    (∀ regs, regs = { s.regs with cx := s.regs.cx - 1#16 } →
      Jumps (.loop r8) s regs (decide (s.regs.cx ≠ 1#16)) r8 s.params.clk.loopTaken s.params.clk.loopNotTaken ∧
      Jumps (.loopz r8) s regs (decide (s.regs.cx ≠ 1#16) && s.zf) r8
        s.params.clk.loopzTaken s.params.clk.loopzNotTaken ∧
      Jumps (.loopnz r8) s regs (decide (s.regs.cx ≠ 1#16) && !s.zf) r8
        s.params.clk.loopnzTaken s.params.clk.loopnzNotTaken) ∧
    Jumps (.jcxz r8) s s.regs (decide (s.regs.cx = 0#16)) r8 s.params.clk.jcxzTaken s.params.clk.jcxzNotTaken

/-- After reset every general register, both flags, ip and both counts are 0, the status record is RUNNING, NONE, 0, NONE, every byte of memory reads 0 (nothing is loaded: the empty image is the model's choice, log entry 4), and a packed flags word has ZF at bit 6 and SF at bit 7.
(10_state.md sections 2 to 7, 70_reset_and_hazards.md section 1) -/
def Obligations.ResetState : Prop :=
  (∀ r, State.reset.regs.get16 r = 0#16) ∧ State.reset.ip = 0#16 ∧
  State.reset.zf = false ∧ State.reset.sf = false ∧
  State.reset.clocks = 0 ∧ State.reset.totalClocks = 0 ∧
  State.reset.runState = .running ∧ State.reset.faultCode = none ∧
  State.reset.diagSeen = false ∧ State.reset.lastDiag = none ∧
  (∀ a, State.reset.mem.read a = 0#8) ∧
  ∀ s : State, packedFlags s = (if s.zf then 64#16 else 0#16) + (if s.sf then 128#16 else 0#16)

/-- The program mov ax,0x5; mov bx,0x5; sub ax,bx traces as the spec shows, halts, and its register dump is the spec's, with the default tables.
(95_test_vectors.md section 1 (X-7), 70_reset_and_hazards.md sections 2 and 3) -/
def Obligations.TraceOfTheSpecProgram : Prop :=
  let s := loadedState defaultParams (bytes [0xb8, 0x05, 0x00, 0xbb, 0x05, 0x00, 0x29, 0xd8])
  runTrace 4 s =
    ["mov ax,0x5 ; Clocks: +4 = 4", "mov bx,0x5 ; Clocks: +4 = 8", "sub ax,bx ; Clocks: +3 = 11"] ∧
  (runSteps 4 s).runState = .halted ∧
  dumpLines (runSteps 4 s) =
    ["Final registers:", "    ax: 0x0000", "    cx: 0x0000", "    dx: 0x0000", "    bx: 0x0005",
      "    sp: 0x0000", "    bp: 0x0000", "    si: 0x0000", "    di: 0x0000", "    ip: 0x0008",
      "    flags: -Z", "    clocks: 11"]

/-- decode at a position gives a record with kind, start and len; for an instruction also its row, opcode byte and the fields of its format (d, w, s, mod, reg, rm, the signed displacement or unsigned direct address, the immediate after sign extension, a16, the signed r8), each equal to those bits of the bytes; for a fallback its reason; EMPTY at the end of the buffer; start + len is next_position. Which fields a format has is the model's reading (log entry 17).
(40_decoder.md section 2, 30_encoding.md sections 2 to 4, 20_memory.md section 4) -/
def Obligations.DecodedRecordFields : Prop :=
  (∀ buffer position i n, decodeAt buffer position = some i → i.form = some n →
    decodeRecord buffer position = fieldsOfBytes n (buffer.drop position)
      { kind := .inst, start := position, len := i.length, form := some n, op := buffer[position]? }) ∧
  (∀ buffer position reason bs, decodeAt buffer position = some (.db reason bs) →
    decodeRecord buffer position =
      { kind := .fallback, start := position, len := (buffer.drop position).length, reason := some reason }) ∧
  (∀ buffer position, buffer.length ≤ position →
    decodeRecord buffer position = { kind := .empty, start := position, len := 0 }) ∧
  ∀ buffer position,
    (decodeRecord buffer position).start + (decodeRecord buffer position).len = nextPosition buffer position
end

