-- ==== Sys2Proof/Laws/Registers.lean ====
section
/-! SUPPORT. The laws of the register file and of its byte views. -/

namespace Sys2Proof.Machine

@[simp] theorem get16_set16_self (r : Regs) (i : Reg16) (v : Word) : (r.set16 i v).get16 i = v := by
  cases i <;> rfl

theorem get16_set16_other (r : Regs) {i j : Reg16} (v : Word) (h : j ≠ i) :
    (r.set16 i v).get16 j = r.get16 j := by
  cases i <;> cases j <;> first | rfl | exact absurd rfl h

/-- The bits of a word made of two bytes. -/
theorem getLsbD_combine (hi lo : Byte) (i : Nat) :
    (combine hi lo).getLsbD i = if i < 8 then lo.getLsbD i else hi.getLsbD (i - 8) :=
  BitVec.getLsbD_append (x := hi) (y := lo)

@[simp] theorem lowByte_combine (hi lo : Byte) : lowByte (combine hi lo) = lo := by
  refine BitVec.eq_of_getLsbD_eq fun i h => ?_
  simp [lowByte, getLsbD_combine, h]

@[simp] theorem highByte_combine (hi lo : Byte) : highByte (combine hi lo) = hi := by
  refine BitVec.eq_of_getLsbD_eq fun i h => ?_
  simp [highByte, getLsbD_combine, h]

@[simp] theorem combine_high_low (v : Word) : combine (highByte v) (lowByte v) = v := by
  refine BitVec.eq_of_getLsbD_eq fun i h => ?_
  by_cases h8 : i < 8
  · simp [lowByte, getLsbD_combine, h8]
  · simp [highByte, getLsbD_combine, h8, show i - 8 < 8 by omega, show 8 + (i - 8) = i by omega]

@[simp] theorem get8_set8_self (r : Regs) (i : Reg8) (v : Byte) : (r.set8 i v).get8 i = v := by
  cases i <;> simp [Regs.set8, Regs.get8, Reg8.parent, Reg8.isHigh]

theorem get8_set8_other (r : Regs) {i j : Reg8} (v : Byte) (h : j ≠ i) : (r.set8 i v).get8 j = r.get8 j := by
  cases i <;> cases j <;>
    first
    | exact absurd rfl h
    | simp [Regs.set8, Regs.get8, Reg8.parent, Reg8.isHigh, Regs.get16, Regs.set16]

theorem get16_set8_other (r : Regs) {i : Reg8} {j : Reg16} (v : Byte) (h : j ≠ Reg8.parent i) :
    (r.set8 i v).get16 j = r.get16 j :=
  get16_set16_other r _ h

end Sys2Proof.Machine
end

