-- ==== Sys2Proof/Laws/Decode.lean ====
section
/-! SUPPORT. The laws of the decoder's parts: each reading operation against the bytes the encoder writes, in
both directions. -/

namespace Sys2Proof

open Sys2Proof.Machine

/-! ### Reading in sequence -/

@[simp] theorem except_ok_bind {ε α β : Type} (a : α) (f : α → Except ε β) : (Except.ok a >>= f) = f a := rfl
@[simp] theorem except_error_bind {ε α β : Type} (e : ε) (f : α → Except ε β) :
    ((Except.error e : Except ε α) >>= f) = .error e := rfl
@[simp] theorem except_ok_map {ε α β : Type} (a : α) (f : α → β) :
    (f <$> (Except.ok a : Except ε α)) = .ok (f a) := rfl
@[simp] theorem except_error_map {ε α β : Type} (e : ε) (f : α → β) :
    (f <$> (Except.error e : Except ε α)) = .error e := rfl
@[simp] theorem except_pure {ε α : Type} (a : α) : (pure a : Except ε α) = .ok a := rfl
@[simp] theorem except_throw {ε α : Type} (e : ε) : (throw e : Except ε α) = .error e := rfl

/-! ### Register and base numbers -/

@[simp] theorem Reg16.ofIndex_index (r : Reg16) : Reg16.ofIndex r.index = r := by cases r <;> rfl
@[simp] theorem Reg8.ofIndex_index (r : Reg8) : Reg8.ofIndex r.index = r := by cases r <;> rfl
@[simp] theorem Base.ofIndex_index (b : Base) : Base.ofIndex b.index = b := by cases b <;> rfl
@[simp] theorem Reg16.index_ofIndex : ∀ i, (Reg16.ofIndex i).index = i := by decide
@[simp] theorem Reg8.index_ofIndex : ∀ i, (Reg8.ofIndex i).index = i := by decide
@[simp] theorem Base.index_ofIndex : ∀ i, (Base.ofIndex i).index = i := by decide

theorem Base.index_eq_bp (b : Base) : b.index = 0b110#3 ↔ b = .bp := by cases b <;> decide
theorem Base.ofIndex_eq_bp : ∀ i, Base.ofIndex i = .bp ↔ i = 0b110#3 := by decide

/-! ### The mod/reg/r_m byte -/

@[simp] theorem ModRegRm.ofByte_toByte (f : ModRegRm) : ModRegRm.ofByte f.toByte = f := by
  obtain ⟨mod, reg, rm⟩ := f
  revert mod reg rm
  decide

@[simp] theorem ModRegRm.toByte_ofByte : ∀ m : Byte, (ModRegRm.ofByte m).toByte = m := by decide

/-! ### Operands and their fields -/

@[simp] theorem RM8.ofField_field (o : RM8) : RM8.ofField o.field = o := by cases o <;> simp [RM8.field, RM8.ofField]
@[simp] theorem RM16.ofField_field (o : RM16) : RM16.ofField o.field = o := by
  cases o <;> simp [RM16.field, RM16.ofField]
@[simp] theorem RM8.field_ofField (f : RmField) : (RM8.ofField f).field = f := by cases f <;> simp [RM8.field, RM8.ofField]
@[simp] theorem RM16.field_ofField (f : RmField) : (RM16.ofField f).field = f := by
  cases f <;> simp [RM16.field, RM16.ofField]

/-- The operand of a field is one the encoding admits. -/
def RmField.wf : RmField → Bool
  | .reg _ => true
  | .mem m => m.wf

@[simp] theorem RM8.field_wf (o : RM8) : o.field.wf = o.wf := by cases o <;> rfl
@[simp] theorem RM16.field_wf (o : RM16) : o.field.wf = o.wf := by cases o <;> rfl
@[simp] theorem RM8.ofField_wf (f : RmField) : (RM8.ofField f).wf = f.wf := by cases f <;> rfl
@[simp] theorem RM16.ofField_wf (f : RmField) : (RM16.ofField f).wf = f.wf := by cases f <;> rfl

/-- The displacement bytes of a field. -/
def RmField.dispLen : RmField → Nat
  | .reg _ => 0
  | .mem m => m.dispLen

@[simp] theorem RM8.field_dispLen (o : RM8) : o.field.dispLen = o.dispLen := by cases o <;> rfl
@[simp] theorem RM16.field_dispLen (o : RM16) : o.field.dispLen = o.dispLen := by cases o <;> rfl
@[simp] theorem RM8.ofField_dispLen (f : RmField) : (RM8.ofField f).dispLen = f.dispLen := by cases f <;> rfl
@[simp] theorem RM16.ofField_dispLen (f : RmField) : (RM16.ofField f).dispLen = f.dispLen := by cases f <;> rfl

@[simp] theorem wordBytes_length (v : Word) : (wordBytes v).length = 2 := rfl

@[simp] theorem rmBytes_length (reg : BitVec 3) (f : RmField) : (rmBytes reg f).length = 1 + f.dispLen := by
  cases f with
  | reg i => rfl
  | mem m => cases m <;> rfl

/-- The encoder writes as many bytes as the instruction is long (R74). -/
theorem encode_length (i : Instr) : (encode i).length = i.length := by
  cases i <;> simp [encode, Instr.length] <;> omega

/-! ### Reading what the encoder wrote -/

@[simp] theorem takeByte_cons (b : Byte) (rest : List Byte) : takeByte (b :: rest) = some (b, rest) := rfl

@[simp] theorem takeWord_wordBytes (v : Word) (rest : List Byte) :
    takeWord (wordBytes v ++ rest) = some (v, rest) := by
  simp [takeWord, wordBytes]

/-- Reading the r/m operand back from its bytes. -/
theorem takeRm_rmBytes (reg : BitVec 3) {f : RmField} (h : f.wf = true) (rest : List Byte) :
    ∃ m bytes, rmBytes reg f ++ rest = m :: bytes ∧ (ModRegRm.ofByte m).reg = reg ∧
      takeRm (ModRegRm.ofByte m).mod (ModRegRm.ofByte m).rm bytes = some (f, rest) := by
  match f, h with
  | .reg i, _ => exact ⟨_, rest, rfl, by simp, by simp [takeRm]⟩
  | .mem (.noDisp b), h =>
    refine ⟨_, rest, rfl, by simp, ?_⟩
    have hb : ¬b.index = 0b110#3 := by
      rw [Base.index_eq_bp]; simpa [RmField.wf, MemOp.wf] using h
    simp [takeRm, hb]
  | .mem (.direct a), _ => exact ⟨_, wordBytes a ++ rest, rfl, by simp, by simp [takeRm]⟩
  | .mem (.disp8 b d), _ => exact ⟨_, d :: rest, rfl, by simp, by simp [takeRm]⟩
  | .mem (.disp16 b d), _ => exact ⟨_, wordBytes d ++ rest, rfl, by simp, by simp [takeRm]⟩

theorem formRm_rmBytes (mk : RmField → BitVec 3 → Instr) (reg : BitVec 3) {f : RmField} (h : f.wf = true)
    (rest : List Byte) : formRm mk (rmBytes reg f ++ rest) = .ok (mk f reg) := by
  obtain ⟨m, bytes, heq, hreg, htake⟩ := takeRm_rmBytes reg h rest
  rw [heq]
  simp [formRm, orTruncated, htake, hreg]

theorem formRmi_rmBytes {α ι : Type} (ofField : RmField → α) (takeImm : List Byte → Option (ι × List Byte))
    (select : BitVec 3 → Option (α → ι → Instr)) (reg : BitVec 3) {f : RmField} (h : f.wf = true)
    {mk : α → ι → Instr} (hs : select reg = some mk) {imm : ι} {bytes rest : List Byte}
    (hi : takeImm bytes = some (imm, rest)) :
    formRmi ofField takeImm select (rmBytes reg f ++ bytes) = .ok (mk (ofField f) imm) := by
  obtain ⟨m, more, heq, hreg, htake⟩ := takeRm_rmBytes reg h bytes
  rw [heq]
  simp [formRmi, orTruncated, htake, hreg, hs, hi]

/-! ### Writing what the decoder read -/

theorem takeWord_eq_some {bytes rest : List Byte} {v : Word} (h : takeWord bytes = some (v, rest)) :
    bytes = wordBytes v ++ rest := by
  match bytes, h with
  | lo :: hi :: more, h =>
    simp only [takeWord, Option.some.injEq, Prod.mk.injEq] at h
    obtain ⟨rfl, rfl⟩ := h
    simp [wordBytes]

theorem takeByte_eq_some {bytes rest : List Byte} {b : Byte} (h : takeByte bytes = some (b, rest)) :
    bytes = b :: rest := by
  match bytes, h with
  | c :: more, h =>
    simp only [takeByte, Option.some.injEq, Prod.mk.injEq] at h
    obtain ⟨rfl, rfl⟩ := h
    rfl

/-- A field read from a mod/reg/r_m byte and the bytes after it is one the encoding admits, and encodes to
what was read. -/
theorem takeRm_eq_some {m : Byte} {bytes rest : List Byte} {f : RmField}
    (h : takeRm (ModRegRm.ofByte m).mod (ModRegRm.ofByte m).rm bytes = some (f, rest)) :
    f.wf = true ∧ rmBytes (ModRegRm.ofByte m).reg f ++ rest = m :: bytes := by
  have hm : m = (ModRegRm.ofByte m).toByte := (ModRegRm.toByte_ofByte m).symm
  generalize ModRegRm.ofByte m = F at *
  subst hm
  obtain ⟨mod, reg, rm⟩ := F
  have h4 : ∀ x : BitVec 2, x = 0b00#2 ∨ x = 0b01#2 ∨ x = 0b10#2 ∨ x = 0b11#2 := by decide
  obtain rfl | rfl | rfl | rfl := h4 mod
  · by_cases hrm : rm = 0b110#3
    · subst hrm
      cases ht : takeWord bytes with
      | none => simp [takeRm, ht] at h
      | some p =>
        obtain ⟨a, r⟩ := p
        simp [takeRm, ht] at h
        obtain ⟨rfl, rfl⟩ := h
        exact ⟨rfl, by rw [takeWord_eq_some ht]; rfl⟩
    · simp [takeRm, hrm] at h
      obtain ⟨rfl, rfl⟩ := h
      refine ⟨?_, by simp [rmBytes]⟩
      have : ¬Base.ofIndex rm = .bp := by rw [Base.ofIndex_eq_bp]; exact hrm
      simpa [RmField.wf, MemOp.wf] using this
  · cases ht : takeByte bytes with
    | none => simp [takeRm, ht] at h
    | some p =>
      obtain ⟨d, r⟩ := p
      simp [takeRm, ht] at h
      obtain ⟨rfl, rfl⟩ := h
      exact ⟨rfl, by rw [takeByte_eq_some ht]; simp [rmBytes]⟩
  · cases ht : takeWord bytes with
    | none => simp [takeRm, ht] at h
    | some p =>
      obtain ⟨d, r⟩ := p
      simp [takeRm, ht] at h
      obtain ⟨rfl, rfl⟩ := h
      exact ⟨rfl, by rw [takeWord_eq_some ht]; simp [rmBytes]⟩
  · simp [takeRm] at h
    obtain ⟨rfl, rfl⟩ := h
    exact ⟨rfl, by simp [rmBytes]⟩

/-- What format RM decodes (R88). -/
theorem formRm_eq_ok {mk : RmField → BitVec 3 → Instr} {bytes : List Byte} {i : Instr}
    (h : formRm mk bytes = .ok i) :
    ∃ reg f rest, i = mk f reg ∧ f.wf = true ∧ bytes = rmBytes reg f ++ rest := by
  cases bytes with
  | nil => exact absurd h (by simp [formRm, takeByte, orTruncated])
  | cons m bytes =>
    cases ht : takeRm (ModRegRm.ofByte m).mod (ModRegRm.ofByte m).rm bytes with
    | none => exact absurd h (by simp [formRm, orTruncated, ht])
    | some p =>
      obtain ⟨f, rest⟩ := p
      simp [formRm, orTruncated, ht] at h
      obtain ⟨hwf, hb⟩ := takeRm_eq_some ht
      exact ⟨_, f, rest, h.symm, hwf, hb.symm⟩

/-- What format RMI decodes (R88). -/
theorem formRmi_eq_ok {α ι : Type} {ofField : RmField → α} {takeImm : List Byte → Option (ι × List Byte)}
    {select : BitVec 3 → Option (α → ι → Instr)} {bytes : List Byte} {i : Instr}
    (h : formRmi ofField takeImm select bytes = .ok i) :
    ∃ reg mk f imm more rest, select reg = some mk ∧ i = mk (ofField f) imm ∧ f.wf = true ∧
      bytes = rmBytes reg f ++ more ∧ takeImm more = some (imm, rest) := by
  cases bytes with
  | nil => exact absurd h (by simp [formRmi, takeByte, orTruncated])
  | cons m bytes =>
    cases hs : select (ModRegRm.ofByte m).reg with
    | none => exact absurd h (by simp [formRmi, orTruncated, hs])
    | some mk =>
      cases ht : takeRm (ModRegRm.ofByte m).mod (ModRegRm.ofByte m).rm bytes with
      | none => exact absurd h (by simp [formRmi, orTruncated, hs, ht])
      | some p =>
        obtain ⟨f, more⟩ := p
        cases hi : takeImm more with
        | none => exact absurd h (by simp [formRmi, orTruncated, hs, ht, hi])
        | some q =>
          obtain ⟨imm, rest⟩ := q
          simp [formRmi, orTruncated, hs, ht, hi] at h
          obtain ⟨hwf, hb⟩ := takeRm_eq_some ht
          exact ⟨_, mk, f, imm, more, rest, hs, h.symm, hwf, hb.symm, hi⟩

/-- What a byte after the opcode decodes to. -/
theorem formImm8_eq_ok {mk : Byte → Instr} {bytes : List Byte} {i : Instr} (h : formImm8 mk bytes = .ok i) :
    ∃ imm rest, i = mk imm ∧ bytes = imm :: rest := by
  cases bytes with
  | nil => exact absurd h (by simp [formImm8, takeByte, orTruncated])
  | cons b bytes =>
    simp [formImm8, orTruncated] at h
    exact ⟨b, bytes, h.symm, rfl⟩

/-- What a word after the opcode decodes to. -/
theorem formImm16_eq_ok {mk : Word → Instr} {bytes : List Byte} {i : Instr} (h : formImm16 mk bytes = .ok i) :
    ∃ imm rest, i = mk imm ∧ bytes = wordBytes imm ++ rest := by
  cases ht : takeWord bytes with
  | none => exact absurd h (by simp [formImm16, ht, orTruncated])
  | some p =>
    obtain ⟨v, rest⟩ := p
    simp [formImm16, ht, orTruncated] at h
    exact ⟨v, rest, h.symm, takeWord_eq_some ht⟩

theorem formImm8_cons (mk : Byte → Instr) (b : Byte) (rest : List Byte) :
    formImm8 mk (b :: rest) = .ok (mk b) := rfl

theorem formImm16_wordBytes (mk : Word → Instr) (v : Word) (rest : List Byte) :
    formImm16 mk (wordBytes v ++ rest) = .ok (mk v) := by
  simp [formImm16, orTruncated]

/-! ### Running out of bytes -/

theorem takeByte_eq_none {bytes : List Byte} : takeByte bytes = none ↔ bytes.length < 1 := by
  cases bytes <;> simp [takeByte]

theorem takeWord_eq_none {bytes : List Byte} : takeWord bytes = none ↔ bytes.length < 2 := by
  match bytes with
  | [] => simp [takeWord]
  | [_] => simp [takeWord]
  | _ :: _ :: _ => simp [takeWord]

/-- The displacement bytes of R70 by the fields. -/
theorem displacementBytes_fields : ∀ m : Byte, displacementBytes m.toNat =
    match (ModRegRm.ofByte m).mod.toNat with
    | 0 => if (ModRegRm.ofByte m).rm = 0b110#3 then 2 else 0
    | 1 => 1
    | 2 => 2
    | _ => 0 := by decide

/-- The r/m operand cannot be read exactly when its displacement bytes are not all there. -/
theorem takeRm_eq_none (m : Byte) (bytes : List Byte) :
    takeRm (ModRegRm.ofByte m).mod (ModRegRm.ofByte m).rm bytes = none ↔
      bytes.length < displacementBytes m.toNat := by
  rw [displacementBytes_fields]
  generalize ModRegRm.ofByte m = f
  obtain ⟨mod, reg, rm⟩ := f
  have h4 : ∀ x : BitVec 2, x = 0b00#2 ∨ x = 0b01#2 ∨ x = 0b10#2 ∨ x = 0b11#2 := by decide
  obtain rfl | rfl | rfl | rfl := h4 mod
  · by_cases hrm : rm = 0b110#3 <;> simp [takeRm, hrm, takeWord_eq_none]
  · simp [takeRm, takeByte_eq_none]
  · simp [takeRm, takeWord_eq_none]
  · simp [takeRm]

/-- A field that was read took the displacement bytes of R70. -/
theorem takeRm_length {m : Byte} {bytes rest : List Byte} {f : RmField}
    (h : takeRm (ModRegRm.ofByte m).mod (ModRegRm.ofByte m).rm bytes = some (f, rest)) :
    f.dispLen = displacementBytes m.toNat ∧ bytes.length = displacementBytes m.toNat + rest.length := by
  have hb := (takeRm_eq_some h).2
  have hl : f.dispLen = displacementBytes m.toNat := by
    have hm : (ModRegRm.ofByte m).toByte = m := ModRegRm.toByte_ofByte m
    rw [displacementBytes_fields]
    revert h
    generalize ModRegRm.ofByte m = F
    obtain ⟨mod, reg, rm⟩ := F
    have h4 : ∀ x : BitVec 2, x = 0b00#2 ∨ x = 0b01#2 ∨ x = 0b10#2 ∨ x = 0b11#2 := by decide
    obtain rfl | rfl | rfl | rfl := h4 mod
    · by_cases hrm : rm = 0b110#3
      · simp only [takeRm, hrm]
        intro h
        cases ht : takeWord bytes <;> simp [ht] at h
        rw [← h.1]; rfl
      · simp [takeRm, hrm]
        rintro rfl -
        rfl
    · intro h
      cases ht : takeByte bytes <;> simp [takeRm, ht] at h
      rw [← h.1]; rfl
    · intro h
      cases ht : takeWord bytes <;> simp [takeRm, ht] at h
      rw [← h.1]; rfl
    · simp [takeRm]
      rintro rfl -
      rfl
  refine ⟨hl, ?_⟩
  have := congrArg List.length hb
  simp only [List.length_append, rmBytes_length, List.length_cons] at this
  omega

/-- Format RM fails only by truncation, and exactly when a byte is missing (R91). -/
theorem formRm_eq_error {mk : RmField → BitVec 3 → Instr} {bytes : List Byte} {r : FallbackReason} :
    formRm mk bytes = .error r ↔ r = .truncated ∧
      (match bytes with | [] => True | m :: rest => rest.length < displacementBytes m.toNat) := by
  cases bytes with
  | nil => simp [formRm, takeByte, orTruncated, eq_comm]
  | cons m bytes =>
    simp only [← takeRm_eq_none]
    cases ht : takeRm (ModRegRm.ofByte m).mod (ModRegRm.ofByte m).rm bytes with
    | none => simp [formRm, orTruncated, ht, eq_comm]
    | some p => simp [formRm, orTruncated, ht]

/-- Format RMI fails by its sub-opcode, or else exactly when a byte is missing (R91, R93). -/
theorem formRmi_eq_error {α ι : Type} {ofField : RmField → α} {takeImm : List Byte → Option (ι × List Byte)}
    {select : BitVec 3 → Option (α → ι → Instr)} {n : Nat} (hn : ∀ b, takeImm b = none ↔ b.length < n)
    {bytes : List Byte} {r : FallbackReason} :
    formRmi ofField takeImm select bytes = .error r ↔
      match bytes with
      | [] => r = .truncated
      | m :: rest =>
        if select (ModRegRm.ofByte m).reg = none then r = .subop
        else r = .truncated ∧ rest.length < displacementBytes m.toNat + n := by
  cases bytes with
  | nil => simp [formRmi, takeByte, orTruncated, eq_comm]
  | cons m bytes =>
    cases hs : select (ModRegRm.ofByte m).reg with
    | none => simp [formRmi, orTruncated, hs, eq_comm]
    | some mk =>
      cases ht : takeRm (ModRegRm.ofByte m).mod (ModRegRm.ofByte m).rm bytes with
      | none =>
        have := (takeRm_eq_none m bytes).mp ht
        simp [formRmi, orTruncated, hs, ht, eq_comm]
        omega
      | some p =>
        obtain ⟨f, more⟩ := p
        have hl := (takeRm_length ht).2
        cases hi : takeImm more with
        | none =>
          have := (hn more).mp hi
          simp [formRmi, orTruncated, hs, ht, hi, eq_comm]
          omega
        | some q =>
          have : ¬more.length < n := by rw [← hn, hi]; simp
          simp [formRmi, orTruncated, hs, ht, hi]
          omega

theorem formImm8_eq_error {mk : Byte → Instr} {bytes : List Byte} {r : FallbackReason} :
    formImm8 mk bytes = .error r ↔ r = .truncated ∧ bytes.length < 1 := by
  cases bytes <;> simp [formImm8, takeByte, orTruncated, eq_comm]

theorem formImm16_eq_error {mk : Word → Instr} {bytes : List Byte} {r : FallbackReason} :
    formImm16 mk bytes = .error r ↔ r = .truncated ∧ bytes.length < 2 := by
  match bytes with
  | [] => simp [formImm16, takeWord, orTruncated, eq_comm]
  | [_] => simp [formImm16, takeWord, orTruncated, eq_comm]
  | _ :: _ :: _ => simp [formImm16, takeWord, orTruncated]

end Sys2Proof
end

