-- ==== Sys2Proof/Laws/Fallback.lean ====
section
/-! SUPPORT. When the decoder falls back, and why, in the words of WellFormed: the ranges and lengths of the spec. -/

namespace Sys2Proof

theorem movReg8_opcode :
    ∀ op : Byte, op.extractLsb' 3 5 = 0b10110#5 ↔ 0xB0 ≤ op.toNat ∧ op.toNat ≤ 0xB7 := by decide
theorem movReg16_opcode :
    ∀ op : Byte, op.extractLsb' 3 5 = 0b10111#5 ↔ 0xB8 ≤ op.toNat ∧ op.toNat ≤ 0xBF := by decide
theorem modRegRm_reg : ∀ m : Byte, (ModRegRm.ofByte m).reg.toNat = m.toNat / 8 % 8 := by decide

/-- R69 for 0x80..0x83. -/
theorem aluGroup_eq_none {α : Type} (a b c : α) (m : Byte) :
    aluGroup a b c (ModRegRm.ofByte m).reg = none ↔
      m.toNat / 8 % 8 ≠ 0 ∧ m.toNat / 8 % 8 ≠ 5 ∧ m.toNat / 8 % 8 ≠ 7 := by
  rw [← modRegRm_reg]
  unfold aluGroup
  split <;> simp_all

/-- R69 for 0xC6 and 0xC7. -/
theorem movGroup_eq_none {α : Type} (a : α) (m : Byte) :
    (if (ModRegRm.ofByte m).reg = 0#3 then some a else none) = none ↔ m.toNat / 8 % 8 ≠ 0 := by
  have : (ModRegRm.ofByte m).reg = 0#3 ↔ m.toNat / 8 % 8 = 0 := by
    rw [← modRegRm_reg, BitVec.toNat_eq]; rfl
  split <;> simp_all

theorem fallback_rm {mk : RmField → BitVec 3 → Instr} {op : Byte} {n : Nat} (h : op.toNat = n)
    (hu : unmappedFirstByte n = false) (hs : ∀ m, unsupportedSubop n m = false)
    (hl : ∀ rest, announcedLength n rest = match rest with | [] => 2 | m :: _ => 2 + displacementBytes m.toNat + 0)
    (rest : List Byte) (r : FallbackReason) :
    formRm mk rest = .error r ↔ fallbackWf r (op :: rest) = true := by
  rw [formRm_eq_error]
  cases rest <;> cases r <;> simp [fallbackWf, h, hu, hs, hl]
  omega

theorem fallback_rmi {α ι : Type} {ofField : RmField → α} {takeImm : List Byte → Option (ι × List Byte)}
    {select : BitVec 3 → Option (α → ι → Instr)} {k : Nat} (hk : ∀ b, takeImm b = none ↔ b.length < k)
    {op : Byte} {n : Nat} (h : op.toNat = n) (hu : unmappedFirstByte n = false)
    (hs : ∀ m : Byte, select (ModRegRm.ofByte m).reg = none ↔ unsupportedSubop n m.toNat = true)
    (hl : ∀ rest, announcedLength n rest = match rest with | [] => 2 | m :: _ => 2 + displacementBytes m.toNat + k)
    (rest : List Byte) (r : FallbackReason) :
    formRmi ofField takeImm select rest = .error r ↔ fallbackWf r (op :: rest) = true := by
  rw [formRmi_eq_error hk]
  cases rest with
  | nil => cases r <;> simp [fallbackWf, h, hu, hl]
  | cons m more =>
    have hm := hs m
    cases hx : unsupportedSubop n m.toNat <;> simp only [hx] at hm <;> cases r <;>
      simp [fallbackWf, h, hu, hl, hm, hx]
    omega

theorem fallback_imm8 {mk : Byte → Instr} {op : Byte} {n : Nat} (h : op.toNat = n)
    (hu : unmappedFirstByte n = false) (hs : ∀ m, unsupportedSubop n m = false)
    (hl : ∀ rest, announcedLength n rest = 2) (rest : List Byte) (r : FallbackReason) :
    formImm8 mk rest = .error r ↔ fallbackWf r (op :: rest) = true := by
  rw [formImm8_eq_error]
  cases rest <;> cases r <;> simp [fallbackWf, h, hu, hs, hl]

theorem fallback_imm16 {mk : Word → Instr} {op : Byte} {n : Nat} (h : op.toNat = n)
    (hu : unmappedFirstByte n = false) (hs : ∀ m, unsupportedSubop n m = false)
    (hl : ∀ rest, announcedLength n rest = 3) (rest : List Byte) (r : FallbackReason) :
    formImm16 mk rest = .error r ↔ fallbackWf r (op :: rest) = true := by
  rw [formImm16_eq_error]
  match rest with
  | [] => cases r <;> simp [fallbackWf, h, hu, hl]
  | [_] => cases r <;> simp [fallbackWf, h, hu, hs, hl]
  | _ :: _ :: _ => cases r <;> simp [fallbackWf, h, hu, hs, hl]

/-- `0xB0..0xB7`: two bytes, always supported. -/
theorem movReg8_length {n : Nat} (h : 0xB0 ≤ n ∧ n ≤ 0xB7) :
    unmappedFirstByte n = false ∧ (∀ m, unsupportedSubop n m = false) ∧ ∀ rest, announcedLength n rest = 2 := by
  obtain ⟨h, h'⟩ := h
  interval_cases n <;> exact ⟨rfl, fun _ => rfl, fun _ => rfl⟩

/-- `0xB8..0xBF`: three bytes, always supported. -/
theorem movReg16_length {n : Nat} (h : 0xB8 ≤ n ∧ n ≤ 0xBF) :
    unmappedFirstByte n = false ∧ (∀ m, unsupportedSubop n m = false) ∧ ∀ rest, announcedLength n rest = 3 := by
  obtain ⟨h, h'⟩ := h
  interval_cases n <;> exact ⟨rfl, fun _ => rfl, fun _ => rfl⟩

theorem unmapped_supported {n : Nat} (h : unmappedFirstByte n = true) (m : Nat) : unsupportedSubop n m = false := by
  simp [unmappedFirstByte] at h
  simp [unsupportedSubop]
  omega

theorem rmi_supported (n : Nat) (hn : n = 0x80 ∨ n = 0x81 ∨ n = 0x82 ∨ n = 0x83) (m : Byte) {α : Type} (a b c : α) :
    aluGroup a b c (ModRegRm.ofByte m).reg = none ↔ unsupportedSubop n m.toNat = true := by
  rw [aluGroup_eq_none]
  obtain rfl | rfl | rfl | rfl := hn <;> simp [unsupportedSubop, and_assoc]

theorem movi_supported (n : Nat) (hn : n = 0xC6 ∨ n = 0xC7) (m : Byte) {α : Type} (a : α) :
    (if (ModRegRm.ofByte m).reg = 0#3 then some a else none) = none ↔ unsupportedSubop n m.toNat = true := by
  rw [movGroup_eq_none]
  obtain rfl | rfl := hn <;> simp [unsupportedSubop]

theorem fallback_unmapped {op : Byte} (h : unmappedFirstByte op.toNat = true) (rest : List Byte) (r : FallbackReason) :
    (Except.error .unmapped : Except FallbackReason Instr) = .error r ↔ fallbackWf r (op :: rest) = true := by
  cases rest <;> cases r <;> simp [fallbackWf, h, unmapped_supported h]

/-- The decoder fails with a reason exactly when WellFormed's ranges and lengths say so (R91, R92, R93). -/
theorem decodeOp_eq_error (op : Byte) (rest : List Byte) (r : FallbackReason) :
    decodeOp op rest = .error r ↔ fallbackWf r (op :: rest) = true := by
  unfold decodeOp
  split <;> rename_i h
  case h_53 =>
    simp only [imp_false] at *
    by_cases h1 : op.extractLsb' 3 5 = 0b10110#5
    · rw [if_pos h1]
      obtain ⟨hu, hs, hl⟩ := movReg8_length ((movReg8_opcode op).mp h1)
      exact fallback_imm8 rfl hu hs hl rest r
    · by_cases h2 : op.extractLsb' 3 5 = 0b10111#5
      · rw [if_neg h1, if_pos h2]
        obtain ⟨hu, hs, hl⟩ := movReg16_length ((movReg16_opcode op).mp h2)
        exact fallback_imm16 rfl hu hs hl rest r
      · rw [if_neg h1, if_neg h2]
        rw [movReg8_opcode] at h1
        rw [movReg16_opcode] at h2
        exact fallback_unmapped (by simp [unmappedFirstByte]; omega) rest r
  all_goals
    first
    | exact fallback_rm h rfl (fun _ => rfl) (fun rest => by cases rest <;> rfl) rest r
    | exact fallback_imm8 h rfl (fun _ => rfl) (fun _ => rfl) rest r
    | exact fallback_imm16 h rfl (fun _ => rfl) (fun _ => rfl) rest r
    | exact fallback_rmi (fun _ => takeByte_eq_none) h rfl
        (fun m => rmi_supported _ (by decide) m _ _ _) (fun rest => by cases rest <;> rfl) rest r
    | exact fallback_rmi (fun _ => takeWord_eq_none) h rfl
        (fun m => rmi_supported _ (by decide) m _ _ _) (fun rest => by cases rest <;> rfl) rest r
    | exact fallback_rmi (fun _ => takeByte_eq_none) h rfl
        (fun m => movi_supported _ (by decide) m _) (fun rest => by cases rest <;> rfl) rest r
    | exact fallback_rmi (fun _ => takeWord_eq_none) h rfl
        (fun m => movi_supported _ (by decide) m _) (fun rest => by cases rest <;> rfl) rest r
end Sys2Proof
end

