-- ==== Sys2Proof/Laws/Decoded.lean ====
section
/-! SUPPORT. What a decoded instruction is: well formed, the encoder's bytes, of the length its opcode and
mod/reg/r_m byte announce. -/

namespace Sys2Proof

theorem byte_eq_ofNat {op : Byte} {n : Nat} (h : op.toNat = n) : op = BitVec.ofNat 8 n := by
  subst h
  simp

/-- The sub-opcodes of R69, each with its instruction. -/
theorem aluGroup_eq_some {α : Type} {a b c d : α} {reg : BitVec 3} (h : aluGroup a b c reg = some d) :
    (reg = 0#3 ∧ d = a) ∨ (reg = 5#3 ∧ d = b) ∨ (reg = 7#3 ∧ d = c) := by
  have hreg : ∀ r : BitVec 3, r.toNat = 0 ∧ r = 0#3 ∨ r.toNat = 5 ∧ r = 5#3 ∨ r.toNat = 7 ∧ r = 7#3 ∨
      r.toNat ∉ [0, 5, 7] := by decide
  revert h
  unfold aluGroup
  obtain ⟨-, rfl⟩ | ⟨-, rfl⟩ | ⟨-, rfl⟩ | h := hreg reg
  · simp [eq_comm]
  · simp [eq_comm]
  · simp [eq_comm]
  · split <;> simp_all

/-- The opcode byte of `mov r8, imm8` is made of its register number (R67). -/
theorem movReg8_byte : ∀ op : Byte, op.extractLsb' 3 5 = 0b10110#5 →
    op = 0b10110#5 ++ (Reg8.ofIndex (op.extractLsb' 0 3)).index := by decide

/-- The opcode byte of `mov r16, imm16` is made of its register number (R67). -/
theorem movReg16_byte : ∀ op : Byte, op.extractLsb' 3 5 = 0b10111#5 →
    op = 0b10111#5 ++ (Reg16.ofIndex (op.extractLsb' 0 3)).index := by decide

/-- The mod/reg/r_m byte the encoder writes asks for the operand's displacement bytes. -/
theorem rmBytes_head (reg : BitVec 3) {f : RmField} (h : f.wf = true) (rest : List Byte) :
    ∃ m bytes, rmBytes reg f ++ rest = m :: bytes ∧ displacementBytes m.toNat = f.dispLen := by
  obtain ⟨m, bytes, h1, -, h3⟩ := takeRm_rmBytes reg h rest
  exact ⟨m, bytes, h1, (takeRm_length h3).1.symm⟩

/-- What the opcode map decodes: no fallback, well formed, and the bytes are its encoding and what follows. -/
theorem decodeOp_eq_ok {op : Byte} {rest : List Byte} {i : Instr} (h : decodeOp op rest = .ok i) :
    i.wf = true ∧ (∀ r b, i ≠ .db r b) ∧ ∃ more, op :: rest = encode i ++ more := by
  unfold decodeOp at h
  split at h <;> rename_i hop
  case h_53 =>
    split at h
    · rename_i ho
      obtain ⟨imm, more, rfl, rfl⟩ := formImm8_eq_ok h
      exact ⟨rfl, by simp, more, congrArg (· :: imm :: more) (movReg8_byte op ho)⟩
    · split at h
      · rename_i ho
        obtain ⟨imm, more, rfl, rfl⟩ := formImm16_eq_ok h
        exact ⟨rfl, by simp, more, congrArg (· :: (wordBytes imm ++ more)) (movReg16_byte op ho)⟩
      · simp at h
  all_goals obtain rfl := byte_eq_ofNat hop
  all_goals first
    | obtain ⟨imm, more, rfl, rfl⟩ := formImm8_eq_ok h
      exact ⟨rfl, by simp, more, rfl⟩
    | obtain ⟨imm, more, rfl, rfl⟩ := formImm16_eq_ok h
      exact ⟨rfl, by simp, more, rfl⟩
    | obtain ⟨reg, f, more, rfl, hw, rfl⟩ := formRm_eq_ok h
      exact ⟨by simpa [Instr.wf] using hw, by simp, more, by simp [encode]⟩
    | obtain ⟨reg, mk, f, imm, more, rest', hs, rfl, hw, rfl, hi⟩ := formRmi_eq_ok h
      obtain ⟨rfl, rfl⟩ | ⟨rfl, rfl⟩ | ⟨rfl, rfl⟩ := aluGroup_eq_some hs <;>
        exact ⟨by simpa [Instr.wf] using hw, by simp, rest',
          by first | simp [encode, takeByte_eq_some hi] | simp [encode, takeWord_eq_some hi]⟩
    | obtain ⟨reg, mk, f, imm, more, rest', hs, rfl, hw, rfl, hi⟩ := formRmi_eq_ok h
      split at hs <;> cases hs
      rename_i hz
      subst hz
      exact ⟨by simpa [Instr.wf] using hw, by simp, rest',
        by first | simp [encode, takeByte_eq_some hi] | simp [encode, takeWord_eq_some hi]⟩

/-- A decoded instruction has the length R74 gives its first bytes. -/
theorem decodeOp_length {op : Byte} {rest : List Byte} {i : Instr} (h : decodeOp op rest = .ok i) :
    i.length = announcedLength op.toNat rest := by
  unfold decodeOp at h
  split at h <;> rename_i hop
  case h_53 =>
    split at h
    · rename_i ho
      obtain ⟨imm, more, rfl, rfl⟩ := formImm8_eq_ok h
      rw [(movReg8_length ((movReg8_opcode op).mp ho)).2.2]
      rfl
    · split at h
      · rename_i ho
        obtain ⟨imm, more, rfl, rfl⟩ := formImm16_eq_ok h
        rw [(movReg16_length ((movReg16_opcode op).mp ho)).2.2]
        rfl
      · simp at h
  all_goals rw [hop]
  all_goals first
    | obtain ⟨imm, more, rfl, rfl⟩ := formImm8_eq_ok h
      rfl
    | obtain ⟨imm, more, rfl, rfl⟩ := formImm16_eq_ok h
      rfl
    | obtain ⟨reg, f, more, rfl, hw, rfl⟩ := formRm_eq_ok h
      obtain ⟨m, bs, he, hm⟩ := rmBytes_head reg hw more
      rw [he]
      simp [Instr.length, announcedLength, hasModRegRm, hm]
    | obtain ⟨reg, mk, f, imm, more, rest', hs, rfl, hw, rfl, hi⟩ := formRmi_eq_ok h
      obtain ⟨m, bs, he, hm⟩ := rmBytes_head reg hw more
      rw [he]
      obtain ⟨rfl, rfl⟩ | ⟨rfl, rfl⟩ | ⟨rfl, rfl⟩ := aluGroup_eq_some hs <;>
        simp [Instr.length, announcedLength, hasModRegRm, hm]
    | obtain ⟨reg, mk, f, imm, more, rest', hs, rfl, hw, rfl, hi⟩ := formRmi_eq_ok h
      obtain ⟨m, bs, he, hm⟩ := rmBytes_head reg hw more
      rw [he]
      split at hs <;> cases hs
      simp [Instr.length, announcedLength, hasModRegRm, hm]

/-- A decoded fallback: all of the bytes, and the reason that applies to them. -/
theorem decodeBytes_eq_db {bs more : List Byte} {r : FallbackReason} (h : decodeBytes bs = some (.db r more)) :
    more = bs ∧ fallbackWf r bs = true := by
  cases bs with
  | nil => simp [decodeBytes] at h
  | cons op rest =>
    cases hd : decodeOp op rest with
    | ok i =>
      simp [decodeBytes, hd] at h
      exact absurd h ((decodeOp_eq_ok hd).2.1 _ _)
    | error e =>
      simp [decodeBytes, hd] at h
      obtain ⟨rfl, rfl⟩ := h
      exact ⟨rfl, (decodeOp_eq_error _ _ _).mp hd⟩

/-- Every form is at least two bytes long (R75). -/
theorem two_le_length {i : Instr} (h : ∀ r b, i ≠ .db r b) : 2 ≤ i.length := by
  cases i <;> first | exact absurd rfl (h _ _) | (simp [Instr.length]; done) | (simp [Instr.length]; omega)

/-- Where there is a byte, something is decoded. -/
theorem decodeBytes_cons (op : Byte) (rest : List Byte) : ∃ i, decodeBytes (op :: rest) = some i := by
  simp only [decodeBytes]
  split <;> exact ⟨_, rfl⟩

end Sys2Proof
end

