-- ==== Sys2Proof/Laws/Memory.lean ====
section
/-! SUPPORT. The laws of memory: reading after a write, the canonical form and its keeping. -/

namespace Sys2Proof.Machine

@[simp] theorem read_nil (a : Nat) : Memory.read [] a = 0#8 := rfl

theorem read_cons (k : Nat) (b : Byte) (m : Memory) (a : Nat) :
    Memory.read ((k, b) :: m) a = if k = a then b else m.read a := rfl

/-- A write leaves every other offset alone, in any memory. -/
theorem read_write_other (m : Memory) (a : Nat) (v : Byte) {x : Nat} (h : x ≠ a) :
    (m.write a v).read x = m.read x := by
  induction m with
  | nil => by_cases hv : v = 0#8 <;> simp [Memory.write, hv, read_cons, Ne.symm h]
  | cons c m ih =>
    obtain ⟨k, b⟩ := c
    by_cases hlt : a < k
    · by_cases hv : v = 0#8 <;> simp [Memory.write, hlt, hv, read_cons, Ne.symm h]
    · by_cases heq : a = k
      · subst heq
        by_cases hv : v = 0#8 <;> simp [Memory.write, hv, read_cons, Ne.symm h]
      · simp [Memory.write, hlt, heq, read_cons, ih]

theorem wfFrom_mono {lo hi : Nat} {m : Memory} (h : Memory.wfFrom hi m = true) (hle : lo ≤ hi) :
    Memory.wfFrom lo m = true := by
  cases m with
  | nil => rfl
  | cons c m =>
    simp only [Memory.wfFrom, Bool.and_eq_true, decide_eq_true_eq] at h ⊢
    exact ⟨⟨⟨by omega, h.1.1.2⟩, h.1.2⟩, h.2⟩

/-- Below its first offset a canonical memory reads 0. -/
theorem read_below {lo : Nat} {m : Memory} (h : Memory.wfFrom lo m = true) {a : Nat} (ha : a < lo) :
    m.read a = 0#8 := by
  induction m generalizing lo with
  | nil => rfl
  | cons c m ih =>
    obtain ⟨k, b⟩ := c
    simp only [Memory.wfFrom, Bool.and_eq_true, decide_eq_true_eq] at h
    rw [read_cons, if_neg (by omega)]
    exact ih h.2 (by omega)

theorem read_write_self_from {lo : Nat} {m : Memory} (h : Memory.wfFrom lo m = true) (a : Nat) (v : Byte) :
    (m.write a v).read a = v := by
  induction m generalizing lo with
  | nil => by_cases hv : v = 0#8 <;> simp [Memory.write, hv, read_cons]
  | cons c m ih =>
    obtain ⟨k, b⟩ := c
    have h' := h
    simp only [Memory.wfFrom, Bool.and_eq_true, decide_eq_true_eq] at h
    by_cases hlt : a < k
    · by_cases hv : v = 0#8
      · simp [Memory.write, hlt, hv, read_cons, show ¬k = a by omega, read_below h.2 (show a < k + 1 by omega)]
      · simp [Memory.write, hlt, hv, read_cons]
    · by_cases heq : a = k
      · subst heq
        by_cases hv : v = 0#8
        · simp [Memory.write, hv, read_below h.2 (show a < a + 1 by omega)]
        · simp [Memory.write, hv, read_cons]
      · simp [Memory.write, hlt, heq, read_cons, show ¬k = a by omega, ih h.2]

/-- Reading what was written. -/
theorem read_write_self {m : Memory} (h : m.wf = true) (a : Nat) (v : Byte) : (m.write a v).read a = v :=
  read_write_self_from h a v

theorem write_wfFrom {lo : Nat} {m : Memory} (h : Memory.wfFrom lo m = true) {a : Nat} (v : Byte)
    (hlo : lo ≤ a) (ha : a < memSize) : Memory.wfFrom lo (m.write a v) = true := by
  induction m generalizing lo with
  | nil => by_cases hv : v = 0#8 <;> simp [Memory.write, Memory.wfFrom, hv, hlo, ha]
  | cons c m ih =>
    obtain ⟨k, b⟩ := c
    simp only [Memory.wfFrom, Bool.and_eq_true, decide_eq_true_eq] at h
    by_cases hlt : a < k
    · by_cases hv : v = 0#8
      · simpa [Memory.write, Memory.wfFrom, hlt, hv] using h
      · have := h.1.2
        simp_all [Memory.write, Memory.wfFrom]
    · by_cases heq : a = k
      · subst heq
        by_cases hv : v = 0#8
        · simpa [Memory.write, hv] using wfFrom_mono h.2 (by omega)
        · simp [Memory.write, Memory.wfFrom, hv, hlo, ha, h.2]
      · have := h.1.2
        simp [Memory.write, Memory.wfFrom, hlt, heq, h.1.1.1, h.1.1.2, ih h.2 (show k + 1 ≤ a by omega)] at *
        exact this

/-- A write inside memory keeps the canonical form. -/
theorem write_wf {m : Memory} (h : m.wf = true) {a : Nat} (v : Byte) (ha : a < memSize) :
    (m.write a v).wf = true :=
  write_wfFrom h v (Nat.zero_le a) ha

theorem writeBytes_wf {m : Memory} (h : m.wf = true) (bs : List Byte) {a : Nat} (ha : a + bs.length ≤ memSize) :
    (m.writeBytes a bs).wf = true := by
  induction bs generalizing m a with
  | nil => exact h
  | cons b bs ih =>
    simp only [List.length_cons] at ha
    exact ih (write_wf h b (by omega)) (by omega)

theorem read_writeBytes_before (m : Memory) (bs : List Byte) {a x : Nat} (h : x < a) :
    (m.writeBytes a bs).read x = m.read x := by
  induction bs generalizing m a with
  | nil => rfl
  | cons b bs ih => rw [Memory.writeBytes, ih _ (by omega), read_write_other _ _ _ (by omega)]

theorem read_writeBytes_after (m : Memory) (bs : List Byte) {a x : Nat} (h : a + bs.length ≤ x) :
    (m.writeBytes a bs).read x = m.read x := by
  induction bs generalizing m a with
  | nil => rfl
  | cons b bs ih =>
    simp only [List.length_cons] at h
    rw [Memory.writeBytes, ih _ (by omega), read_write_other _ _ _ (by omega)]

/-- Reading inside the bytes written. -/
theorem read_writeBytes_inside {m : Memory} (h : m.wf = true) (bs : List Byte) {a i : Nat}
    (ha : a + bs.length ≤ memSize) (hi : i < bs.length) : bs[i]? = some ((m.writeBytes a bs).read (a + i)) := by
  induction bs generalizing m a i with
  | nil => simp at hi
  | cons b bs ih =>
    simp only [List.length_cons] at ha hi
    have hw := write_wf h (a := a) b (by omega)
    cases i with
    | zero => simp [Memory.writeBytes, read_writeBytes_before _ _ (show a < a + 1 by omega), read_write_self h]
    | succ i =>
      rw [List.getElem?_cons_succ, Memory.writeBytes, show a + (i + 1) = a + 1 + i by omega]
      exact ih hw (by omega) (by omega)

/-- What the canonical form says of a first entry. -/
theorem wfFrom_read_head {lo k : Nat} {b : Byte} {m : Memory} (h : Memory.wfFrom lo ((k, b) :: m) = true) :
    lo ≤ k ∧ k < memSize ∧ b ≠ 0#8 ∧ Memory.wfFrom (k + 1) m = true := by
  simp only [Memory.wfFrom, Bool.and_eq_true, decide_eq_true_eq, bne_iff_ne] at h
  exact ⟨h.1.1.1, h.1.1.2, h.1.2, h.2⟩

end Sys2Proof.Machine
end

