-- ==== Sys2Proof/Laws/State.lean ====
section
/-! SUPPORT. One lemma for each field of State under each of the model's updates. -/

namespace Sys2Proof.Machine

/-! ### charge -/

@[simp] theorem charge_params (n : Nat) (s : State) : (charge n s).params = s.params := rfl
@[simp] theorem charge_regs (n : Nat) (s : State) : (charge n s).regs = s.regs := rfl
@[simp] theorem charge_ip (n : Nat) (s : State) : (charge n s).ip = s.ip := rfl
@[simp] theorem charge_zf (n : Nat) (s : State) : (charge n s).zf = s.zf := rfl
@[simp] theorem charge_sf (n : Nat) (s : State) : (charge n s).sf = s.sf := rfl
@[simp] theorem charge_mem (n : Nat) (s : State) : (charge n s).mem = s.mem := rfl
@[simp] theorem charge_image (n : Nat) (s : State) : (charge n s).image = s.image := rfl
@[simp] theorem charge_codeLen (n : Nat) (s : State) : (charge n s).codeLen = s.codeLen := rfl
@[simp] theorem charge_clocks (n : Nat) (s : State) : (charge n s).clocks = s.clocks + n := rfl
@[simp] theorem charge_totalClocks (n : Nat) (s : State) : (charge n s).totalClocks = s.totalClocks := rfl
@[simp] theorem charge_runState (n : Nat) (s : State) : (charge n s).runState = s.runState := rfl
@[simp] theorem charge_faultCode (n : Nat) (s : State) : (charge n s).faultCode = s.faultCode := rfl
@[simp] theorem charge_diagSeen (n : Nat) (s : State) : (charge n s).diagSeen = s.diagSeen := rfl
@[simp] theorem charge_lastDiag (n : Nat) (s : State) : (charge n s).lastDiag = s.lastDiag := rfl

/-! ### diag -/

@[simp] theorem diag_params (c : DiagCode) (s : State) : (diag c s).params = s.params := rfl
@[simp] theorem diag_regs (c : DiagCode) (s : State) : (diag c s).regs = s.regs := rfl
@[simp] theorem diag_ip (c : DiagCode) (s : State) : (diag c s).ip = s.ip := rfl
@[simp] theorem diag_zf (c : DiagCode) (s : State) : (diag c s).zf = s.zf := rfl
@[simp] theorem diag_sf (c : DiagCode) (s : State) : (diag c s).sf = s.sf := rfl
@[simp] theorem diag_mem (c : DiagCode) (s : State) : (diag c s).mem = s.mem := rfl
@[simp] theorem diag_image (c : DiagCode) (s : State) : (diag c s).image = s.image := rfl
@[simp] theorem diag_codeLen (c : DiagCode) (s : State) : (diag c s).codeLen = s.codeLen := rfl
@[simp] theorem diag_clocks (c : DiagCode) (s : State) : (diag c s).clocks = s.clocks := rfl
@[simp] theorem diag_totalClocks (c : DiagCode) (s : State) : (diag c s).totalClocks = s.totalClocks := rfl
@[simp] theorem diag_runState (c : DiagCode) (s : State) : (diag c s).runState = s.runState := rfl
@[simp] theorem diag_faultCode (c : DiagCode) (s : State) : (diag c s).faultCode = s.faultCode := rfl
@[simp] theorem diag_diagSeen (c : DiagCode) (s : State) : (diag c s).diagSeen = true := rfl
@[simp] theorem diag_lastDiag (c : DiagCode) (s : State) : (diag c s).lastDiag = some c := rfl

/-! ### beginStep -/

@[simp] theorem beginStep_params (n : Nat) (s : State) : (beginStep n s).params = s.params := rfl
@[simp] theorem beginStep_regs (n : Nat) (s : State) : (beginStep n s).regs = s.regs := rfl
@[simp] theorem beginStep_ip (n : Nat) (s : State) : (beginStep n s).ip = s.ip + BitVec.ofNat 16 n := rfl
@[simp] theorem beginStep_zf (n : Nat) (s : State) : (beginStep n s).zf = s.zf := rfl
@[simp] theorem beginStep_sf (n : Nat) (s : State) : (beginStep n s).sf = s.sf := rfl
@[simp] theorem beginStep_mem (n : Nat) (s : State) : (beginStep n s).mem = s.mem := rfl
@[simp] theorem beginStep_image (n : Nat) (s : State) : (beginStep n s).image = s.image := rfl
@[simp] theorem beginStep_codeLen (n : Nat) (s : State) : (beginStep n s).codeLen = s.codeLen := rfl
@[simp] theorem beginStep_clocks (n : Nat) (s : State) : (beginStep n s).clocks = 0 := rfl
@[simp] theorem beginStep_totalClocks (n : Nat) (s : State) : (beginStep n s).totalClocks = s.totalClocks := rfl
@[simp] theorem beginStep_runState (n : Nat) (s : State) : (beginStep n s).runState = s.runState := rfl
@[simp] theorem beginStep_faultCode (n : Nat) (s : State) : (beginStep n s).faultCode = s.faultCode := rfl
@[simp] theorem beginStep_diagSeen (n : Nat) (s : State) : (beginStep n s).diagSeen = s.diagSeen := rfl
@[simp] theorem beginStep_lastDiag (n : Nat) (s : State) : (beginStep n s).lastDiag = s.lastDiag := rfl

/-! ### finishStep -/

@[simp] theorem finishStep_params (s : State) : (finishStep s).params = s.params := rfl
@[simp] theorem finishStep_regs (s : State) : (finishStep s).regs = s.regs := rfl
@[simp] theorem finishStep_ip (s : State) : (finishStep s).ip = s.ip := rfl
@[simp] theorem finishStep_zf (s : State) : (finishStep s).zf = s.zf := rfl
@[simp] theorem finishStep_sf (s : State) : (finishStep s).sf = s.sf := rfl
@[simp] theorem finishStep_mem (s : State) : (finishStep s).mem = s.mem := rfl
@[simp] theorem finishStep_image (s : State) : (finishStep s).image = s.image := rfl
@[simp] theorem finishStep_codeLen (s : State) : (finishStep s).codeLen = s.codeLen := rfl
@[simp] theorem finishStep_clocks (s : State) : (finishStep s).clocks = s.clocks := rfl
@[simp] theorem finishStep_totalClocks (s : State) : (finishStep s).totalClocks = s.totalClocks + s.clocks := rfl
@[simp] theorem finishStep_runState (s : State) : (finishStep s).runState = s.runState := rfl
@[simp] theorem finishStep_faultCode (s : State) : (finishStep s).faultCode = s.faultCode := rfl
@[simp] theorem finishStep_diagSeen (s : State) : (finishStep s).diagSeen = s.diagSeen := rfl
@[simp] theorem finishStep_lastDiag (s : State) : (finishStep s).lastDiag = s.lastDiag := rfl

/-! ### takeFault -/

@[simp] theorem takeFault_params (f : Fault) (s : State) : (takeFault f s).params = s.params := rfl
@[simp] theorem takeFault_regs (f : Fault) (s : State) : (takeFault f s).regs = s.regs := rfl
@[simp] theorem takeFault_ip (f : Fault) (s : State) : (takeFault f s).ip = s.ip := rfl
@[simp] theorem takeFault_zf (f : Fault) (s : State) : (takeFault f s).zf = s.zf := rfl
@[simp] theorem takeFault_sf (f : Fault) (s : State) : (takeFault f s).sf = s.sf := rfl
@[simp] theorem takeFault_mem (f : Fault) (s : State) : (takeFault f s).mem = s.mem := rfl
@[simp] theorem takeFault_image (f : Fault) (s : State) : (takeFault f s).image = s.image := rfl
@[simp] theorem takeFault_codeLen (f : Fault) (s : State) : (takeFault f s).codeLen = s.codeLen := rfl
@[simp] theorem takeFault_clocks (f : Fault) (s : State) : (takeFault f s).clocks = 0 := rfl
@[simp] theorem takeFault_totalClocks (f : Fault) (s : State) : (takeFault f s).totalClocks = s.totalClocks := rfl
@[simp] theorem takeFault_runState (f : Fault) (s : State) : (takeFault f s).runState = .faulted := rfl
@[simp] theorem takeFault_faultCode (f : Fault) (s : State) : (takeFault f s).faultCode = some f := rfl
@[simp] theorem takeFault_diagSeen (f : Fault) (s : State) : (takeFault f s).diagSeen = s.diagSeen := rfl
@[simp] theorem takeFault_lastDiag (f : Fault) (s : State) : (takeFault f s).lastDiag = s.lastDiag := rfl

/-! ### setFlags -/

@[simp] theorem setFlags_params {n : Nat} (res : BitVec n) (s : State) : (setFlags res s).params = s.params := rfl
@[simp] theorem setFlags_regs {n : Nat} (res : BitVec n) (s : State) : (setFlags res s).regs = s.regs := rfl
@[simp] theorem setFlags_ip {n : Nat} (res : BitVec n) (s : State) : (setFlags res s).ip = s.ip := rfl
@[simp] theorem setFlags_zf {n : Nat} (res : BitVec n) (s : State) : (setFlags res s).zf = decide (res = 0#n) := rfl
@[simp] theorem setFlags_sf {n : Nat} (res : BitVec n) (s : State) : (setFlags res s).sf = res.msb := rfl
@[simp] theorem setFlags_mem {n : Nat} (res : BitVec n) (s : State) : (setFlags res s).mem = s.mem := rfl
@[simp] theorem setFlags_image {n : Nat} (res : BitVec n) (s : State) : (setFlags res s).image = s.image := rfl
@[simp] theorem setFlags_codeLen {n : Nat} (res : BitVec n) (s : State) : (setFlags res s).codeLen = s.codeLen := rfl
@[simp] theorem setFlags_clocks {n : Nat} (res : BitVec n) (s : State) : (setFlags res s).clocks = s.clocks := rfl
@[simp] theorem setFlags_totalClocks {n : Nat} (res : BitVec n) (s : State) : (setFlags res s).totalClocks = s.totalClocks := rfl
@[simp] theorem setFlags_runState {n : Nat} (res : BitVec n) (s : State) : (setFlags res s).runState = s.runState := rfl
@[simp] theorem setFlags_faultCode {n : Nat} (res : BitVec n) (s : State) : (setFlags res s).faultCode = s.faultCode := rfl
@[simp] theorem setFlags_diagSeen {n : Nat} (res : BitVec n) (s : State) : (setFlags res s).diagSeen = s.diagSeen := rfl
@[simp] theorem setFlags_lastDiag {n : Nat} (res : BitVec n) (s : State) : (setFlags res s).lastDiag = s.lastDiag := rfl

/-! ### writeReg8 -/

@[simp] theorem writeReg8_params (r : Reg8) (v : Byte) (s : State) : (writeReg8 r v s).params = s.params := rfl
@[simp] theorem writeReg8_regs (r : Reg8) (v : Byte) (s : State) : (writeReg8 r v s).regs = s.regs.set8 r v := rfl
@[simp] theorem writeReg8_ip (r : Reg8) (v : Byte) (s : State) : (writeReg8 r v s).ip = s.ip := rfl
@[simp] theorem writeReg8_zf (r : Reg8) (v : Byte) (s : State) : (writeReg8 r v s).zf = s.zf := rfl
@[simp] theorem writeReg8_sf (r : Reg8) (v : Byte) (s : State) : (writeReg8 r v s).sf = s.sf := rfl
@[simp] theorem writeReg8_mem (r : Reg8) (v : Byte) (s : State) : (writeReg8 r v s).mem = s.mem := rfl
@[simp] theorem writeReg8_image (r : Reg8) (v : Byte) (s : State) : (writeReg8 r v s).image = s.image := rfl
@[simp] theorem writeReg8_codeLen (r : Reg8) (v : Byte) (s : State) : (writeReg8 r v s).codeLen = s.codeLen := rfl
@[simp] theorem writeReg8_clocks (r : Reg8) (v : Byte) (s : State) : (writeReg8 r v s).clocks = s.clocks := rfl
@[simp] theorem writeReg8_totalClocks (r : Reg8) (v : Byte) (s : State) : (writeReg8 r v s).totalClocks = s.totalClocks := rfl
@[simp] theorem writeReg8_runState (r : Reg8) (v : Byte) (s : State) : (writeReg8 r v s).runState = s.runState := rfl
@[simp] theorem writeReg8_faultCode (r : Reg8) (v : Byte) (s : State) : (writeReg8 r v s).faultCode = s.faultCode := rfl
@[simp] theorem writeReg8_diagSeen (r : Reg8) (v : Byte) (s : State) : (writeReg8 r v s).diagSeen = s.diagSeen := rfl
@[simp] theorem writeReg8_lastDiag (r : Reg8) (v : Byte) (s : State) : (writeReg8 r v s).lastDiag = s.lastDiag := rfl

/-! ### writeReg16 -/

@[simp] theorem writeReg16_params (r : Reg16) (v : Word) (s : State) : (writeReg16 r v s).params = s.params := rfl
@[simp] theorem writeReg16_regs (r : Reg16) (v : Word) (s : State) : (writeReg16 r v s).regs = s.regs.set16 r v := rfl
@[simp] theorem writeReg16_ip (r : Reg16) (v : Word) (s : State) : (writeReg16 r v s).ip = s.ip := rfl
@[simp] theorem writeReg16_zf (r : Reg16) (v : Word) (s : State) : (writeReg16 r v s).zf = s.zf := rfl
@[simp] theorem writeReg16_sf (r : Reg16) (v : Word) (s : State) : (writeReg16 r v s).sf = s.sf := rfl
@[simp] theorem writeReg16_mem (r : Reg16) (v : Word) (s : State) : (writeReg16 r v s).mem = s.mem := rfl
@[simp] theorem writeReg16_image (r : Reg16) (v : Word) (s : State) : (writeReg16 r v s).image = s.image := rfl
@[simp] theorem writeReg16_codeLen (r : Reg16) (v : Word) (s : State) : (writeReg16 r v s).codeLen = s.codeLen := rfl
@[simp] theorem writeReg16_clocks (r : Reg16) (v : Word) (s : State) : (writeReg16 r v s).clocks = s.clocks := rfl
@[simp] theorem writeReg16_totalClocks (r : Reg16) (v : Word) (s : State) : (writeReg16 r v s).totalClocks = s.totalClocks := rfl
@[simp] theorem writeReg16_runState (r : Reg16) (v : Word) (s : State) : (writeReg16 r v s).runState = s.runState := rfl
@[simp] theorem writeReg16_faultCode (r : Reg16) (v : Word) (s : State) : (writeReg16 r v s).faultCode = s.faultCode := rfl
@[simp] theorem writeReg16_diagSeen (r : Reg16) (v : Word) (s : State) : (writeReg16 r v s).diagSeen = s.diagSeen := rfl
@[simp] theorem writeReg16_lastDiag (r : Reg16) (v : Word) (s : State) : (writeReg16 r v s).lastDiag = s.lastDiag := rfl

/-! ### jumpBy -/

@[simp] theorem jumpBy_params (r8 : Byte) (s : State) : (jumpBy r8 s).params = s.params := rfl
@[simp] theorem jumpBy_regs (r8 : Byte) (s : State) : (jumpBy r8 s).regs = s.regs := rfl
@[simp] theorem jumpBy_ip (r8 : Byte) (s : State) : (jumpBy r8 s).ip = s.ip + r8.signExtend 16 := rfl
@[simp] theorem jumpBy_zf (r8 : Byte) (s : State) : (jumpBy r8 s).zf = s.zf := rfl
@[simp] theorem jumpBy_sf (r8 : Byte) (s : State) : (jumpBy r8 s).sf = s.sf := rfl
@[simp] theorem jumpBy_mem (r8 : Byte) (s : State) : (jumpBy r8 s).mem = s.mem := rfl
@[simp] theorem jumpBy_image (r8 : Byte) (s : State) : (jumpBy r8 s).image = s.image := rfl
@[simp] theorem jumpBy_codeLen (r8 : Byte) (s : State) : (jumpBy r8 s).codeLen = s.codeLen := rfl
@[simp] theorem jumpBy_clocks (r8 : Byte) (s : State) : (jumpBy r8 s).clocks = s.clocks := rfl
@[simp] theorem jumpBy_totalClocks (r8 : Byte) (s : State) : (jumpBy r8 s).totalClocks = s.totalClocks := rfl
@[simp] theorem jumpBy_runState (r8 : Byte) (s : State) : (jumpBy r8 s).runState = s.runState := rfl
@[simp] theorem jumpBy_faultCode (r8 : Byte) (s : State) : (jumpBy r8 s).faultCode = s.faultCode := rfl
@[simp] theorem jumpBy_diagSeen (r8 : Byte) (s : State) : (jumpBy r8 s).diagSeen = s.diagSeen := rfl
@[simp] theorem jumpBy_lastDiag (r8 : Byte) (s : State) : (jumpBy r8 s).lastDiag = s.lastDiag := rfl

/-! ### decrementCx -/

@[simp] theorem decrementCx_params (s : State) : (decrementCx s).params = s.params := rfl
@[simp] theorem decrementCx_regs (s : State) : (decrementCx s).regs = { s.regs with cx := s.regs.cx - 1#16 } := rfl
@[simp] theorem decrementCx_ip (s : State) : (decrementCx s).ip = s.ip := rfl
@[simp] theorem decrementCx_zf (s : State) : (decrementCx s).zf = s.zf := rfl
@[simp] theorem decrementCx_sf (s : State) : (decrementCx s).sf = s.sf := rfl
@[simp] theorem decrementCx_mem (s : State) : (decrementCx s).mem = s.mem := rfl
@[simp] theorem decrementCx_image (s : State) : (decrementCx s).image = s.image := rfl
@[simp] theorem decrementCx_codeLen (s : State) : (decrementCx s).codeLen = s.codeLen := rfl
@[simp] theorem decrementCx_clocks (s : State) : (decrementCx s).clocks = s.clocks := rfl
@[simp] theorem decrementCx_totalClocks (s : State) : (decrementCx s).totalClocks = s.totalClocks := rfl
@[simp] theorem decrementCx_runState (s : State) : (decrementCx s).runState = s.runState := rfl
@[simp] theorem decrementCx_faultCode (s : State) : (decrementCx s).faultCode = s.faultCode := rfl
@[simp] theorem decrementCx_diagSeen (s : State) : (decrementCx s).diagSeen = s.diagSeen := rfl
@[simp] theorem decrementCx_lastDiag (s : State) : (decrementCx s).lastDiag = s.lastDiag := rfl

/-! ### What the start of a step leaves an instruction's addresses and costs -/

@[simp] theorem eaNat_beginStep (m : MemOp) (n : Nat) (s : State) : eaNat m (beginStep n s) = eaNat m s := rfl
@[simp] theorem eaCost_beginStep (m : MemOp) (n : Nat) (s : State) : eaCost m (beginStep n s) = eaCost m s := by
  cases m <;> rfl
@[simp] theorem oddCost_beginStep (a k n : Nat) (s : State) : oddCost a k (beginStep n s) = oddCost a k s := rfl
@[simp] theorem rmCost8_beginStep (x y : Nat) (o : RM8) (n : Nat) (s : State) :
    rmCost8 x y o (beginStep n s) = rmCost8 x y o s := by
  cases o <;> simp [rmCost8]
@[simp] theorem rmCost16_beginStep (x y k : Nat) (o : RM16) (n : Nat) (s : State) :
    rmCost16 x y k o (beginStep n s) = rmCost16 x y k o s := by
  cases o <;> simp [rmCost16]
@[simp] theorem aluCosts_beginStep (op : AluOp) (n : Nat) (s : State) :
    aluCosts op (beginStep n s) = aluCosts op s := rfl

end Sys2Proof.Machine
end

