-- ==== Sys2Proof/Laws/Ops.lean ====
section
/-! SUPPORT. What each shared operation can do, said once: the accesses to memory and to operands, the flag
updater, and the step around an instruction rule. -/

namespace Sys2Proof.Machine

/-! ### Bytes of a word -/

theorem combine_toNat (hi lo : Byte) : (combine hi lo).toNat = lo.toNat + 256 * hi.toNat := by
  have h1 : (combine hi lo).toNat = hi.toNat <<< 8 ||| lo.toNat := BitVec.toNat_append hi lo
  rw [h1, Nat.shiftLeft_eq, Nat.mul_comm, ← Nat.two_pow_add_eq_or_of_lt lo.isLt hi.toNat]
  omega

theorem ofNat_bytes (hi lo : Byte) : BitVec.ofNat 16 (lo.toNat + 256 * hi.toNat) = combine hi lo := by
  apply BitVec.eq_of_toNat_eq
  have := combine_toNat hi lo
  have := (combine hi lo).isLt
  rw [BitVec.toNat_ofNat]
  omega

/-! ### Memory accesses: what they answer and when -/

theorem memRead8_eq (a : Nat) (s : State) :
    memRead8 a s = if a + 1 ≤ 65536 then .ok (s.mem.read a) else .error .eaRange := by
  simp [memRead8, inRange, memSize]

theorem memRead16_eq (a : Nat) (s : State) :
    memRead16 a s = if a + 2 ≤ 65536 then .ok (combine (s.mem.read (a + 1)) (s.mem.read a)) else .error .eaRange := by
  simp [memRead16, inRange, memSize]

/-- A write check passes exactly inside memory and outside the image; each failure has its code. -/
theorem writeCheck_eq (a n : Nat) (s : State) :
    writeCheck a n s =
      if 65536 < a + n then .error .eaRange else if a < s.codeLen then .error .smc else .ok () := by
  by_cases h : a + n ≤ 65536 <;> simp [writeCheck, inRange, memSize, h, Nat.not_lt.mpr, Nat.lt_of_not_le]

theorem memWrite8_eq (a : Nat) (v : Byte) (s : State) :
    memWrite8 a v s =
      if 65536 < a + 1 then .error .eaRange else if a < s.codeLen then .error .smc
      else .ok { s with mem := s.mem.write a v } := by
  simp only [memWrite8, writeCheck_eq]
  split <;> [skip; split] <;> rfl

theorem memWrite16_eq (a : Nat) (v : Word) (s : State) :
    memWrite16 a v s =
      if 65536 < a + 2 then .error .eaRange else if a < s.codeLen then .error .smc
      else .ok { s with mem := (s.mem.write a (lowByte v)).write (a + 1) (highByte v) } := by
  simp only [memWrite16, writeCheck_eq]
  split <;> [skip; split] <;> rfl

/-- A byte write that succeeds. -/
theorem memWrite8_eq_ok {a : Nat} {v : Byte} {s t : State} (h : memWrite8 a v s = .ok t) :
    a + 1 ≤ 65536 ∧ s.codeLen ≤ a ∧ t = { s with mem := s.mem.write a v } := by
  rw [memWrite8_eq] at h
  split at h <;> [cases h; split at h <;> cases h]
  exact ⟨by omega, by omega, rfl⟩

/-- A word write that succeeds. -/
theorem memWrite16_eq_ok {a : Nat} {v : Word} {s t : State} (h : memWrite16 a v s = .ok t) :
    a + 2 ≤ 65536 ∧ s.codeLen ≤ a ∧
      t = { s with mem := (s.mem.write a (lowByte v)).write (a + 1) (highByte v) } := by
  rw [memWrite16_eq] at h
  split at h <;> [cases h; split at h <;> cases h]
  exact ⟨by omega, by omega, rfl⟩

/-- A word write changes no byte but its two. -/
theorem read_write16_other (m : Memory) (a : Nat) (v : Word) {x : Nat} (h : x ≠ a) (h' : x ≠ a + 1) :
    ((m.write a (lowByte v)).write (a + 1) (highByte v)).read x = m.read x := by
  rw [read_write_other _ _ _ h', read_write_other _ _ _ h]

/-- Reading back a word. -/
theorem combine_read_write16 {m : Memory} (h : m.wf = true) {a : Nat} (ha : a + 2 ≤ 65536) (v : Word) :
    combine (((m.write a (lowByte v)).write (a + 1) (highByte v)).read (a + 1))
      (((m.write a (lowByte v)).write (a + 1) (highByte v)).read a) = v := by
  rw [read_write_self (write_wf h _ (by simp only [memSize]; omega)), read_write_other _ _ _ (by omega),
    read_write_self h, combine_high_low]

/-! ### What an instruction rule may change -/

/-- `t` differs from `s` at most in the registers, `ip`, the flags, memory and `clocks`. -/
structure SameRest (s t : State) : Prop where
  params : t.params = s.params
  image : t.image = s.image
  totalClocks : t.totalClocks = s.totalClocks
  runState : t.runState = s.runState
  faultCode : t.faultCode = s.faultCode
  diagSeen : t.diagSeen = s.diagSeen
  lastDiag : t.lastDiag = s.lastDiag

theorem SameRest.refl (s : State) : SameRest s s := ⟨rfl, rfl, rfl, rfl, rfl, rfl, rfl⟩

theorem SameRest.codeLen {s t : State} (h : SameRest s t) : t.codeLen = s.codeLen := congrArg List.length h.image

theorem SameRest.trans {s t u : State} (h : SameRest s t) (h' : SameRest t u) : SameRest s u :=
  ⟨h'.params.trans h.params, h'.image.trans h.image, h'.totalClocks.trans h.totalClocks,
    h'.runState.trans h.runState, h'.faultCode.trans h.faultCode, h'.diagSeen.trans h.diagSeen,
    h'.lastDiag.trans h.lastDiag⟩

/-! ### The r/m operand -/

/-- A byte operand's write that succeeds: a register's, or a byte of writable memory. -/
theorem writeRm8_eq_ok {o : RM8} {v : Byte} {s t : State} (h : writeRm8 o v s = .ok t) :
    (∃ r, o = .reg r ∧ t = writeReg8 r v s) ∨
    ∃ m, o = .mem m ∧ eaNat m s + 1 ≤ 65536 ∧ s.codeLen ≤ eaNat m s ∧
      t = { s with mem := s.mem.write (eaNat m s) v } := by
  cases o with
  | reg r => exact .inl ⟨r, rfl, by cases h; rfl⟩
  | mem m => exact .inr ⟨m, rfl, memWrite8_eq_ok h⟩

/-- A word operand's write that succeeds: a register's, or two bytes of writable memory. -/
theorem writeRm16_eq_ok {o : RM16} {v : Word} {s t : State} (h : writeRm16 o v s = .ok t) :
    (∃ r, o = .reg r ∧ t = writeReg16 r v s) ∨
    ∃ m, o = .mem m ∧ eaNat m s + 2 ≤ 65536 ∧ s.codeLen ≤ eaNat m s ∧
      t = { s with mem := (s.mem.write (eaNat m s) (lowByte v)).write (eaNat m s + 1) (highByte v) } := by
  cases o with
  | reg r => exact .inl ⟨r, rfl, by cases h; rfl⟩
  | mem m => exact .inr ⟨m, rfl, memWrite16_eq_ok h⟩

theorem writeRm8_sameRest {o : RM8} {v : Byte} {s t : State} (h : writeRm8 o v s = .ok t) : SameRest s t := by
  obtain ⟨r, -, rfl⟩ | ⟨m, -, -, -, rfl⟩ := writeRm8_eq_ok h <;> exact ⟨rfl, rfl, rfl, rfl, rfl, rfl, rfl⟩

theorem writeRm16_sameRest {o : RM16} {v : Word} {s t : State} (h : writeRm16 o v s = .ok t) : SameRest s t := by
  obtain ⟨r, -, rfl⟩ | ⟨m, -, -, -, rfl⟩ := writeRm16_eq_ok h <;> exact ⟨rfl, rfl, rfl, rfl, rfl, rfl, rfl⟩

/-- A byte operand's write keeps memory canonical. -/
theorem writeRm8_wf {o : RM8} {v : Byte} {s t : State} (hs : s.mem.wf = true) (h : writeRm8 o v s = .ok t) :
    t.mem.wf = true := by
  obtain ⟨r, -, rfl⟩ | ⟨m, -, ha, -, rfl⟩ := writeRm8_eq_ok h
  · exact hs
  · exact write_wf hs _ ha

/-- A word operand's write keeps memory canonical. -/
theorem writeRm16_wf {o : RM16} {v : Word} {s t : State} (hs : s.mem.wf = true) (h : writeRm16 o v s = .ok t) :
    t.mem.wf = true := by
  obtain ⟨r, -, rfl⟩ | ⟨m, -, ha, -, rfl⟩ := writeRm16_eq_ok h
  · exact hs
  · exact write_wf (write_wf hs _ (show eaNat m s < 65536 by omega)) _ (show eaNat m s + 1 < 65536 by omega)

/-- The address of a memory operand depends on nothing but the registers. -/
theorem eaNat_congr (m : MemOp) {s t : State} (h : t.regs = s.regs) : eaNat m t = eaNat m s := by
  simp only [eaNat, effectiveAddress, h]

/-! ### The step around a rule -/

/-- Everything a performed instruction can do: a diagnostic no-op, a fault taken, or the rule's effect. -/
theorem perform_cases (i : Instr) (rule : State → Except Fault State) (s : State) :
    (∃ code, diagnosis i s.params.profile = some code ∧
      perform i rule s = .next (diagnosticStep code i.length s)) ∨
    (∃ f, diagnosis i s.params.profile = none ∧ rule (beginStep i.length s) = .error f ∧
      perform i rule s = .next (takeFault f s)) ∨
    ∃ t, diagnosis i s.params.profile = none ∧ rule (beginStep i.length s) = .ok t ∧
      perform i rule s = .next (finishStep t) := by
  unfold perform
  cases hd : diagnosis i s.params.profile with
  | some code => exact .inl ⟨code, rfl, rfl⟩
  | none =>
    cases hr : rule (beginStep i.length s) with
    | error f => exact .inr (.inl ⟨f, rfl, rfl, rfl⟩)
    | ok t => exact .inr (.inr ⟨t, rfl, rfl, rfl⟩)

/-- A performed instruction that the profile leaves out. -/
theorem perform_of_diagnosis {i : Instr} {s : State} {code : DiagCode} (rule : State → Except Fault State)
    (h : diagnosis i s.params.profile = some code) : perform i rule s = .next (diagnosticStep code i.length s) := by
  simp [perform, h]

/-- A performed instruction whose rule runs to its end. -/
theorem perform_of_ok {i : Instr} {rule : State → Except Fault State} {s t : State}
    (hd : diagnosis i s.params.profile = none) (hr : rule (beginStep i.length s) = .ok t) :
    perform i rule s = .next (finishStep t) := by
  simp [perform, hd, hr]

/-- A performed instruction whose rule raises a fault. -/
theorem perform_of_error {i : Instr} {rule : State → Except Fault State} {s : State} {f : Fault}
    (hd : diagnosis i s.params.profile = none) (hr : rule (beginStep i.length s) = .error f) :
    perform i rule s = .next (takeFault f s) := by
  simp [perform, hd, hr]

theorem diagnosticStep_eq (code : DiagCode) (len : Nat) (s : State) :
    diagnosticStep code len s =
      { s with ip := s.ip + BitVec.ofNat 16 len, clocks := 0, diagSeen := true, lastDiag := some code } := rfl

end Sys2Proof.Machine
end

