-- ==== Sys2Proof/Laws/PerInstr.lean ====
section
/-! SUPPORT. Statements about every instruction as syntax, one lemma for each constructor. -/

namespace Sys2Proof.Laws

/-- The encoder writes as many bytes as the instruction is long (spec/30_encoding.md R74). -/
def EncodeLength.Statement (i : Instr) : Prop := (encode i).length = i.length

namespace EncodeLength

theorem movRm8R8 (dst : RM8) (src : Reg8) : Statement (.movRm8R8 dst src) :=
  encode_length _
theorem movRm16R16 (dst : RM16) (src : Reg16) : Statement (.movRm16R16 dst src) :=
  encode_length _
theorem movR8Rm8 (dst : Reg8) (src : RM8) : Statement (.movR8Rm8 dst src) :=
  encode_length _
theorem movR16Rm16 (dst : Reg16) (src : RM16) : Statement (.movR16Rm16 dst src) :=
  encode_length _
theorem movRm8Imm8 (dst : RM8) (imm : Byte) : Statement (.movRm8Imm8 dst imm) :=
  encode_length _
theorem movRm16Imm16 (dst : RM16) (imm : Word) : Statement (.movRm16Imm16 dst imm) :=
  encode_length _
theorem movR8Imm8 (dst : Reg8) (imm : Byte) : Statement (.movR8Imm8 dst imm) := encode_length _
theorem movR16Imm16 (dst : Reg16) (imm : Word) : Statement (.movR16Imm16 dst imm) := encode_length _
theorem movAlMem (a16 : Word) : Statement (.movAlMem a16) := encode_length _
theorem movAxMem (a16 : Word) : Statement (.movAxMem a16) := encode_length _
theorem movMemAl (a16 : Word) : Statement (.movMemAl a16) := encode_length _
theorem movMemAx (a16 : Word) : Statement (.movMemAx a16) := encode_length _
theorem addRm8R8 (dst : RM8) (src : Reg8) : Statement (.addRm8R8 dst src) :=
  encode_length _
theorem addRm16R16 (dst : RM16) (src : Reg16) : Statement (.addRm16R16 dst src) :=
  encode_length _
theorem addR8Rm8 (dst : Reg8) (src : RM8) : Statement (.addR8Rm8 dst src) :=
  encode_length _
theorem addR16Rm16 (dst : Reg16) (src : RM16) : Statement (.addR16Rm16 dst src) :=
  encode_length _
theorem addAlImm8 (imm : Byte) : Statement (.addAlImm8 imm) := encode_length _
theorem addAxImm16 (imm : Word) : Statement (.addAxImm16 imm) := encode_length _
theorem addRm8Imm8 (dst : RM8) (imm : Byte) : Statement (.addRm8Imm8 dst imm) :=
  encode_length _
theorem addRm16Imm16 (dst : RM16) (imm : Word) : Statement (.addRm16Imm16 dst imm) :=
  encode_length _
theorem addRm8Imm8Alias (dst : RM8) (imm : Byte) : Statement (.addRm8Imm8Alias dst imm) :=
  encode_length _
theorem addRm16SImm8 (dst : RM16) (imm : Byte) : Statement (.addRm16SImm8 dst imm) :=
  encode_length _
theorem subRm8R8 (dst : RM8) (src : Reg8) : Statement (.subRm8R8 dst src) :=
  encode_length _
theorem subRm16R16 (dst : RM16) (src : Reg16) : Statement (.subRm16R16 dst src) :=
  encode_length _
theorem subR8Rm8 (dst : Reg8) (src : RM8) : Statement (.subR8Rm8 dst src) :=
  encode_length _
theorem subR16Rm16 (dst : Reg16) (src : RM16) : Statement (.subR16Rm16 dst src) :=
  encode_length _
theorem subAlImm8 (imm : Byte) : Statement (.subAlImm8 imm) := encode_length _
theorem subAxImm16 (imm : Word) : Statement (.subAxImm16 imm) := encode_length _
theorem subRm8Imm8 (dst : RM8) (imm : Byte) : Statement (.subRm8Imm8 dst imm) :=
  encode_length _
theorem subRm16Imm16 (dst : RM16) (imm : Word) : Statement (.subRm16Imm16 dst imm) :=
  encode_length _
theorem subRm8Imm8Alias (dst : RM8) (imm : Byte) : Statement (.subRm8Imm8Alias dst imm) :=
  encode_length _
theorem subRm16SImm8 (dst : RM16) (imm : Byte) : Statement (.subRm16SImm8 dst imm) :=
  encode_length _
theorem cmpRm8R8 (dst : RM8) (src : Reg8) : Statement (.cmpRm8R8 dst src) :=
  encode_length _
theorem cmpRm16R16 (dst : RM16) (src : Reg16) : Statement (.cmpRm16R16 dst src) :=
  encode_length _
theorem cmpR8Rm8 (dst : Reg8) (src : RM8) : Statement (.cmpR8Rm8 dst src) :=
  encode_length _
theorem cmpR16Rm16 (dst : Reg16) (src : RM16) : Statement (.cmpR16Rm16 dst src) :=
  encode_length _
theorem cmpAlImm8 (imm : Byte) : Statement (.cmpAlImm8 imm) := encode_length _
theorem cmpAxImm16 (imm : Word) : Statement (.cmpAxImm16 imm) := encode_length _
theorem cmpRm8Imm8 (dst : RM8) (imm : Byte) : Statement (.cmpRm8Imm8 dst imm) :=
  encode_length _
theorem cmpRm16Imm16 (dst : RM16) (imm : Word) : Statement (.cmpRm16Imm16 dst imm) :=
  encode_length _
theorem cmpRm8Imm8Alias (dst : RM8) (imm : Byte) : Statement (.cmpRm8Imm8Alias dst imm) :=
  encode_length _
theorem cmpRm16SImm8 (dst : RM16) (imm : Byte) : Statement (.cmpRm16SImm8 dst imm) :=
  encode_length _
theorem jo (r8 : Byte) : Statement (.jo r8) := encode_length _
theorem jno (r8 : Byte) : Statement (.jno r8) := encode_length _
theorem jb (r8 : Byte) : Statement (.jb r8) := encode_length _
theorem jnb (r8 : Byte) : Statement (.jnb r8) := encode_length _
theorem jz (r8 : Byte) : Statement (.jz r8) := encode_length _
theorem jnz (r8 : Byte) : Statement (.jnz r8) := encode_length _
theorem jbe (r8 : Byte) : Statement (.jbe r8) := encode_length _
theorem ja (r8 : Byte) : Statement (.ja r8) := encode_length _
theorem js (r8 : Byte) : Statement (.js r8) := encode_length _
theorem jns (r8 : Byte) : Statement (.jns r8) := encode_length _
theorem jp (r8 : Byte) : Statement (.jp r8) := encode_length _
theorem jnp (r8 : Byte) : Statement (.jnp r8) := encode_length _
theorem jl (r8 : Byte) : Statement (.jl r8) := encode_length _
theorem jnl (r8 : Byte) : Statement (.jnl r8) := encode_length _
theorem jle (r8 : Byte) : Statement (.jle r8) := encode_length _
theorem jg (r8 : Byte) : Statement (.jg r8) := encode_length _
theorem loopnz (r8 : Byte) : Statement (.loopnz r8) := encode_length _
theorem loopz (r8 : Byte) : Statement (.loopz r8) := encode_length _
theorem loop (r8 : Byte) : Statement (.loop r8) := encode_length _
theorem jcxz (r8 : Byte) : Statement (.jcxz r8) := encode_length _
theorem db (reason : FallbackReason) (bytes : List Byte) : Statement (.db reason bytes) := encode_length _

end EncodeLength

end Sys2Proof.Laws
end

