-- ==== Sys2Proof/Laws/Record.lean ====
section
/-! SUPPORT. What the decoded record holds of every instruction, and that the execution engine uses its values. -/

namespace Sys2Proof

@[simp] theorem recordOf_start (position : Nat) (i : Instr) : (recordOf position i).start = position := by
  cases i <;> rfl

@[simp] theorem recordOf_len (position : Nat) (i : Instr) : (recordOf position i).len = i.length := by
  cases i <;> rfl

@[simp] theorem recordOf_form (position : Nat) (i : Instr) : (recordOf position i).form = i.form := by
  cases i <;> rfl

/-- `next_position` is the record's end (R88). -/
theorem decodeRecord_start_add_len (buffer : List Byte) (position : Nat) :
    (decodeRecord buffer position).start + (decodeRecord buffer position).len = nextPosition buffer position := by
  unfold decodeRecord nextPosition
  cases decodeAt buffer position <;> simp

/-- A taken jump adds the record's `r8` to `ip` (spec/43_control.md R163). -/
theorem Machine.jumpBy_eq_trunc (r8 : Byte) (s : Machine.State) :
    Machine.jumpBy r8 s = { s with ip := BitVec.ofInt 16 ((s.ip.toNat : Int) + r8.toInt) } := by
  rw [BitVec.ofInt_add, BitVec.ofInt_natCast, BitVec.ofNat_toNat, BitVec.setWidth_eq]
  rfl

end Sys2Proof
end

