-- ==== Sys2Proof/Laws/Rules.lean ====
section
/-! SUPPORT. Every arm of `exec` as `perform` of one rule, what a rule may change, and every case of a step. -/

namespace Sys2Proof.Machine

/-- The instruction rule each meaning performs; a meaning that is a diagnostic no-op under both profiles performs
none. -/
def ruleOf : Instr → State → Except Fault State
  | .movRm8R8 d r => fun t => moveToRm8 d (t.regs.get8 r) t.params.clk.movRr t.params.clk.movMr t
  | .movRm16R16 d r => fun t => moveToRm16 d (t.regs.get16 r) t.params.clk.movRr t.params.clk.movMr t
  | .movR8Rm8 r o => moveFromRm8 r o
  | .movR16Rm16 r o => moveFromRm16 r o
  | .movRm8Imm8 d v => fun t => moveToRm8 d v t.params.clk.movRi t.params.clk.movMi t
  | .movRm16Imm16 d v => fun t => moveToRm16 d v t.params.clk.movRi t.params.clk.movMi t
  | .movR8Imm8 r v => fun t => .ok (charge t.params.clk.movRi (writeReg8 r v t))
  | .movR16Imm16 r v => fun t => .ok (charge t.params.clk.movRi (writeReg16 r v t))
  | .movAlMem x => loadAl x
  | .movAxMem x => loadAx x
  | .movMemAl x => storeAl x
  | .movMemAx x => storeAx x
  | .addRm8R8 d r => arithRm8R8 .add d r
  | .addRm16R16 d r => arithRm16R16 .add d r
  | .addR8Rm8 r o => arithR8Rm8 .add r o
  | .addR16Rm16 r o => arithR16Rm16 .add r o
  | .addAlImm8 v => arithAlImm8 .add v
  | .addAxImm16 v => arithAxImm16 .add v
  | .addRm8Imm8 d v => arithRm8Imm8 .add d v
  | .addRm16Imm16 d v => arithRm16Imm16 .add d v
  | .addRm8Imm8Alias d v => arithRm8Imm8 .add d v
  | .addRm16SImm8 d v => arithRm16Imm16 .add d (sextImm v)
  | .subRm8R8 d r => arithRm8R8 .sub d r
  | .subRm16R16 d r => arithRm16R16 .sub d r
  | .subR8Rm8 r o => arithR8Rm8 .sub r o
  | .subR16Rm16 r o => arithR16Rm16 .sub r o
  | .subAlImm8 v => arithAlImm8 .sub v
  | .subAxImm16 v => arithAxImm16 .sub v
  | .subRm8Imm8 d v => arithRm8Imm8 .sub d v
  | .subRm16Imm16 d v => arithRm16Imm16 .sub d v
  | .subRm8Imm8Alias d v => arithRm8Imm8 .sub d v
  | .subRm16SImm8 d v => arithRm16Imm16 .sub d (sextImm v)
  | .cmpRm8R8 d r => arithRm8R8 .cmp d r
  | .cmpRm16R16 d r => arithRm16R16 .cmp d r
  | .cmpR8Rm8 r o => arithR8Rm8 .cmp r o
  | .cmpR16Rm16 r o => arithR16Rm16 .cmp r o
  | .cmpAlImm8 v => arithAlImm8 .cmp v
  | .cmpAxImm16 v => arithAxImm16 .cmp v
  | .cmpRm8Imm8 d v => arithRm8Imm8 .cmp d v
  | .cmpRm16Imm16 d v => arithRm16Imm16 .cmp d v
  | .cmpRm8Imm8Alias d v => arithRm8Imm8 .cmp d v
  | .cmpRm16SImm8 d v => arithRm16Imm16 .cmp d (sextImm v)
  | .jo _ => .ok
  | .jno _ => .ok
  | .jb _ => .ok
  | .jnb _ => .ok
  | .jz r8 => fun t => jcc t.zf r8 t
  | .jnz r8 => fun t => jcc (!t.zf) r8 t
  | .jbe _ => .ok
  | .ja _ => .ok
  | .js r8 => fun t => jcc t.sf r8 t
  | .jns r8 => fun t => jcc (!t.sf) r8 t
  | .jp _ => .ok
  | .jnp _ => .ok
  | .jl _ => .ok
  | .jnl _ => .ok
  | .jle _ => .ok
  | .jg _ => .ok
  | .loopnz r8 => fun t => .ok (jumpIf ((decrementCx t).regs.cx != 0#16 && !(decrementCx t).zf)
    t.params.clk.loopnzTaken t.params.clk.loopnzNotTaken r8 (decrementCx t))
  | .loopz r8 => fun t => .ok (jumpIf ((decrementCx t).regs.cx != 0#16 && (decrementCx t).zf)
    t.params.clk.loopzTaken t.params.clk.loopzNotTaken r8 (decrementCx t))
  | .loop r8 => fun t => .ok (jumpIf ((decrementCx t).regs.cx != 0#16)
    t.params.clk.loopTaken t.params.clk.loopNotTaken r8 (decrementCx t))
  | .jcxz r8 => fun t => .ok (jumpIf (t.regs.cx == 0#16) t.params.clk.jcxzTaken t.params.clk.jcxzNotTaken r8 t)
  | .db _ _ => .ok

theorem exec_eq_perform (i : Instr) (s : State) : exec i s = perform i (ruleOf i) s := by
  cases i with
  | db reason bytes => cases reason <;> rfl
  | _ => rfl

/-! ### What a rule may change -/

theorem map_ok_inv {α β : Type} {x : Except Fault α} {f : α → β} {b : β}
    (h : (x >>= fun a => pure (f a)) = .ok b) :
    ∃ a, x = .ok a ∧ b = f a := by
  cases x with
  | error e => cases h
  | ok a => exact ⟨a, rfl, by cases h; rfl⟩

theorem bind_ok_inv {α β : Type} {x : Except Fault α} {f : α → Except Fault β} {b : β}
    (h : (x >>= f) = .ok b) :
    ∃ a, x = .ok a ∧ f a = .ok b := by
  cases x with
  | error e => cases h
  | ok a => exact ⟨a, rfl, h⟩

theorem sameRest_charge {s t : State} (n : Nat) (h : SameRest s t) : SameRest s (charge n t) :=
  h.trans ⟨rfl, rfl, rfl, rfl, rfl, rfl, rfl⟩

theorem sameRest_setFlags {s t : State} {n : Nat} (res : BitVec n) (h : SameRest s t) : SameRest s (setFlags res t) :=
  h.trans ⟨rfl, rfl, rfl, rfl, rfl, rfl, rfl⟩

theorem sameRest_jumpIf (c : Bool) (x y : Nat) (r8 : Byte) (s : State) : SameRest s (jumpIf c x y r8 s) := by
  cases c <;> exact ⟨rfl, rfl, rfl, rfl, rfl, rfl, rfl⟩

theorem sameRest_storeReg8 (op : AluOp) (r : Reg8) (res : Byte) (s : State) : SameRest s (storeReg8 op r res s) := by
  cases op <;> exact ⟨rfl, rfl, rfl, rfl, rfl, rfl, rfl⟩

theorem sameRest_storeReg16 (op : AluOp) (r : Reg16) (res : Word) (s : State) :
    SameRest s (storeReg16 op r res s) := by
  cases op <;> exact ⟨rfl, rfl, rfl, rfl, rfl, rfl, rfl⟩

theorem storeRm8_sameRest {op : AluOp} {o : RM8} {res : Byte} {s t : State} (h : storeRm8 op o res s = .ok t) :
    SameRest s t := by
  cases op with
  | cmp => cases h; exact .refl _
  | _ => exact writeRm8_sameRest h

theorem storeRm16_sameRest {op : AluOp} {o : RM16} {res : Word} {s t : State} (h : storeRm16 op o res s = .ok t) :
    SameRest s t := by
  cases op with
  | cmp => cases h; exact .refl _
  | _ => exact writeRm16_sameRest h

theorem arithRm8R8_sameRest {op : AluOp} {d : RM8} {r : Reg8} {s t : State} (h : arithRm8R8 op d r s = .ok t) :
    SameRest s t := by
  obtain ⟨a, -, h⟩ := bind_ok_inv h
  obtain ⟨u, hu, rfl⟩ := map_ok_inv h
  exact sameRest_charge _ (sameRest_setFlags _ (storeRm8_sameRest hu))

theorem arithRm16R16_sameRest {op : AluOp} {d : RM16} {r : Reg16} {s t : State}
    (h : arithRm16R16 op d r s = .ok t) : SameRest s t := by
  obtain ⟨a, -, h⟩ := bind_ok_inv h
  obtain ⟨u, hu, rfl⟩ := map_ok_inv h
  exact sameRest_charge _ (sameRest_setFlags _ (storeRm16_sameRest hu))

theorem arithRm8Imm8_sameRest {op : AluOp} {d : RM8} {v : Byte} {s t : State} (h : arithRm8Imm8 op d v s = .ok t) :
    SameRest s t := by
  obtain ⟨a, -, h⟩ := bind_ok_inv h
  obtain ⟨u, hu, rfl⟩ := map_ok_inv h
  exact sameRest_charge _ (sameRest_setFlags _ (storeRm8_sameRest hu))

theorem arithRm16Imm16_sameRest {op : AluOp} {d : RM16} {v : Word} {s t : State}
    (h : arithRm16Imm16 op d v s = .ok t) : SameRest s t := by
  obtain ⟨a, -, h⟩ := bind_ok_inv h
  obtain ⟨u, hu, rfl⟩ := map_ok_inv h
  exact sameRest_charge _ (sameRest_setFlags _ (storeRm16_sameRest hu))

theorem arithR8Rm8_sameRest {op : AluOp} {r : Reg8} {o : RM8} {s t : State} (h : arithR8Rm8 op r o s = .ok t) :
    SameRest s t := by
  obtain ⟨a, -, rfl⟩ := map_ok_inv h
  exact sameRest_charge _ (sameRest_setFlags _ (sameRest_storeReg8 _ _ _ _))

theorem arithR16Rm16_sameRest {op : AluOp} {r : Reg16} {o : RM16} {s t : State} (h : arithR16Rm16 op r o s = .ok t) :
    SameRest s t := by
  obtain ⟨a, -, rfl⟩ := map_ok_inv h
  exact sameRest_charge _ (sameRest_setFlags _ (sameRest_storeReg16 _ _ _ _))

theorem arithAlImm8_sameRest {op : AluOp} {v : Byte} {s t : State} (h : arithAlImm8 op v s = .ok t) :
    SameRest s t := by
  cases h
  exact sameRest_charge _ (sameRest_setFlags _ (sameRest_storeReg8 _ _ _ _))

theorem arithAxImm16_sameRest {op : AluOp} {v : Word} {s t : State} (h : arithAxImm16 op v s = .ok t) :
    SameRest s t := by
  cases h
  exact sameRest_charge _ (sameRest_setFlags _ (sameRest_storeReg16 _ _ _ _))

theorem moveToRm8_sameRest {d : RM8} {v : Byte} {x y : Nat} {s t : State} (h : moveToRm8 d v x y s = .ok t) :
    SameRest s t := by
  obtain ⟨u, hu, rfl⟩ := map_ok_inv h
  exact sameRest_charge _ (writeRm8_sameRest hu)

theorem moveToRm16_sameRest {d : RM16} {v : Word} {x y : Nat} {s t : State} (h : moveToRm16 d v x y s = .ok t) :
    SameRest s t := by
  obtain ⟨u, hu, rfl⟩ := map_ok_inv h
  exact sameRest_charge _ (writeRm16_sameRest hu)

theorem moveFromRm8_sameRest {r : Reg8} {o : RM8} {s t : State} (h : moveFromRm8 r o s = .ok t) : SameRest s t := by
  obtain ⟨a, -, rfl⟩ := map_ok_inv h
  exact sameRest_charge _ ⟨rfl, rfl, rfl, rfl, rfl, rfl, rfl⟩

theorem moveFromRm16_sameRest {r : Reg16} {o : RM16} {s t : State} (h : moveFromRm16 r o s = .ok t) :
    SameRest s t := by
  obtain ⟨a, -, rfl⟩ := map_ok_inv h
  exact sameRest_charge _ ⟨rfl, rfl, rfl, rfl, rfl, rfl, rfl⟩

/-- No rule changes the parameters, the image, `total_clocks` or the status record. -/
theorem rule_sameRest {i : Instr} {s t : State} (h : ruleOf i s = .ok t) : SameRest s t := by
  cases i with
  | movRm8R8 _ _ | movRm8Imm8 _ _ => exact moveToRm8_sameRest h
  | movRm16R16 _ _ | movRm16Imm16 _ _ => exact moveToRm16_sameRest h
  | movR8Rm8 _ _ => exact moveFromRm8_sameRest h
  | movR16Rm16 _ _ => exact moveFromRm16_sameRest h
  | movR8Imm8 _ _ | movR16Imm16 _ _ => cases h; exact ⟨rfl, rfl, rfl, rfl, rfl, rfl, rfl⟩
  | movAlMem _ | movAxMem _ =>
    obtain ⟨a, -, rfl⟩ := map_ok_inv h
    exact ⟨rfl, rfl, rfl, rfl, rfl, rfl, rfl⟩
  | movMemAl _ =>
    obtain ⟨u, hu, rfl⟩ := map_ok_inv h
    obtain ⟨-, -, rfl⟩ := memWrite8_eq_ok hu
    exact ⟨rfl, rfl, rfl, rfl, rfl, rfl, rfl⟩
  | movMemAx _ =>
    obtain ⟨u, hu, rfl⟩ := map_ok_inv h
    obtain ⟨-, -, rfl⟩ := memWrite16_eq_ok hu
    exact ⟨rfl, rfl, rfl, rfl, rfl, rfl, rfl⟩
  | addRm8R8 _ _ | subRm8R8 _ _ | cmpRm8R8 _ _ => exact arithRm8R8_sameRest h
  | addRm16R16 _ _ | subRm16R16 _ _ | cmpRm16R16 _ _ => exact arithRm16R16_sameRest h
  | addR8Rm8 _ _ | subR8Rm8 _ _ | cmpR8Rm8 _ _ => exact arithR8Rm8_sameRest h
  | addR16Rm16 _ _ | subR16Rm16 _ _ | cmpR16Rm16 _ _ => exact arithR16Rm16_sameRest h
  | addAlImm8 _ | subAlImm8 _ | cmpAlImm8 _ => exact arithAlImm8_sameRest h
  | addAxImm16 _ | subAxImm16 _ | cmpAxImm16 _ => exact arithAxImm16_sameRest h
  | addRm8Imm8 _ _ | subRm8Imm8 _ _ | cmpRm8Imm8 _ _ => exact arithRm8Imm8_sameRest h
  | addRm8Imm8Alias _ _ | subRm8Imm8Alias _ _ | cmpRm8Imm8Alias _ _ => exact arithRm8Imm8_sameRest h
  | addRm16Imm16 _ _ | subRm16Imm16 _ _ | cmpRm16Imm16 _ _ => exact arithRm16Imm16_sameRest h
  | addRm16SImm8 _ _ | subRm16SImm8 _ _ | cmpRm16SImm8 _ _ => exact arithRm16Imm16_sameRest h
  | jz _ | jnz _ | js _ | jns _ | jcxz _ => cases h; exact sameRest_jumpIf _ _ _ _ _
  | loopnz _ | loopz _ | loop _ =>
    cases h
    exact SameRest.trans (t := decrementCx s) ⟨rfl, rfl, rfl, rfl, rfl, rfl, rfl⟩ (sameRest_jumpIf _ _ _ _ _)
  | _ => cases h; exact .refl _

/-! ### What a rule does to memory -/

/-- `t` has `s`'s memory, or one byte or one word of it written, inside memory and outside the image. -/
def StoresAtMost (s t : State) : Prop :=
  t.mem = s.mem ∨
  (∃ a v, a + 1 ≤ 65536 ∧ s.codeLen ≤ a ∧ t.mem = s.mem.write a v) ∨
  ∃ a v, a + 2 ≤ 65536 ∧ s.codeLen ≤ a ∧ t.mem = (s.mem.write a (lowByte v)).write (a + 1) (highByte v)

theorem writeRm8_storesAtMost {o : RM8} {v : Byte} {s t : State} (h : writeRm8 o v s = .ok t) : StoresAtMost s t := by
  obtain ⟨r, -, rfl⟩ | ⟨m, -, h1, h2, rfl⟩ := writeRm8_eq_ok h
  · exact .inl rfl
  · exact .inr (.inl ⟨_, _, h1, h2, rfl⟩)

theorem writeRm16_storesAtMost {o : RM16} {v : Word} {s t : State} (h : writeRm16 o v s = .ok t) :
    StoresAtMost s t := by
  obtain ⟨r, -, rfl⟩ | ⟨m, -, h1, h2, rfl⟩ := writeRm16_eq_ok h
  · exact .inl rfl
  · exact .inr (.inr ⟨_, _, h1, h2, rfl⟩)

theorem storeRm8_storesAtMost {op : AluOp} {o : RM8} {v : Byte} {s t : State} (h : storeRm8 op o v s = .ok t) :
    StoresAtMost s t := by
  cases op with
  | cmp => cases h; exact .inl rfl
  | _ => exact writeRm8_storesAtMost h

theorem storeRm16_storesAtMost {op : AluOp} {o : RM16} {v : Word} {s t : State} (h : storeRm16 op o v s = .ok t) :
    StoresAtMost s t := by
  cases op with
  | cmp => cases h; exact .inl rfl
  | _ => exact writeRm16_storesAtMost h

/-- A rule stores at most one byte or word, inside memory and outside the image. -/
theorem rule_storesAtMost {i : Instr} {s t : State} (h : ruleOf i s = .ok t) : StoresAtMost s t := by
  cases i with
  | movRm8R8 _ _ | movRm8Imm8 _ _ =>
    obtain ⟨u, hu, rfl⟩ := map_ok_inv h
    exact (show StoresAtMost s u from writeRm8_storesAtMost hu)
  | movRm16R16 _ _ | movRm16Imm16 _ _ =>
    obtain ⟨u, hu, rfl⟩ := map_ok_inv h
    exact (show StoresAtMost s u from writeRm16_storesAtMost hu)
  | movMemAl _ =>
    obtain ⟨u, hu, rfl⟩ := map_ok_inv h
    obtain ⟨h1, h2, rfl⟩ := memWrite8_eq_ok hu
    exact .inr (.inl ⟨_, _, h1, h2, rfl⟩)
  | movMemAx _ =>
    obtain ⟨u, hu, rfl⟩ := map_ok_inv h
    obtain ⟨h1, h2, rfl⟩ := memWrite16_eq_ok hu
    exact .inr (.inr ⟨_, _, h1, h2, rfl⟩)
  | addRm8R8 _ _ | subRm8R8 _ _ | cmpRm8R8 _ _ | addRm8Imm8 _ _ | subRm8Imm8 _ _ | cmpRm8Imm8 _ _
  | addRm8Imm8Alias _ _ | subRm8Imm8Alias _ _ | cmpRm8Imm8Alias _ _ =>
    obtain ⟨a, -, h⟩ := bind_ok_inv h
    obtain ⟨u, hu, rfl⟩ := map_ok_inv h
    exact (show StoresAtMost s u from storeRm8_storesAtMost hu)
  | addRm16R16 _ _ | subRm16R16 _ _ | cmpRm16R16 _ _ | addRm16Imm16 _ _ | subRm16Imm16 _ _ | cmpRm16Imm16 _ _
  | addRm16SImm8 _ _ | subRm16SImm8 _ _ | cmpRm16SImm8 _ _ =>
    obtain ⟨a, -, h⟩ := bind_ok_inv h
    obtain ⟨u, hu, rfl⟩ := map_ok_inv h
    exact (show StoresAtMost s u from storeRm16_storesAtMost hu)
  | movR8Rm8 _ _ | movR16Rm16 _ _ | movAlMem _ | movAxMem _ =>
    obtain ⟨u, -, rfl⟩ := map_ok_inv h
    exact .inl rfl
  | addR8Rm8 _ _ | addR16Rm16 _ _ | subR8Rm8 _ _ | subR16Rm16 _ _ | cmpR8Rm8 _ _ | cmpR16Rm16 _ _ =>
    obtain ⟨u, -, rfl⟩ := map_ok_inv h
    exact .inl rfl
  | jz _ | jnz _ | js _ | jns _ | jcxz _ | loop _ | loopz _ | loopnz _ =>
    cases h
    simp only [jumpIf]
    split <;> exact .inl rfl
  | _ => cases h; exact .inl rfl

/-- Such a store keeps memory canonical. -/
theorem StoresAtMost.wf {s t : State} (h : StoresAtMost s t) (hs : s.mem.wf = true) : t.mem.wf = true := by
  obtain h | ⟨a, v, h1, -, h⟩ | ⟨a, v, h1, -, h⟩ := h <;> rw [h]
  · exact hs
  · exact write_wf hs _ h1
  · exact write_wf (write_wf hs _ (show a < 65536 by omega)) _ (show a + 1 < 65536 by omega)

/-- Such a store leaves the program's bytes alone. -/
theorem StoresAtMost.image {s t : State} (h : StoresAtMost s t) {a : Nat} (ha : a < s.codeLen) :
    t.mem.read a = s.mem.read a := by
  obtain h | ⟨b, v, -, h2, h⟩ | ⟨b, v, -, h2, h⟩ := h <;> rw [h]
  · exact read_write_other _ _ _ (by omega)
  · exact read_write16_other _ _ _ (by omega) (by omega)

/-- Everything `exec` can do: a diagnostic no-op, a fault taken, or the rule's effect. -/
theorem exec_cases (i : Instr) (s : State) :
    (∃ code, diagnosis i s.params.profile = some code ∧ exec i s = .next (diagnosticStep code i.length s)) ∨
    (∃ f, diagnosis i s.params.profile = none ∧ ruleOf i (beginStep i.length s) = .error f ∧
      exec i s = .next (takeFault f s)) ∨
    ∃ t, diagnosis i s.params.profile = none ∧ ruleOf i (beginStep i.length s) = .ok t ∧
      exec i s = .next (finishStep t) := by
  rw [exec_eq_perform]
  exact perform_cases i (ruleOf i) s

/-! ### A step -/

theorem step_eq_of_stopped {s : State} (h : s.runState ≠ .running) : step s = .next s := by
  unfold step sequencerStep
  cases hr : s.runState <;> simp_all

/-- Everything a step can do: nothing, halting, or running the decoded instruction. -/
theorem step_cases (s : State) :
    (s.runState ≠ .running ∧ step s = .next s) ∨
    (s.runState = .running ∧ s.codeLen ≤ s.ip.toNat ∧ step s = .next { s with runState := .halted }) ∨
    ∃ i, s.runState = .running ∧ s.ip.toNat < s.codeLen ∧ decodeBytes (s.image.drop s.ip.toNat) = some i ∧
      step s = exec i s := by
  by_cases hr : s.runState = .running
  · by_cases hip : s.codeLen ≤ s.ip.toNat
    · exact .inr (.inl ⟨hr, hip, by simp [step, sequencerStep, hr, hip]⟩)
    · have hlt : s.ip.toNat < s.image.length := by simpa using hip
      obtain ⟨i, hi⟩ : ∃ i, decodeBytes (s.image.drop s.ip.toNat) = some i := by
        rw [List.drop_eq_getElem_cons hlt]
        exact decodeBytes_cons _ _
      refine .inr (.inr ⟨i, hr, by omega, hi, ?_⟩)
      simp only [step, sequencerStep, hr, hip, if_false]
      simp [execute, decodeAt, hi]
  · exact .inl ⟨hr, step_eq_of_stopped hr⟩

end Sys2Proof.Machine
end

