-- ==== Sys2Proof/Tests/Slice0.lean ====
section
/-! SUPPORT. The model's tests. Expected results are the spec's own: the encodings of spec/30_encoding.md, and the
vectors of spec/95_test_vectors.md (named V- and X- as there). At the end, a witness for the hypotheses of each
obligation that has some. -/

namespace Sys2Proof.Tests

open Sys2Proof Sys2Proof.Machine Sys2Proof.Spec

/-! ### Ill-formed terms are refused -/

theorem test_wf_bpWithoutDisplacement :
    (Instr.movRm16R16 (.mem (.noDisp .bp)) .ax).wf = false ∧ (Instr.cmpR8Rm8 .al (.mem (.noDisp .bp))).wf = false ∧
    (Instr.movRm16R16 (.mem (.noDisp .bx)) .ax).wf = true := by decide

theorem test_wf_emptyFallback :
    (Instr.db .unmapped []).wf = false ∧ (Instr.db .subop []).wf = false ∧ (Instr.db .truncated []).wf = false := by
  decide

theorem test_wf_unmappedFallback :
    (Instr.db .unmapped (bytes [0x89, 0xd9])).wf = false ∧ (Instr.db .unmapped (bytes [0x90])).wf = true := by decide

theorem test_wf_subopFallback :
    (Instr.db .subop (bytes [0x80])).wf = false ∧ (Instr.db .subop (bytes [0x80, 0xe8])).wf = false ∧
    (Instr.db .subop (bytes [0xc6, 0xc0])).wf = false ∧ (Instr.db .subop (bytes [0xc6, 0xc8])).wf = true := by decide

theorem test_wf_truncatedFallback :
    (Instr.db .truncated (bytes [0x8b, 0x56, 0x00])).wf = false ∧
    (Instr.db .truncated (bytes [0x90])).wf = false ∧
    (Instr.db .truncated (bytes [0x80, 0xc8])).wf = false ∧
    (Instr.db .truncated (bytes [0x8b, 0x56])).wf = true := by decide

/-! ### A word of every form decodes to its instruction (spec/30_encoding.md R62 to R77) -/

theorem test_decode_mov :
    [[0x88, 0x1c], [0x89, 0xd9], [0x8a, 0x60, 0x04], [0x8b, 0x86, 0x00, 0xfe], [0xc6, 0x03, 0x07],
      [0xc7, 0x06, 0xe8, 0x03, 0x34, 0x12], [0xb1, 0x0c], [0xbf, 0x34, 0x12], [0xa0, 0xe8, 0x03], [0xa1, 0xe8, 0x03],
      [0xa2, 0xe8, 0x03], [0xa3, 0xe8, 0x03]].map (decodeBytes ∘ bytes) =
    [.movRm8R8 (.mem (.noDisp .si)) .bl, .movRm16R16 (.reg .cx) .bx, .movR8Rm8 .ah (.mem (.disp8 .bxSi 4)),
      .movR16Rm16 .ax (.mem (.disp16 .bp 0xfe00)), .movRm8Imm8 (.mem (.noDisp .bpDi)) 7,
      .movRm16Imm16 (.mem (.direct 0x3e8)) 0x1234, .movR8Imm8 .cl 0x0c, .movR16Imm16 .di 0x1234, .movAlMem 0x3e8,
      .movAxMem 0x3e8, .movMemAl 0x3e8, .movMemAx 0x3e8].map some := by decide

theorem test_decode_add :
    [[0x00, 0xd8], [0x01, 0x6f, 0xfe], [0x02, 0x07], [0x03, 0x1e, 0x00, 0x02], [0x04, 0x7f],
      [0x05, 0xe8, 0x03], [0x80, 0x07, 0x22], [0x81, 0xc6, 0x00, 0x10], [0x82, 0xc1, 0x80],
      [0x83, 0xc2, 0xfe]].map (decodeBytes ∘ bytes) =
    [.addRm8R8 (.reg .al) .bl, .addRm16R16 (.mem (.disp8 .bx 0xfe)) .bp,
      .addR8Rm8 .al (.mem (.noDisp .bx)), .addR16Rm16 .bx (.mem (.direct 0x200)), .addAlImm8 0x7f,
      .addAxImm16 0x3e8, .addRm8Imm8 (.mem (.noDisp .bx)) 0x22, .addRm16Imm16 (.reg .si) 0x1000,
      .addRm8Imm8Alias (.reg .cl) 0x80, .addRm16SImm8 (.reg .dx) 0xfe].map some := by decide

theorem test_decode_sub :
    [[0x28, 0xd8], [0x29, 0x6f, 0xfe], [0x2a, 0x07], [0x2b, 0x1e, 0x00, 0x02], [0x2c, 0x7f],
      [0x2d, 0xe8, 0x03], [0x80, 0x2f, 0x22], [0x81, 0xee, 0x00, 0x10], [0x82, 0xe9, 0x80],
      [0x83, 0xea, 0xfe]].map (decodeBytes ∘ bytes) =
    [.subRm8R8 (.reg .al) .bl, .subRm16R16 (.mem (.disp8 .bx 0xfe)) .bp,
      .subR8Rm8 .al (.mem (.noDisp .bx)), .subR16Rm16 .bx (.mem (.direct 0x200)), .subAlImm8 0x7f,
      .subAxImm16 0x3e8, .subRm8Imm8 (.mem (.noDisp .bx)) 0x22, .subRm16Imm16 (.reg .si) 0x1000,
      .subRm8Imm8Alias (.reg .cl) 0x80, .subRm16SImm8 (.reg .dx) 0xfe].map some := by decide

theorem test_decode_cmp :
    [[0x38, 0xd8], [0x39, 0x6f, 0xfe], [0x3a, 0x07], [0x3b, 0x1e, 0x00, 0x02], [0x3c, 0x7f],
      [0x3d, 0xe8, 0x03], [0x80, 0x3f, 0x22], [0x81, 0xfe, 0x00, 0x10], [0x82, 0xf9, 0x80],
      [0x83, 0xfa, 0xfe]].map (decodeBytes ∘ bytes) =
    [.cmpRm8R8 (.reg .al) .bl, .cmpRm16R16 (.mem (.disp8 .bx 0xfe)) .bp,
      .cmpR8Rm8 .al (.mem (.noDisp .bx)), .cmpR16Rm16 .bx (.mem (.direct 0x200)), .cmpAlImm8 0x7f,
      .cmpAxImm16 0x3e8, .cmpRm8Imm8 (.mem (.noDisp .bx)) 0x22, .cmpRm16Imm16 (.reg .si) 0x1000,
      .cmpRm8Imm8Alias (.reg .cl) 0x80, .cmpRm16SImm8 (.reg .dx) 0xfe].map some := by decide

theorem test_decode_jumps :
    ((List.range 16).map (0x70 + ·) ++ [0xe0, 0xe1, 0xe2, 0xe3]).map (fun op => decodeBytes (bytes [op, 0xfc])) =
      (jumps.map fun e => some (e.1 0xfc)) := by decide

theorem test_decode_fallbacks :
    [[0x90, 0x89, 0xd9], [0x80, 0xc8, 0x05], [0xc7, 0xc8], [0x8b, 0x56], [0xc7, 0x06, 0x00], [0xb8, 0x05], [0x80]].map
        (decodeBytes ∘ bytes) =
      [some (.db .unmapped (bytes [0x90, 0x89, 0xd9])), some (.db .subop (bytes [0x80, 0xc8, 0x05])),
        some (.db .subop (bytes [0xc7, 0xc8])), some (.db .truncated (bytes [0x8b, 0x56])),
        some (.db .truncated (bytes [0xc7, 0x06, 0x00])), some (.db .truncated (bytes [0xb8, 0x05])),
        some (.db .truncated (bytes [0x80]))] := by decide

/-- Numbered as the opcode table numbers them: 0x89 0xd9, and a row's word with its operand bytes zero. -/
theorem test_decodeTableWord :
    decodeTableWord 16 0xd989 = some (.movRm16R16 (.reg .cx) .bx) ∧
    decodeTableWord 8 0xb8 = some (.movR16Imm16 .ax 0) ∧
    decodeTableWord 16 0x06c7 = some (.movRm16Imm16 (.mem (.direct 0)) 0) ∧
    decodeTableWord 8 0x90 = some (.db .unmapped (bytes [0x90, 0, 0, 0, 0, 0])) := by decide

/-- The values of spec/40_decoder.md R89, R97, R100 and R101's examples, and of R91 and R93's. -/
theorem test_decodeRecord :
    decodeRecord (bytes [0x8b, 0x46, 0xfe]) 0 =
      { kind := .inst, start := 0, len := 3, form := some 4, op := some 0x8b, d := some 1, w := some 1, mod := some 1,
        reg := some 0, rm := some 6, disp := some (-2) } ∧
    decodeRecord (bytes [0x90, 0x83, 0xc1, 0xfe]) 1 =
      { kind := .inst, start := 1, len := 3, form := some 22, op := some 0x83, s := some 1, w := some 1,
        mod := some 3, reg := some 0, rm := some 1, imm := some (.word 0xfffe) } ∧
    (decodeRecord (bytes [0xc7, 0x06, 0xe8, 0x03, 0x34, 0x12]) 0).disp = some 1000 ∧
    (decodeRecord (bytes [0xb1, 0x0c]) 0).imm = some (.byte 0x0c) ∧
    (decodeRecord (bytes [0xa3, 0xe8, 0x03]) 0).a16 = some 0x3e8 ∧
    decodeRecord (bytes [0x75, 0xfc]) 0 =
      { kind := .inst, start := 0, len := 2, form := some 48, op := some 0x75, r8 := some (-4) } ∧
    decodeRecord (bytes [0x8b, 0x56]) 0 = { kind := .fallback, start := 0, len := 2, reason := some .truncated } ∧
    decodeRecord (bytes [0x80, 0xc8, 0x05]) 0 = { kind := .fallback, start := 0, len := 3, reason := some .subop } ∧
    decodeRecord (bytes [0x90]) 1 = { kind := .empty, start := 1, len := 0 } := by decide

/-! ### One step (spec/95_test_vectors.md part 2) -/

def zero : Regs := { ax := 0, cx := 0, dx := 0, bx := 0, sp := 0, bp := 0, si := 0, di := 0 }

/-- The loaded state of a vector, changed as its start column says. -/
def start (profile : Profile) (image : List Nat) (regs : Regs) (cells : List (Nat × Byte)) (zf sf : Bool) : State :=
  let s := loadedState { defaultParams with profile := profile } (bytes image)
  { s with regs := regs, mem := cells.foldl (fun m c => m.write c.1 c.2) s.mem, zf := zf, sf := sf }

/-- The state after one step. -/
def after (s : State) : State :=
  match step s with
  | .next t => t
  | _ => s

/-- V-M1: `mov [si],bl`. -/
theorem test_movRm8R8 :
    let s := start .full [0x88, 0x1c] { zero with si := 0x0200, bx := 0x12ab } [] false false
    after s = { s with mem := s.mem.write 0x200 0xab, ip := 0x2, clocks := 14, totalClocks := 14 } := by
  decide

/-- V-M2: `mov ah,al`. -/
theorem test_movRm8R8_high :
    let s := start .full [0x88, 0xc4] { zero with ax := 0x0055 } [] false false
    after s = { s with regs := { s.regs with ax := 0x5555 }, ip := 0x2, clocks := 2, totalClocks := 2 } := by
  decide

/-- V-M3: `mov cx,bx`. -/
theorem test_movRm16R16 :
    let s := start .full [0x89, 0xd9] { zero with bx := 0x1234 } [] false false
    after s = { s with regs := { s.regs with cx := 0x1234 }, ip := 0x2, clocks := 2, totalClocks := 2 } := by
  decide

/-- V-M24: `mov [bx],ax`. -/
theorem test_movRm16R16_smc :
    let s := start .full [0x89, 0x07, 0x00] { zero with bx := 0x0001 } [] false false
    after s = { s with ip := 0x0, clocks := 0, totalClocks := 0, runState := .faulted, faultCode := some .smc } := by
  decide

/-- V-M6: `mov ah,[bx+si+0x4]`. -/
theorem test_movR8Rm8 :
    let s := start .full [0x8a, 0x60, 0x04] { zero with bx := 0x0100, si := 0x0200 } [(0x304, 0x5a)] false false
    after s = { s with regs := { s.regs with ax := 0x5a00 }, ip := 0x3, clocks := 19, totalClocks := 19 } := by
  decide

/-- V-M7: `mov bl,[bx]`. -/
theorem test_movR8Rm8_base :
    let s := start .full [0x8a, 0x1f] { zero with bx := 0x02ff } [(0x2ff, 0x77)] false false
    after s = { s with regs := { s.regs with bx := 0x0277 }, ip := 0x2, clocks := 13, totalClocks := 13 } := by
  decide

/-- V-M5: `mov bx,[bx]`. -/
theorem test_movR16Rm16 :
    let s := start .full [0x8b, 0x1f] { zero with bx := 0x0200 } [(0x200, 0x34), (0x201, 0x12)] false false
    after s = { s with regs := { s.regs with bx := 0x1234 }, ip := 0x2, clocks := 13, totalClocks := 13 } := by
  decide

/-- V-M21: `mov ax,[bx]`. -/
theorem test_movR16Rm16_range :
    let s := start .full [0x8b, 0x07] { zero with bx := 0xffff } [] false false
    after s = { s with
      ip := 0x0, clocks := 0, totalClocks := 0, runState := .faulted, faultCode := some .eaRange } := by
  decide

/-- V-M10: `mov byte [bp+di],0x7`. -/
theorem test_movRm8Imm8 :
    let s := start .full [0xc6, 0x03, 0x07] { zero with bp := 0x0100, di := 0x0020 } [] false false
    after s = { s with mem := s.mem.write 0x120 0x07, ip := 0x3, clocks := 17, totalClocks := 17 } := by
  decide

/-- V-M11: `mov word [0x200],0xffff`. -/
theorem test_movRm16Imm16 :
    let s := start .full [0xc7, 0x06, 0x00, 0x02, 0xff, 0xff] zero [] false false
    after s = { s with
      mem := (s.mem.write 0x200 0xff).write 0x201 0xff, ip := 0x6, clocks := 16, totalClocks := 16 } := by
  decide

/-- V-M12: `mov bx,0x1234`. -/
theorem test_movRm16Imm16_reg :
    let s := start .full [0xc7, 0xc3, 0x34, 0x12] zero [] false false
    after s = { s with regs := { s.regs with bx := 0x1234 }, ip := 0x4, clocks := 4, totalClocks := 4 } := by
  decide

/-- V-M13: `mov cl,0xc`. -/
theorem test_movR8Imm8 :
    let s := start .full [0xb1, 0x0c] { zero with cx := 0xff00 } [] false false
    after s = { s with regs := { s.regs with cx := 0xff0c }, ip := 0x2, clocks := 4, totalClocks := 4 } := by
  decide

/-- V-M14: `mov ah,0xff`. -/
theorem test_movR8Imm8_high :
    let s := start .full [0xb4, 0xff] { zero with ax := 0x0011 } [] false false
    after s = { s with regs := { s.regs with ax := 0xff11 }, ip := 0x2, clocks := 4, totalClocks := 4 } := by
  decide

/-- V-M15: `mov ax,0x5`. -/
theorem test_movR16Imm16 :
    let s := start .full [0xb8, 0x05, 0x00] zero [] true true
    after s = { s with regs := { s.regs with ax := 0x0005 }, ip := 0x3, clocks := 4, totalClocks := 4 } := by
  decide

/-- V-M16: `mov al,[0x3e8]`. -/
theorem test_movAlMem :
    let s := start .full [0xa0, 0xe8, 0x03] zero [(0x3e8, 0x77)] false false
    after s = { s with regs := { s.regs with ax := 0x0077 }, ip := 0x3, clocks := 10, totalClocks := 10 } := by
  decide

/-- V-M17: `mov ax,[0x3e8]`. -/
theorem test_movAxMem :
    let s := start .full [0xa1, 0xe8, 0x03] zero [(0x3e8, 0x34), (0x3e9, 0x12)] false false
    after s = { s with regs := { s.regs with ax := 0x1234 }, ip := 0x3, clocks := 10, totalClocks := 10 } := by
  decide

/-- V-M20: `mov ax,[0xffff]`. -/
theorem test_movAxMem_range :
    let s := start .full [0xa1, 0xff, 0xff] zero [] false false
    after s = { s with
      ip := 0x0, clocks := 0, totalClocks := 0, runState := .faulted, faultCode := some .eaRange } := by
  decide

/-- V-M18: `mov [0x3e8],al`. -/
theorem test_movMemAl :
    let s := start .full [0xa2, 0xe8, 0x03] { zero with ax := 0x1299 } [] false false
    after s = { s with mem := s.mem.write 0x3e8 0x99, ip := 0x3, clocks := 10, totalClocks := 10 } := by
  decide

/-- V-M19: `mov [0x3e8],ax`. -/
theorem test_movMemAx :
    let s := start .full [0xa3, 0xe8, 0x03] { zero with ax := 0x1234 } [] false false
    after s = { s with
      mem := (s.mem.write 0x3e8 0x34).write 0x3e9 0x12, ip := 0x3, clocks := 10, totalClocks := 10 } := by
  decide

/-- V-A1: `add al,bl`. -/
theorem test_addRm8R8 :
    let s := start .full [0x00, 0xd8] { zero with ax := 0x0080, bx := 0x0080 } [] false false
    after s = { s with
      regs := { s.regs with ax := 0x0000 }, zf := true, ip := 0x2, clocks := 3, totalClocks := 3 } := by
  decide

/-- V-A2: `add ax,bx`. -/
theorem test_addRm16R16 :
    let s := start .full [0x01, 0xd8] { zero with ax := 0x7fff, bx := 0x0001 } [] false false
    after s = { s with
      regs := { s.regs with ax := 0x8000 }, sf := true, ip := 0x2, clocks := 3, totalClocks := 3 } := by
  decide

/-- V-A7: `add [bx],ax`. -/
theorem test_addRm16R16_mem :
    let s := start .full [0x01, 0x07] { zero with bx := 0x0200, ax := 0x0101 }
      [(0x200, 0xff), (0x201, 0x00)] false false
    after s = { s with
      mem := (s.mem.write 0x200 0x00).write 0x201 0x02, ip := 0x2, clocks := 21, totalClocks := 21 } := by
  decide

/-- V-A5: `add al,[bx]`. -/
theorem test_addR8Rm8 :
    let s := start .full [0x02, 0x07] { zero with bx := 0x0200, ax := 0x0003 } [(0x200, 0x05)] false false
    after s = { s with regs := { s.regs with ax := 0x0008 }, ip := 0x2, clocks := 14, totalClocks := 14 } := by
  decide

/-- V-A6: `add bx,[bp+0x0]`. -/
theorem test_addR16Rm16 :
    let s := start .full [0x03, 0x5e, 0x00] { zero with bp := 0x0300, bx := 0x0002 }
      [(0x300, 0xfe), (0x301, 0xff)] false false
    after s = { s with
      regs := { s.regs with bx := 0x0000 }, zf := true, ip := 0x3, clocks := 18, totalClocks := 18 } := by
  decide

/-- V-A8: `add al,0x7f`. -/
theorem test_addAlImm8 :
    let s := start .full [0x04, 0x7f] { zero with ax := 0x0001 } [] false false
    after s = { s with
      regs := { s.regs with ax := 0x0080 }, sf := true, ip := 0x2, clocks := 4, totalClocks := 4 } := by
  decide

/-- V-A9: `add ax,0x3e8`. -/
theorem test_addAxImm16 :
    let s := start .full [0x05, 0xe8, 0x03] { zero with ax := 0x0010 } [] false false
    after s = { s with regs := { s.regs with ax := 0x03f8 }, ip := 0x3, clocks := 4, totalClocks := 4 } := by
  decide

/-- V-A10: `add byte [bx],0x22`. -/
theorem test_addRm8Imm8 :
    let s := start .full [0x80, 0x07, 0x22] { zero with bx := 0x0200 } [(0x200, 0xde)] false false
    after s = { s with mem := s.mem.write 0x200 0x00, zf := true, ip := 0x3, clocks := 22, totalClocks := 22 } := by
  decide

/-- V-A11: `add si,0x1000`. -/
theorem test_addRm16Imm16 :
    let s := start .full [0x81, 0xc6, 0x00, 0x10] { zero with si := 0xf000 } [] false false
    after s = { s with
      regs := { s.regs with si := 0x0000 }, zf := true, ip := 0x4, clocks := 4, totalClocks := 4 } := by
  decide

/-- V-A12: `add cl,0x1`. -/
theorem test_addRm8Imm8Alias :
    let s := start .full [0x82, 0xc1, 0x01] { zero with cx := 0x12ff } [] false false
    after s = { s with
      regs := { s.regs with cx := 0x1200 }, zf := true, ip := 0x3, clocks := 4, totalClocks := 4 } := by
  decide

/-- V-A13: `add cx,0xfffe`. -/
theorem test_addRm16SImm8 :
    let s := start .full [0x83, 0xc1, 0xfe] { zero with cx := 0x0005 } [] false false
    after s = { s with regs := { s.regs with cx := 0x0003 }, ip := 0x3, clocks := 4, totalClocks := 4 } := by
  decide

/-- V-A14: `add cx,0xffff`. -/
theorem test_addRm16SImm8_minus :
    let s := start .full [0x83, 0xc1, 0xff] { zero with cx := 0x0000 } [] false false
    after s = { s with
      regs := { s.regs with cx := 0xffff }, sf := true, ip := 0x3, clocks := 4, totalClocks := 4 } := by
  decide

/-- V-S1: `sub al,ah`. -/
theorem test_subRm8R8 :
    let s := start .full [0x28, 0xe0] { zero with ax := 0x0201 } [] false false
    after s = { s with
      regs := { s.regs with ax := 0x02ff }, sf := true, ip := 0x2, clocks := 3, totalClocks := 3 } := by
  decide

/-- V-S4: `sub ax,ax`. -/
theorem test_subRm16R16 :
    let s := start .full [0x29, 0xc0] { zero with ax := 0x0007 } [] false true
    after s = { s with
      regs := { s.regs with ax := 0x0000 }, zf := true, sf := false, ip := 0x2, clocks := 3, totalClocks := 3 } := by
  decide

/-- V-S15: `sub [bx],bp`. -/
theorem test_subRm16R16_mem :
    let s := start .full [0x29, 0x2f] { zero with bx := 0x0201, bp := 0x0001 }
      [(0x201, 0x03), (0x202, 0x00)] false false
    after s = { s with mem := s.mem.write 0x201 0x02, ip := 0x2, clocks := 21, totalClocks := 21 } := by
  decide

/-- V-S6: `sub cl,[bx]`. -/
theorem test_subR8Rm8 :
    let s := start .full [0x2a, 0x0f] { zero with bx := 0x0200, cx := 0x0001 } [(0x200, 0x01)] false false
    after s = { s with
      regs := { s.regs with cx := 0x0000 }, zf := true, ip := 0x2, clocks := 14, totalClocks := 14 } := by
  decide

/-- V-S7: `sub bx,[0x200]`. -/
theorem test_subR16Rm16 :
    let s := start .full [0x2b, 0x1e, 0x00, 0x02] zero [(0x200, 0x01)] false false
    after s = { s with
      regs := { s.regs with bx := 0xffff }, sf := true, ip := 0x4, clocks := 15, totalClocks := 15 } := by
  decide

/-- V-S8: `sub al,0x1`. -/
theorem test_subAlImm8 :
    let s := start .full [0x2c, 0x01] { zero with ax := 0x1200 } [] false false
    after s = { s with
      regs := { s.regs with ax := 0x12ff }, sf := true, ip := 0x2, clocks := 4, totalClocks := 4 } := by
  decide

/-- V-S9: `sub ax,0x8000`. -/
theorem test_subAxImm16 :
    let s := start .full [0x2d, 0x00, 0x80] { zero with ax := 0x8000 } [] false false
    after s = { s with
      regs := { s.regs with ax := 0x0000 }, zf := true, ip := 0x3, clocks := 4, totalClocks := 4 } := by
  decide

/-- V-S10: `sub byte [bx],0x1`. -/
theorem test_subRm8Imm8 :
    let s := start .full [0x80, 0x2f, 0x01] { zero with bx := 0x0200 } [] false false
    after s = { s with mem := s.mem.write 0x200 0xff, sf := true, ip := 0x3, clocks := 22, totalClocks := 22 } := by
  decide

/-- V-S11: `sub bx,0x1234`. -/
theorem test_subRm16Imm16 :
    let s := start .full [0x81, 0xeb, 0x34, 0x12] { zero with bx := 0x1234 } [] false false
    after s = { s with
      regs := { s.regs with bx := 0x0000 }, zf := true, ip := 0x4, clocks := 4, totalClocks := 4 } := by
  decide

/-- V-S12: `sub cl,0x10`. -/
theorem test_subRm8Imm8Alias :
    let s := start .full [0x82, 0xe9, 0x10] { zero with cx := 0x0010 } [] false false
    after s = { s with
      regs := { s.regs with cx := 0x0000 }, zf := true, ip := 0x3, clocks := 4, totalClocks := 4 } := by
  decide

/-- V-S13: `sub cx,0x1`. -/
theorem test_subRm16SImm8 :
    let s := start .full [0x83, 0xe9, 0x01] { zero with cx := 0x0001 } [] false false
    after s = { s with
      regs := { s.regs with cx := 0x0000 }, zf := true, ip := 0x3, clocks := 4, totalClocks := 4 } := by
  decide

/-- V-S14: `sub cx,0xff80`. -/
theorem test_subRm16SImm8_minus :
    let s := start .full [0x83, 0xe9, 0x80] { zero with cx := 0x0000 } [] false false
    after s = { s with regs := { s.regs with cx := 0x0080 }, ip := 0x3, clocks := 4, totalClocks := 4 } := by
  decide

/-- V-C1: `cmp al,bl`. -/
theorem test_cmpRm8R8 :
    let s := start .full [0x38, 0xd8] { zero with ax := 0x0010, bx := 0x0020 } [] false false
    after s = { s with sf := true, ip := 0x2, clocks := 3, totalClocks := 3 } := by
  decide

/-- V-C3: `cmp ax,ax`. -/
theorem test_cmpRm16R16 :
    let s := start .full [0x39, 0xc0] { zero with ax := 0x0007 } [] false false
    after s = { s with zf := true, ip := 0x2, clocks := 3, totalClocks := 3 } := by
  decide

/-- V-C12: `cmp [bx],ax`. -/
theorem test_cmpRm16R16_image :
    let s := start .full [0x39, 0x07] { zero with bx := 0x0000, ax := 0x3907 } [] false false
    after s = { s with sf := true, ip := 0x2, clocks := 14, totalClocks := 14 } := by
  decide

/-- V-C4: `cmp al,[bx]`. -/
theorem test_cmpR8Rm8 :
    let s := start .full [0x3a, 0x07] { zero with bx := 0x0200, ax := 0x0005 } [(0x200, 0x05)] false false
    after s = { s with zf := true, ip := 0x2, clocks := 14, totalClocks := 14 } := by
  decide

/-- V-C5: `cmp ax,[bp+0x2]`. -/
theorem test_cmpR16Rm16 :
    let s := start .full [0x3b, 0x46, 0x02] { zero with bp := 0x0300 } [(0x302, 0x01)] false false
    after s = { s with sf := true, ip := 0x3, clocks := 18, totalClocks := 18 } := by
  decide

/-- V-C6: `cmp al,0x0`. -/
theorem test_cmpAlImm8 :
    let s := start .full [0x3c, 0x00] { zero with ax := 0x1200 } [] false false
    after s = { s with zf := true, ip := 0x2, clocks := 4, totalClocks := 4 } := by
  decide

/-- V-C7: `cmp ax,0x1`. -/
theorem test_cmpAxImm16 :
    let s := start .full [0x3d, 0x01, 0x00] zero [] false false
    after s = { s with sf := true, ip := 0x3, clocks := 4, totalClocks := 4 } := by
  decide

/-- V-C8: `cmp byte [bx],0x5`. -/
theorem test_cmpRm8Imm8 :
    let s := start .full [0x80, 0x3f, 0x05] { zero with bx := 0x0200 } [(0x200, 0x05)] false false
    after s = { s with zf := true, ip := 0x3, clocks := 15, totalClocks := 15 } := by
  decide

/-- V-C9: `cmp cx,0x100`. -/
theorem test_cmpRm16Imm16 :
    let s := start .full [0x81, 0xf9, 0x00, 0x01] { zero with cx := 0x0100 } [] false false
    after s = { s with zf := true, ip := 0x4, clocks := 4, totalClocks := 4 } := by
  decide

/-- V-C10: `cmp cl,0x80`. -/
theorem test_cmpRm8Imm8Alias :
    let s := start .full [0x82, 0xf9, 0x80] zero [] false false
    after s = { s with sf := true, ip := 0x3, clocks := 4, totalClocks := 4 } := by
  decide

/-- V-C11: `cmp cx,0xffff`. -/
theorem test_cmpRm16SImm8 :
    let s := start .full [0x83, 0xf9, 0xff] { zero with cx := 0xffff } [] false false
    after s = { s with zf := true, ip := 0x3, clocks := 4, totalClocks := 4 } := by
  decide

/-- V-J1: `jo 0x4`. -/
theorem test_jo :
    let s := start .full [0x70, 0x02] zero [] false false
    after s = { s with
      ip := 0x2, clocks := 0, totalClocks := 0, diagSeen := true, lastDiag := some .condUnmodeled } := by
  decide

/-- V-J8: `jbe 0x12`. -/
theorem test_jbe :
    let s := start .full [0x76, 0x10] zero [] true false
    after s = { s with
      ip := 0x2, clocks := 0, totalClocks := 0, diagSeen := true, lastDiag := some .condUnmodeled } := by
  decide

/-- V-J13: `jg 0x4`. -/
theorem test_jg :
    let s := start .full [0x7f, 0x02] zero [] false false
    after s = { s with
      ip := 0x2, clocks := 0, totalClocks := 0, diagSeen := true, lastDiag := some .condUnmodeled } := by
  decide

/-- V-J2: `jz 0x0`. -/
theorem test_jz_taken :
    let s := start .full [0x74, 0xfe] zero [] true false
    after s = { s with ip := 0x0, clocks := 16, totalClocks := 16 } := by
  decide

/-- V-J3: `jz 0x0`. -/
theorem test_jz_not :
    let s := start .full [0x74, 0xfe] zero [] false false
    after s = { s with ip := 0x2, clocks := 4, totalClocks := 4 } := by
  decide

/-- V-J6: `jnz 0xff82`. -/
theorem test_jnz_back :
    let s := start .full [0x75, 0x80] zero [] false false
    after s = { s with ip := 0xff82, clocks := 16, totalClocks := 16 } := by
  decide

/-- V-J5: `jnz 0x0`. -/
theorem test_jnz_not :
    let s := start .full [0x75, 0xfe] zero [] true false
    after s = { s with ip := 0x2, clocks := 4, totalClocks := 4 } := by
  decide

/-- V-J9: `js 0x12`. -/
theorem test_js_taken :
    let s := start .full [0x78, 0x10] zero [] false true
    after s = { s with ip := 0x12, clocks := 16, totalClocks := 16 } := by
  decide

/-- V-J10: `js 0x12`. -/
theorem test_js_not :
    let s := start .full [0x78, 0x10] zero [] false false
    after s = { s with ip := 0x2, clocks := 4, totalClocks := 4 } := by
  decide

/-- V-J11: `jns 0x12`. -/
theorem test_jns_taken :
    let s := start .full [0x79, 0x10] zero [] false false
    after s = { s with ip := 0x12, clocks := 16, totalClocks := 16 } := by
  decide

/-- V-J12: `jns 0x12`. -/
theorem test_jns_not :
    let s := start .full [0x79, 0x10] zero [] false true
    after s = { s with ip := 0x2, clocks := 4, totalClocks := 4 } := by
  decide

/-- V-L1: `loopnz 0x12`. -/
theorem test_loopnz_taken :
    let s := start .full [0xe0, 0x10] { zero with cx := 0x0003 } [] false false
    after s = { s with regs := { s.regs with cx := 0x0002 }, ip := 0x12, clocks := 19, totalClocks := 19 } := by
  decide

/-- V-L2: `loopnz 0x12`. -/
theorem test_loopnz_flag :
    let s := start .full [0xe0, 0x10] { zero with cx := 0x0003 } [] true false
    after s = { s with regs := { s.regs with cx := 0x0002 }, ip := 0x2, clocks := 5, totalClocks := 5 } := by
  decide

/-- V-L5: `loopz 0x12`. -/
theorem test_loopz_flag :
    let s := start .full [0xe1, 0x10] { zero with cx := 0x0003 } [] false false
    after s = { s with regs := { s.regs with cx := 0x0002 }, ip := 0x2, clocks := 6, totalClocks := 6 } := by
  decide

/-- V-L6: `loopz 0x12`. -/
theorem test_loopz_wrap :
    let s := start .full [0xe1, 0x10] { zero with cx := 0x0000 } [] true false
    after s = { s with regs := { s.regs with cx := 0xffff }, ip := 0x12, clocks := 18, totalClocks := 18 } := by
  decide

/-- V-L8: `loop 0x0`. -/
theorem test_loop_last :
    let s := start .full [0xe2, 0xfe] { zero with cx := 0x0001 } [] false false
    after s = { s with regs := { s.regs with cx := 0x0000 }, ip := 0x2, clocks := 5, totalClocks := 5 } := by
  decide

/-- V-L9: `loop 0x0`. -/
theorem test_loop_wrap :
    let s := start .full [0xe2, 0xfe] { zero with cx := 0x0000 } [] false false
    after s = { s with regs := { s.regs with cx := 0xffff }, ip := 0x0, clocks := 17, totalClocks := 17 } := by
  decide

/-- V-L10: `jcxz 0x7`. -/
theorem test_jcxz_taken :
    let s := start .full [0xe3, 0x05] zero [] false false
    after s = { s with ip := 0x7, clocks := 18, totalClocks := 18 } := by
  decide

/-- V-L11: `jcxz 0x7`. -/
theorem test_jcxz_not :
    let s := start .full [0xe3, 0x05] { zero with cx := 0x0001 } [] false false
    after s = { s with ip := 0x2, clocks := 6, totalClocks := 6 } := by
  decide

/-- V-P12: `db 0x90`. -/
theorem test_db_unmapped :
    let s := start .full [0x90] zero [] false false
    after s = { s with ip := 0x1, clocks := 0, totalClocks := 0, diagSeen := true, lastDiag := some .unmapped } := by
  decide

/-- V-P13: `db 0x80,0xc8,0x05`. -/
theorem test_db_subop :
    let s := start .full [0x80, 0xc8, 0x05] zero [] false false
    after s = { s with ip := 0x3, clocks := 0, totalClocks := 0, diagSeen := true, lastDiag := some .subop } := by
  decide

/-- V-P14: `db 0x8b,0x56`. -/
theorem test_db_truncated :
    let s := start .full [0x8b, 0x56] zero [] false false
    after s = { s with ip := 0x2, clocks := 0, totalClocks := 0, diagSeen := true, lastDiag := some .truncated } := by
  decide

/-- Under SOURCE, as V-P2, V-P4, V-P6, V-P7, V-P10 and V-P11: `DIAG_PROFILE`, no effect and no clocks. -/
theorem test_sourceProfile :
    ([[0x88, 0xd9], [0x02, 0x07], [0x80, 0xc1, 0x01], [0x74, 0xfe], [0xe2, 0xfe], [0xa1, 0xe8, 0x03]].all fun image =>
      let s := start .source image { zero with bx := 0x0200, cx := 0x0005 } [(0x200, 0x05), (0x3e8, 0x01)] true false
      after s == { s with ip := s.ip + BitVec.ofNat 16 image.length, diagSeen := true, lastDiag := some .profile }) =
    true := by decide

/-- Under SOURCE, V-P5 and V-P8: carried out. -/
theorem test_sourceProfileCarriesOut :
    (after (start .source [0x83, 0xc1, 0xfe] { zero with cx := 0x0005 } [] false false)).regs.cx = 0x0003 ∧
    (after (start .source [0x75, 0xfe] zero [] false false)).clocks = 16 := by decide
/-- The twelve conditions the machine does not model fall through under both profiles (R164 to R179). -/
theorem test_unmodelledConditions :
    ([0x70, 0x71, 0x72, 0x73, 0x76, 0x77, 0x7a, 0x7b, 0x7c, 0x7d, 0x7e, 0x7f].all fun op =>
      [Profile.source, .full].all fun p =>
        let t := after (start p [op, 0x02] zero [] true true)
        t.ip == 2 && t.clocks == 0 && t.lastDiag == some .condUnmodeled) = true := by decide

/-! ### Loading, halting, placing an instruction, output -/

/-- V-R3: an empty image is accepted and its first step halts. -/
theorem test_emptyImageHalts :
    after (loadedState defaultParams []) = { State.reset with runState := .halted } ∧
    State.reset = loadedState defaultParams [] := by decide

/-- V-R6: a step after HALTED or FAULTED changes nothing. -/
theorem test_stoppedStays :
    let h := after State.reset
    let f := after (start .full [0x8b, 0x07] { zero with bx := 0xffff } [] false false)
    after h = h ∧ f.runState = .faulted ∧ after f = f := by decide

/-- The host's placing: the very next step after reset runs the table word. -/
theorem test_withFetchWord :
    (after (State.reset.withFetchWord 16 0xd901)).ip = 2 ∧
    (after (State.reset.withFetchWord 8 0xb8)).clocks = 4 ∧
    (after (State.reset.withFetchWord 8 0xe2)).regs.cx = 0xffff ∧
    (after (State.reset.withFetchWord 8 0x90)).lastDiag = some .unmapped := by decide

/-- X-7's trace, and the lines of a fault and of a diagnostic (spec/70_reset_and_hazards.md R206). -/
theorem test_traceLines :
    traceLine (start .full [0x29, 0xd8] { zero with ax := 5, bx := 5 } [] false false) =
      some "sub ax,bx ; Clocks: +3 = 3" ∧
    traceLine (start .full [0x8b, 0x07] { zero with bx := 0xffff } [] false false) =
      some "mov ax,[bx] ; FAULT EA_RANGE" ∧
    traceLine (start .full [0x70, 0x02] zero [] false false) =
      some "jo 0x4 ; Clocks: +0 = 0 ; DIAG_COND_UNMODELED" ∧
    traceLine State.reset = none := by decide

theorem test_packedFlags :
    packedFlags { State.reset with zf := true, sf := true } = 0x00c0 ∧
    packedFlags { State.reset with sf := true } = 0x0080 := by decide

/-- The memory form: a zero written removes the entry, entries stay in order. -/
theorem test_memoryCanonical :
    (Memory.write [] 5 1).write 5 0 = [] ∧
    ((Memory.write [] 9 1).write 5 2).write 7 3 = [(5, 2), (7, 3), (9, 1)] ∧
    Memory.wf [(5, 0)] = false ∧ Memory.wf [(5, 1), (5, 2)] = false ∧ Memory.wf [(65536, 1)] = false ∧
    Memory.wf [(65535, 1)] = true := by decide

/-! ### Witnesses: for each obligation with hypotheses, a state and operands that meet all of them -/

/-- FULL; `ip = 0` inside a two-byte image; `bx`, `si` and `di` reach the last word, the first byte after the
image and the offset after the last byte. -/
def edge : State := start .full [0x89, 0xd9] { zero with bx := 0xfffe, si := 2, di := 0xffff, cx := 1 } [] false false

/-- `edge` under SOURCE. -/
def edgeSource : State := start .source [0x88, 0xd9] edge.regs [] false false

/-- `edge` with a fallback as its image. -/
def edgeFallback : State := start .full [0x80, 0xc8, 0x05] edge.regs [] false false

def lastWord : MemOp := .noDisp .bx
def lastByte : MemOp := .direct 0xffff
def firstFree : MemOp := .noDisp .si

/-- `FF FF FF FF` modulo 2^32: the exact sum -1. -/
def belowZero : MemOp := .disp8 .bp 0xff

theorem witness_DecodeEncodeRoundTrip :
    (Instr.cmpRm16Imm16 (.mem (.disp16 .bxDi 0xffff)) 0xffff).wf = true ∧
    (∀ reason bs, Instr.cmpRm16Imm16 (.mem (.disp16 .bxDi 0xffff)) 0xffff ≠ .db reason bs) ∧
    (Instr.db .unmapped (bytes [0xff])).wf = true ∧ (Instr.db .subop (bytes [0xc7, 0x08])).wf = true ∧
    (Instr.db .truncated (bytes [0x8b])).wf = true := ⟨rfl, nofun, rfl, rfl, rfl⟩

theorem witness_DecodedBytesReencode :
    decodeBytes (bytes [0x83, 0x07, 0xff, 0x90]) = some (.addRm16SImm8 (.mem (.noDisp .bx)) 0xff) ∧
    decodeBytes (bytes [0x90, 0x89]) = some (.db .unmapped (bytes [0x90, 0x89])) := by decide

theorem witness_UnsupportedSubopFallsBack :
    UnsupportedSubop 0x80 0xc8 ∧ UnsupportedSubop 0x83 0x37 ∧ UnsupportedSubop 0xc6 0x38 ∧ UnsupportedSubop 0xc7 0x08 ∧
    decodeBytes (bytes [0x80, 0xc8]) = some (.db .subop (bytes [0x80, 0xc8])) := by
  unfold UnsupportedSubop; decide

theorem witness_TruncatedFallsBack :
    (Instr.addRm16Imm16 (.mem (.direct 0xffff)) 0x8000).wf = true ∧
    (∀ reason bs, Instr.addRm16Imm16 (.mem (.direct 0xffff)) 0x8000 ≠ .db reason bs) ∧
    (0 < 1 ∧ 1 < (Instr.addRm16Imm16 (.mem (.direct 0xffff)) 0x8000).length) ∧
    (0 < 5 ∧ 5 < (Instr.addRm16Imm16 (.mem (.direct 0xffff)) 0x8000).length) ∧
    decodeBytes (bytes [0x8b, 0x56]) = some (.db .truncated (bytes [0x8b, 0x56])) := by
  refine ⟨rfl, nofun, ?_⟩; decide

theorem witness_NextPositionBounds :
    0 ≤ (bytes [0x90]).length ∧ decodeAt (bytes [0x90]) 0 ≠ none ∧ 1 ≤ (bytes [0x90]).length := by decide

theorem witness_EndOfBufferIsEmpty :
    (bytes [0x90]).length ≤ 1 ∧ ([] : List Byte).length ≤ 0 ∧ 0 < (bytes [0x90]).length := by decide

theorem witness_FallbackConsumesTheRest :
    decodeAt (bytes [0xb8, 0x05, 0x00, 0x8b, 0x56]) 3 = some (.db .truncated (bytes [0x8b, 0x56])) := by decide

theorem witness_InstructionLengths :
    decodeBytes (bytes [0x81, 0x06, 0, 0, 0, 0]) = some (.addRm16Imm16 (.mem (.direct 0)) 0) ∧
    (Instr.addRm16Imm16 (.mem (.direct 0)) 0).form = some 20 ∧ (Instr.addRm16Imm16 (.mem (.direct 0)) 0).length = 6 ∧
    decodeBytes (bytes [0x89, 0x46, 0xff]) = some (.movRm16R16 (.mem (.disp8 .bp 0xff)) .ax) ∧
    (Instr.movRm16R16 (.mem (.disp8 .bp 0xff)) .ax).form = some 2 ∧ 2 ∈ rowsRM ∧ 20 ∈ rowsRMI ∧
    decodeBytes (bytes [0x05, 0, 0]) = some (.addAxImm16 0) ∧ (Instr.addAxImm16 0).form = some 18 ∧ 18 ∈ rowsAIRI ∧
    18 ∉ rowsRM ∧ 18 ∉ rowsRMI ∧
    (Instr.movAlMem 0).form = some 9 ∧ 9 ∈ rowsAM ∧ decodeBytes (bytes [0xa0, 0, 0]) = some (.movAlMem 0) ∧
    (Instr.jo 0).form = some 43 ∧ decodeBytes (bytes [0x70, 0]) = some (.jo 0) := by decide

theorem witness_StepRunsTheDecodedInstruction :
    edge.runState = .running ∧ edge.ip.toNat < edge.codeLen ∧
    decodeBytes (edge.image.drop edge.ip.toNat) = some (.movRm16R16 (.reg .cx) .bx) := by decide

theorem witness_StepRunsTheEncodedInstruction :
    edge.runState = .running ∧ (Instr.movRm16R16 (.reg .cx) .bx).wf = true ∧
    (∀ reason bs, Instr.movRm16R16 (.reg .cx) .bx ≠ .db reason bs) ∧
    edge.image = [] ++ encode (.movRm16R16 (.reg .cx) .bx) ++ [] ∧ ([] : List Byte).length = edge.ip.toNat :=
  ⟨rfl, rfl, nofun, by decide, rfl⟩

theorem witness_HaltedAndFaultedAreFinal :
    (after State.reset).runState ≠ .running ∧ State.reset.runState = .running ∧
    State.reset.codeLen ≤ State.reset.ip.toNat := by decide

/-- A loaded state meets the invariant, and its step answers. -/
theorem witness_InvariantKeptByEveryStep : edge.Inv ∧ step edge = .next (after edge) :=
  ⟨⟨by decide, by decide, by decide, ⟨by decide, by decide, by decide⟩⟩, rfl⟩

theorem witness_LoadTransaction :
    65536 < (List.replicate 65537 (0 : Byte)).length ∧ (List.replicate 65536 (0 : Byte)).length ≤ 65536 ∧
    ([] : List Byte).length ≤ 65536 := by
  simp only [List.length_replicate, List.length_nil]; decide

theorem witness_EveryRunAfterALoadKeepsTheInvariant :
    load (bytes [0x89, 0xd9]) State.reset = .ok (loadedState defaultParams (bytes [0x89, 0xd9])) := rfl

theorem witness_ImageAndParametersNeverChange :
    step edge = .next (after edge) ∧ 0 < edge.codeLen ∧ 1 < edge.codeLen := ⟨rfl, by decide, by decide⟩

theorem witness_ClockValuesChangeCountsOnly : step edge = .next (after edge) := rfl

theorem witness_TotalClocksAccumulate :
    edge.runState = .running ∧ edge.ip.toNat < edge.codeLen ∧ step edge = .next (after edge) :=
  ⟨rfl, by decide, rfl⟩

theorem witness_DefaultChargesAtMost29 :
    edge.params.clk = defaultClk ∧ edge.params.eaClocks = defaultEaClocks ∧ edge.params.oddWord = 0 ∧
    edge.runState = .running ∧ edge.ip.toNat < edge.codeLen ∧ step edge = .next (after edge) ∧
    edge.params = defaultParams ∧ Writable16 (.mem (.disp16 .bxDi 3)) { edge with regs := zero } :=
  ⟨rfl, rfl, rfl, rfl, by decide, rfl, rfl, by unfold Writable16; decide⟩

/-- A faulting start: the word at 0xffff. -/
def faulting : State := start .full [0x8b, 0x07] { zero with bx := 0xffff } [] false false

theorem witness_FaultIsPreciseAndFatal :
    faulting.runState = .running ∧ step faulting = .next (after faulting) ∧
    (after faulting).runState = .faulted := ⟨rfl, rfl, rfl⟩

/-- No access; each of the two faults at its boundary; an access that does not fault at each boundary. -/
theorem witness_FaultConditions :
    diagnosis (.movR16Rm16 .ax (.reg .bx)) edge.params.profile = none ∧
    access (.movR16Rm16 .ax (.reg .bx)) edge = none ∧
    access (.movR16Rm16 .ax (.mem lastByte)) edge = some (65535, 2, false) ∧ 65536 < 65535 + 2 ∧
    access (.movR16Rm16 .ax (.mem lastWord)) edge = some (65534, 2, false) ∧ 65534 + 2 ≤ 65536 ∧
    access (.movRm8R8 (.mem (.direct 1)) .al) edge = some (1, 1, true) ∧ 1 < edge.codeLen ∧
    access (.movRm8R8 (.mem firstFree) .al) edge = some (2, 1, true) ∧ edge.codeLen ≤ 2 ∧
    diagnosis (.movRm8R8 (.mem firstFree) .al) edge.params.profile = none ∧
    diagnosis (.jo 0) edge.params.profile ≠ none ∧ exactEa belowZero edge.regs < 0 := by decide

theorem witness_DiagnosticNoOp :
    diagnosis (.movRm8R8 (.reg .cl) .bl) edgeSource.params.profile = some .profile ∧
    diagnosis (.jbe 0x02) edge.params.profile = some .condUnmodeled ∧
    diagnosis (.db .subop (bytes [0x80, 0xc8])) edge.params.profile = some .subop := by decide

theorem witness_ProfileTable :
    (Instr.jo 0).form = some 43 ∧ 43 ∈ conditionRows ∧
    (Instr.jnz 0).form = some 48 ∧ 48 ∉ conditionRows ∧ 48 ∈ sourceRows ∧
    (Instr.jcxz 0).form = some 62 ∧ 62 ∉ conditionRows ∧ 62 ∉ sourceRows ∧
    edge.params.profile = .full ∧ edgeSource.params.profile = .source ∧ (bytes [0x90]).length ≤ 1 := by decide

theorem witness_FallbackRunsToTheEnd :
    edgeFallback.runState = .running ∧ edgeFallback.ip.toNat < edgeFallback.codeLen ∧
    decodeAt edgeFallback.image edgeFallback.ip.toNat = some (.db .subop (bytes [0x80, 0xc8, 0x05])) ∧
    edgeFallback.codeLen < 65536 := by decide

/-- A faulting instruction, a jump that falls through, and a jump that is taken from `ip = 0`. -/
theorem witness_InstructionPointerContract :
    faulting.runState = .running ∧
    exec (.movR16Rm16 .ax (.mem (.noDisp .bx))) faulting = .next (after faulting) ∧
    (after faulting).runState = .faulted ∧
    edge.runState = .running ∧ (∃ t, exec (.jz 0xfc) edge = .next t ∧ t.runState ≠ .faulted) ∧
    takenDisplacement (.jz 0xfc) edge = none ∧
    (∃ t, exec (.jnz 0xfc) edge = .next t ∧ t.runState ≠ .faulted) ∧ (Instr.jnz, "jnz") ∈ jumps ∧
    diagnosis (.jnz 0xfc) edge.params.profile = none ∧ takenDisplacement (.jnz 0xfc) edge = some 0xfc :=
  ⟨rfl, rfl, rfl, rfl, ⟨_, rfl, by decide⟩, rfl, ⟨_, rfl, by decide⟩, by simp [jumps], rfl, rfl⟩

theorem witness_FlagsWrittenOnlyByArithmetic :
    (∃ t, exec (.movRm16R16 (.reg .cx) .bx) edge = .next t) ∧ ¬isArithmetic (.movRm16R16 (.reg .cx) .bx) :=
  ⟨⟨_, rfl⟩, fun ⟨n, h, lo, _⟩ => by cases h; exact absurd lo (by decide)⟩

theorem witness_MovNeitherReadsNorWritesFlags :
    isMove (.movR16Imm16 .di 0xffff) ∧ ∃ t, exec (.movR16Imm16 .di 0xffff) edge = .next t :=
  ⟨⟨8, rfl, by decide⟩, _, rfl⟩

theorem witness_RegistersOtherThanTheDestinationKept :
    (∃ t, exec (.addRm8R8 (.reg .ch) .al) edge = .next t) ∧
    destination8 (.addRm8R8 (.reg .ch) .al) = some .ch ∧ destination16 (.addRm8R8 (.reg .ch) .al) ≠ some .ax ∧
    Reg16.ax ≠ Reg8.parent .ch ∧ Reg8.cl ≠ .ch := ⟨⟨_, rfl⟩, by decide⟩

theorem witness_MemoryOutsideTheStoreKept :
    (∃ t, exec (.movMemAx 0xfffe) edge = .next t) ∧ access (.movMemAx 0xfffe) edge = some (0xfffe, 2, true) ∧
    (∃ t, exec (.cmpRm16R16 (.mem lastWord) .ax) edge = .next t) ∧
    access (.cmpRm16R16 (.mem lastWord) .ax) edge = some (0xfffe, 2, false) :=
  ⟨⟨_, rfl⟩, by decide, ⟨_, rfl⟩, by decide⟩

/-- Exact sums on both sides of 0, and an `r_m` other than 110. -/
theorem witness_EffectiveAddressSum :
    (0b101#3 : BitVec 3) ≠ 0b110#3 ∧ 0 ≤ exactEa (.disp8 .si 0xfe) edge.regs ∧ exactEa belowZero edge.regs < 0 := by
  decide

theorem witness_AddressInRangeByExactSum :
    eaNat lastWord edge + 2 ≤ 65536 ∧ ¬(eaNat lastByte edge + 2 ≤ 65536) ∧ eaNat lastByte edge + 1 ≤ 65536 ∧
    ¬(eaNat belowZero edge + 1 ≤ 65536) := by decide

theorem witness_MemoryReadAndWrite :
    edge.mem.wf = true ∧ 65536 < 65536 + 1 ∧ 65535 + 1 ≤ 65536 ∧ 65536 < 65535 + 2 ∧ 65534 + 2 ≤ 65536 ∧
    1 < edge.codeLen ∧ edge.codeLen ≤ 2 := by decide

theorem witness_EqualMemoriesAreEqualData :
    Memory.wf [(0, 1), (65535, 255)] = true ∧
    ∀ a, Memory.read [(0, 1), (65535, 255)] a = Memory.read [(0, 1), (65535, 255)] a := ⟨by decide, fun _ => rfl⟩

/-- A register, the first byte and the first word after the image, the last byte and the last word. -/
theorem witness_MovRegisterToRm :
    edge.params.profile = .full ∧ edge.mem.wf = true ∧
    Writable8 (.reg .ah) edge ∧ Writable8 (.mem firstFree) edge ∧ Writable8 (.mem lastByte) edge ∧
    Writable16 (.reg .sp) edge ∧ Writable16 (.mem firstFree) edge ∧ Writable16 (.mem lastWord) edge := by
  simp only [Writable8, Writable16]; decide

theorem witness_MovRmToRegister :
    edge.params.profile = .full ∧ Readable8 (.reg .ah) edge ∧ Readable8 (.mem (.direct 0)) edge ∧
    Readable8 (.mem lastByte) edge ∧ Readable16 (.reg .sp) edge ∧ Readable16 (.mem (.direct 0)) edge ∧
    Readable16 (.mem lastWord) edge := by
  simp only [Readable8, Readable16]; decide

theorem witness_MovImmediateToRm :
    edge.params.profile = .full ∧ edge.mem.wf = true ∧ Writable8 (.mem lastByte) edge ∧
    Writable16 (.mem lastWord) edge := by
  simp only [Writable8, Writable16]; decide

theorem witness_MovImmediateToRegister : edge.params.profile = .full := rfl

theorem witness_MovAccumulatorDirect :
    edge.params.profile = .full ∧ edge.mem.wf = true ∧ (0xfffe#16 : Word) ≠ 0xffff#16 ∧
    edge.codeLen ≤ (2#16 : Word).toNat ∧ edge.codeLen ≤ (0xffff#16 : Word).toNat := by decide

theorem witness_AddSubRegisterToRm :
    edge.params.profile = .full ∧ edge.mem.wf = true ∧ Writable8 (.mem firstFree) edge ∧
    Writable16 (.mem lastWord) edge := by
  simp only [Writable8, Writable16]; decide

theorem witness_AddSubRmToRegister :
    edge.params.profile = .full ∧ Readable8 (.mem lastByte) edge ∧ Readable16 (.mem lastWord) edge := by
  simp only [Readable8, Readable16]; decide

theorem witness_AddSubAccumulatorImmediate : edge.params.profile = .full := rfl

theorem witness_AddSubImmediateToRm :
    edge.params.profile = .full ∧ edge.mem.wf = true ∧ Writable8 (.mem lastByte) edge ∧
    Writable16 (.mem firstFree) edge := by
  simp only [Writable8, Writable16]; decide

theorem witness_CmpRegisterAndRm :
    edge.params.profile = .full ∧ Readable8 (.mem (.direct 0)) edge ∧ Readable16 (.mem (.direct 0)) edge := by
  simp only [Readable8, Readable16]; decide

theorem witness_CmpImmediate :
    edge.params.profile = .full ∧ Readable8 (.mem lastByte) edge ∧ Readable16 (.mem lastWord) edge := by
  simp only [Readable8, Readable16]; decide

theorem witness_CmpStoresNothing :
    isCompare (.cmpRm16R16 (.mem (.direct 0)) .ax) ∧ ∃ t, exec (.cmpRm16R16 (.mem (.direct 0)) .ax) edge = .next t :=
  ⟨⟨34, rfl, by decide⟩, _, rfl⟩

theorem witness_SameRegisterArithmetic : edge.params.profile = .full := rfl

theorem witness_ConditionalJumps : edge.params.profile = .full := rfl

theorem witness_UnmodelledConditionsAndFallbacks : ∃ r8 : Byte, Instr.jbe r8 = .jbe 0x80 := ⟨0x80, rfl⟩

theorem witness_LoopFamily :
    edge.params.profile = .full ∧ { zero with cx := 0xffff } = { zero with cx := zero.cx - 1#16 } := by decide

theorem witness_DecodedRecordFields :
    decodeAt (bytes [0x90, 0x81, 0x06, 0xff, 0xff, 0x00, 0x80]) 1 =
      some (.addRm16Imm16 (.mem (.direct 0xffff)) 0x8000) ∧
    (Instr.addRm16Imm16 (.mem (.direct 0xffff)) 0x8000).form = some 20 ∧
    decodeAt (bytes [0xb8, 0x05]) 0 = some (.db .truncated (bytes [0xb8, 0x05])) ∧
    (bytes [0x90]).length ≤ 1 := by decide

end Sys2Proof.Tests
end

section
/-! The byte views of the register file (spec/10_state.md R17, R18): which register and which byte of it the view
of an index names, and what a write of a view leaves unchanged. -/

namespace Sys2Proof.Machine

/-! ### The view of an index (R17) -/

theorem Reg8.parent_ofIndex_of_lt : ∀ i : BitVec 3, i.toNat < 4 →
    Reg8.parent (Reg8.ofIndex i) = Reg16.ofIndex i := by decide

theorem Reg8.parent_ofIndex_of_ge : ∀ i : BitVec 3, ¬i.toNat < 4 →
    Reg8.parent (Reg8.ofIndex i) = Reg16.ofIndex (i - 4#3) := by decide

theorem Reg8.isHigh_ofIndex : ∀ i : BitVec 3, Reg8.isHigh (Reg8.ofIndex i) = !decide (i.toNat < 4) := by decide

theorem get8_ofIndex (r : Regs) (i : BitVec 3) :
    r.get8 (Reg8.ofIndex i) =
      if i.toNat < 4 then lowByte (r.get16 (Reg16.ofIndex i)) else highByte (r.get16 (Reg16.ofIndex (i - 4#3))) := by
  by_cases hi : i.toNat < 4
  · simp [Regs.get8, Reg8.isHigh_ofIndex, Reg8.parent_ofIndex_of_lt i hi, hi]
  · simp [Regs.get8, Reg8.isHigh_ofIndex, Reg8.parent_ofIndex_of_ge i hi, hi]

theorem set8_ofIndex (r : Regs) (i : BitVec 3) (v : Byte) :
    r.set8 (Reg8.ofIndex i) v =
      if i.toNat < 4 then r.set16 (Reg16.ofIndex i) (combine (highByte (r.get16 (Reg16.ofIndex i))) v)
      else r.set16 (Reg16.ofIndex (i - 4#3)) (combine v (lowByte (r.get16 (Reg16.ofIndex (i - 4#3))))) := by
  by_cases hi : i.toNat < 4
  · simp [Regs.set8, Reg8.isHigh_ofIndex, Reg8.parent_ofIndex_of_lt i hi, hi]
  · simp [Regs.set8, Reg8.isHigh_ofIndex, Reg8.parent_ofIndex_of_ge i hi, hi]

/-! ### The registers no view is a byte of (R18) -/

theorem Reg8.index_parent_lt (i : Reg8) : (Reg8.parent i).index.toNat < 4 := by cases i <;> decide

theorem get16_set8_of_index_ge (r : Regs) (i : Reg8) (v : Byte) {j : Reg16} (hj : 4 ≤ j.index.toNat) :
    (r.set8 i v).get16 j = r.get16 j := by
  refine get16_set8_other r v ?_
  rintro rfl
  exact absurd hj (Nat.not_le.mpr (Reg8.index_parent_lt i))

/-! ### The statements -/

/-- Settles O36: another view is another byte (`get8_set8_other`), and sp, bp, si, di have the indices 4 to 7, which
no view's register has. -/
theorem byteWriteKeepsTheOtherByte : Obligations.ByteWriteKeepsTheOtherByte := by
  intro r i v
  have pointers : ∀ j : Reg16, 4 ≤ j.index.toNat → (r.set8 i v).get16 j = r.get16 j :=
    fun _ => get16_set8_of_index_ge r i v
  exact ⟨get8_set8_self r i v, fun _ hq => get8_set8_other r v hq,
    pointers .sp (by decide), pointers .bp (by decide), pointers .si (by decide), pointers .di (by decide)⟩

/-- Settles O35: the rules of a read and of a write of the view of an index; the list and the two texts of R17 are
evaluated. -/
theorem byteViewsOfRegisters : Obligations.ByteViewsOfRegisters :=
  ⟨fun i r => get8_ofIndex r i, fun i r v => set8_ofIndex r i v, by decide, by decide, by decide⟩

end Sys2Proof.Machine
end

section
/-! The accesses to memory (spec/20_memory.md R40, R41): the value a word read gives, each outcome of a write by its
check, and what a write stores. -/

namespace Sys2Proof.Machine

open Sys2Proof.Spec

/-! ### What a write stores (R39, R41) -/

theorem combine_read_eq_wordAt (m : Memory) (a : Nat) : combine (m.read (a + 1)) (m.read a) = wordAt m a :=
  (ofNat_bytes _ _).symm

theorem store8_write {m : Memory} (h : m.wf = true) (a : Nat) (v : Byte) : Store8 a v m (m.write a v) :=
  ⟨read_write_self h a v, fun _ => read_write_other m a v⟩

theorem store16_write {m : Memory} (h : m.wf = true) {a : Nat} (ha : a + 2 ≤ 65536) (v : Word) :
    Store16 a v m ((m.write a (lowByte v)).write (a + 1) (highByte v)) :=
  ⟨(combine_read_eq_wordAt _ a).symm.trans (combine_read_write16 h ha v), fun _ => read_write16_other m a v⟩

/-! ### The outcome of a write by its check (R41) -/

section
variable {a : Nat} {s : State}

theorem memWrite8_of_outOfRange (v : Byte) (h : 65536 < a + 1) : memWrite8 a v s = .error .eaRange := by
  rw [memWrite8_eq, if_pos h]

theorem memWrite16_of_outOfRange (v : Word) (h : 65536 < a + 2) : memWrite16 a v s = .error .eaRange := by
  rw [memWrite16_eq, if_pos h]

theorem memWrite8_of_inImage (v : Byte) (h : a + 1 ≤ 65536) (hc : a < s.codeLen) :
    memWrite8 a v s = .error .smc := by
  rw [memWrite8_eq, if_neg (Nat.not_lt.mpr h), if_pos hc]

theorem memWrite16_of_inImage (v : Word) (h : a + 2 ≤ 65536) (hc : a < s.codeLen) :
    memWrite16 a v s = .error .smc := by
  rw [memWrite16_eq, if_neg (Nat.not_lt.mpr h), if_pos hc]

theorem memWrite8_of_writable (v : Byte) (h : a + 1 ≤ 65536) (hc : s.codeLen ≤ a) :
    memWrite8 a v s = .ok { s with mem := s.mem.write a v } := by
  rw [memWrite8_eq, if_neg (Nat.not_lt.mpr h), if_neg (Nat.not_lt.mpr hc)]

theorem memWrite16_of_writable (v : Word) (h : a + 2 ≤ 65536) (hc : s.codeLen ≤ a) :
    memWrite16 a v s =
      .ok { s with mem := (s.mem.write a (lowByte v)).write (a + 1) (highByte v) } := by
  rw [memWrite16_eq, if_neg (Nat.not_lt.mpr h), if_neg (Nat.not_lt.mpr hc)]

end

/-! ### The statement -/

/-- Settles O39: a read by its equation, a write by the outcome of its check; where the check passes, the memory
written is the model's own, which holds the value at its offsets and the old bytes elsewhere. -/
theorem memoryReadAndWrite : Obligations.MemoryReadAndWrite := by
  intro s a
  refine ⟨memRead8_eq a s, ?_, fun v => ⟨memWrite8_of_outOfRange v, memWrite8_of_inImage v, ?_⟩,
    fun v => ⟨memWrite16_of_outOfRange v, memWrite16_of_inImage v, ?_⟩⟩
  · rw [memRead16_eq, combine_read_eq_wordAt]
  · intro h hc hwf
    exact ⟨_, memWrite8_of_writable v h hc, store8_write hwf a v⟩
  · intro h hc hwf
    exact ⟨_, memWrite16_of_writable v h hc, store16_write hwf h v⟩

end Sys2Proof.Machine
end

section
/-! The decoder's answers at the end of the buffer and beyond its opcode map (spec/40_decoder.md R83, R90 to R93):
a mapped and supported beginning is a fallback only for want of bytes, and bytes enough complete it. -/

namespace Sys2Proof

/-! ### The round trip of one form (spec/30_encoding.md R62 to R74) -/

section
variable {o8 : RM8} {o16 : RM16} (rest : List Byte)

theorem formRm8R8_encoded (mk : RM8 → Reg8 → Instr) (r : Reg8) (h : o8.wf = true) :
    formRm8R8 mk (rmBytes r.index o8.field ++ rest) = .ok (mk o8 r) := by
  simp [formRm8R8, formRm_rmBytes, h]

theorem formRm16R16_encoded (mk : RM16 → Reg16 → Instr) (r : Reg16) (h : o16.wf = true) :
    formRm16R16 mk (rmBytes r.index o16.field ++ rest) = .ok (mk o16 r) := by
  simp [formRm16R16, formRm_rmBytes, h]

theorem formRm8Imm8_encoded {select : BitVec 3 → Option (RM8 → Byte → Instr)} {reg : BitVec 3}
    {mk : RM8 → Byte → Instr} (hs : select reg = some mk) (imm : Byte) (h : o8.wf = true) :
    formRm8Imm8 select (rmBytes reg o8.field ++ [imm] ++ rest) = .ok (mk o8 imm) := by
  rw [List.append_assoc]
  have h := formRmi_rmBytes RM8.ofField takeByte select reg ((RM8.field_wf o8).trans h) hs (takeByte_cons imm rest)
  rwa [RM8.ofField_field] at h

theorem formRm16Imm8_encoded {select : BitVec 3 → Option (RM16 → Byte → Instr)} {reg : BitVec 3}
    {mk : RM16 → Byte → Instr} (hs : select reg = some mk) (imm : Byte) (h : o16.wf = true) :
    formRm16Imm8 select (rmBytes reg o16.field ++ [imm] ++ rest) = .ok (mk o16 imm) := by
  rw [List.append_assoc]
  have h := formRmi_rmBytes RM16.ofField takeByte select reg ((RM16.field_wf o16).trans h) hs (takeByte_cons imm rest)
  rwa [RM16.ofField_field] at h

theorem formRm16Imm16_encoded {select : BitVec 3 → Option (RM16 → Word → Instr)} {reg : BitVec 3}
    {mk : RM16 → Word → Instr} (hs : select reg = some mk) (imm : Word) (h : o16.wf = true) :
    formRm16Imm16 select (rmBytes reg o16.field ++ wordBytes imm ++ rest) = .ok (mk o16 imm) := by
  rw [List.append_assoc, formRm16Imm16, formRmi_rmBytes _ _ _ _ (by simpa using h) hs (takeWord_wordBytes imm rest),
    RM16.ofField_field]

theorem decodeOp_movReg8 (r : Reg8) : decodeOp (0b10110#5 ++ r.index) rest = formImm8 (.movR8Imm8 r) rest := by
  cases r <;> rfl

theorem decodeOp_movReg16 (r : Reg16) : decodeOp (0b10111#5 ++ r.index) rest = formImm16 (.movR16Imm16 r) rest := by
  cases r <;> rfl

end

/-- The first byte the encoder writes selects the handler that reads the rest back, one format at a time. -/
theorem decodeOp_encode {i : Instr} (hw : i.wf = true) (hn : ∀ reason bs, i ≠ .db reason bs) (rest : List Byte) :
    decodeOp i.opcode ((encode i).tail ++ rest) = .ok i := by
  cases i with
  | db reason bs => exact absurd rfl (hn reason bs)
  | movRm8R8 o r | addRm8R8 o r | subRm8R8 o r | cmpRm8R8 o r =>
    exact formRm8R8_encoded rest _ r hw
  | movR8Rm8 r o => exact formRm8R8_encoded rest (fun o r => .movR8Rm8 r o) r hw
  | addR8Rm8 r o => exact formRm8R8_encoded rest (fun o r => .addR8Rm8 r o) r hw
  | subR8Rm8 r o => exact formRm8R8_encoded rest (fun o r => .subR8Rm8 r o) r hw
  | cmpR8Rm8 r o => exact formRm8R8_encoded rest (fun o r => .cmpR8Rm8 r o) r hw
  | movRm16R16 o r | addRm16R16 o r | subRm16R16 o r | cmpRm16R16 o r =>
    exact formRm16R16_encoded rest _ r hw
  | movR16Rm16 r o => exact formRm16R16_encoded rest (fun o r => .movR16Rm16 r o) r hw
  | addR16Rm16 r o => exact formRm16R16_encoded rest (fun o r => .addR16Rm16 r o) r hw
  | subR16Rm16 r o => exact formRm16R16_encoded rest (fun o r => .subR16Rm16 r o) r hw
  | cmpR16Rm16 r o => exact formRm16R16_encoded rest (fun o r => .cmpR16Rm16 r o) r hw
  | movRm8Imm8 o imm | addRm8Imm8 o imm | addRm8Imm8Alias o imm | subRm8Imm8 o imm | subRm8Imm8Alias o imm
  | cmpRm8Imm8 o imm | cmpRm8Imm8Alias o imm => exact formRm8Imm8_encoded rest rfl imm hw
  | movRm16Imm16 o imm | addRm16Imm16 o imm | subRm16Imm16 o imm | cmpRm16Imm16 o imm =>
    exact formRm16Imm16_encoded rest rfl imm hw
  | addRm16SImm8 o imm | subRm16SImm8 o imm | cmpRm16SImm8 o imm => exact formRm16Imm8_encoded rest rfl imm hw
  | movR8Imm8 r imm => exact decodeOp_movReg8 _ r
  | movR16Imm16 r imm => exact (decodeOp_movReg16 _ r).trans (formImm16_wordBytes _ imm rest)
  | movAlMem v | movAxMem v | movMemAl v | movMemAx v | addAxImm16 v | subAxImm16 v | cmpAxImm16 v =>
    exact formImm16_wordBytes _ v rest
  | addAlImm8 v | subAlImm8 v | cmpAlImm8 v | jo v | jno v | jb v | jnb v | jz v | jnz v | jbe v | ja v | js v
  | jns v | jp v | jnp v | jl v | jnl v | jle v | jg v | loopnz v | loopz v | loop v | jcxz v => rfl

theorem encode_eq_opcode_cons {i : Instr} (hn : ∀ reason bs, i ≠ .db reason bs) :
    encode i = i.opcode :: (encode i).tail := by
  cases i with
  | db reason bs => exact absurd rfl (hn reason bs)
  | _ => rfl

/-! ### Which fallback the bytes give (R91 to R93) -/

theorem decodeBytes_cons_eq_db_iff (op : Byte) (rest : List Byte) (r : FallbackReason) :
    decodeBytes (op :: rest) = some (.db r (op :: rest)) ↔ fallbackWf r (op :: rest) = true := by
  refine ⟨fun h => (decodeBytes_eq_db h).2, fun h => ?_⟩
  rw [decodeBytes, (decodeOp_eq_error op rest r).mpr h]

theorem fallbackWf_false_of_decodeOp_eq_ok {op : Byte} {rest : List Byte} {i : Instr} (h : decodeOp op rest = .ok i)
    (r : FallbackReason) : fallbackWf r (op :: rest) = false := by
  rw [← Bool.not_eq_true, ← decodeOp_eq_error, h]
  exact nofun

theorem fallbackWf_unmapped (op : Byte) (rest : List Byte) :
    fallbackWf .unmapped (op :: rest) = unmappedFirstByte op.toNat := rfl

theorem fallbackWf_subop_cons (op m : Byte) (rest : List Byte) :
    fallbackWf .subop (op :: m :: rest) = unsupportedSubop op.toNat m.toNat := rfl

/-- TRUNCATED is the reason where the other two do not apply and bytes are missing. -/
theorem fallbackWf_truncated_iff (op : Byte) (rest : List Byte) :
    fallbackWf .truncated (op :: rest) = true ↔ unmappedFirstByte op.toNat = false ∧
      fallbackWf .subop (op :: rest) = false ∧ rest.length + 1 < announcedLength op.toNat rest := by
  cases rest <;> simp [fallbackWf, and_assoc]

theorem unmappedFirstByte_iff (n : Nat) : unmappedFirstByte n = true ↔
    (0x06 ≤ n ∧ n ≤ 0x27) ∨ n = 0x2E ∨ n = 0x2F ∨ (0x30 ≤ n ∧ n ≤ 0x37) ∨ (0x3E ≤ n ∧ n ≤ 0x6F) ∨
    (0x84 ≤ n ∧ n ≤ 0x87) ∨ (0x8C ≤ n ∧ n ≤ 0x9F) ∨ (0xA4 ≤ n ∧ n ≤ 0xAF) ∨ (0xC0 ≤ n ∧ n ≤ 0xC5) ∨
    (0xC8 ≤ n ∧ n ≤ 0xDF) ∨ 0xE4 ≤ n := by
  simp only [unmappedFirstByte, Bool.or_eq_true, Bool.and_eq_true, decide_eq_true_eq]
  omega

theorem Spec.unsupportedSubop_iff (op m : Byte) :
    Spec.UnsupportedSubop op m ↔ unsupportedSubop op.toNat m.toNat = true := by
  simp only [Spec.UnsupportedSubop, Spec.regField, unsupportedSubop, List.mem_cons, List.not_mem_nil, or_false, not_or,
    ne_eq, BitVec.toNat_eq, BitVec.toNat_ofNat, Nat.reducePow, Nat.reduceMod, Bool.or_eq_true, Bool.and_eq_true,
    decide_eq_true_eq, bne_iff_ne, beq_iff_eq]
  omega

/-! ### Beginnings and completions of an instruction (R91) -/

theorem two_le_announcedLength (op : Nat) (rest : List Byte) : 2 ≤ announcedLength op rest := by
  unfold announcedLength
  split
  · split <;> omega
  · split_ifs <;> omega

theorem displacementBytes_le_two (m : Nat) : displacementBytes m ≤ 2 := by
  simp only [displacementBytes]
  split_ifs <;> omega

theorem announcedLength_le_six (op : Nat) (rest : List Byte) : announcedLength op rest ≤ 6 := by
  unfold announcedLength
  split
  · cases rest with
    | nil => exact Nat.le_add_left 2 4
    | cons m more =>
      have := displacementBytes_le_two m.toNat
      dsimp only
      split_ifs <;> omega
  · split_ifs <;> omega

/-- What follows the first two bytes does not change the announced length, and one byte alone is always too few. -/
theorem lt_announcedLength_append_iff (op : Nat) (rest more : List Byte) :
    rest.length + 1 < announcedLength op (rest ++ more) ↔ rest.length + 1 < announcedLength op rest := by
  cases rest with
  | nil =>
    have := two_le_announcedLength op more
    have := two_le_announcedLength op []
    simp only [List.nil_append, List.length_nil]
    omega
  | cons m rest => rfl

theorem fallbackWf_subop_of_append {op : Byte} {rest more : List Byte}
    (h : fallbackWf .subop (op :: (rest ++ more)) = false) : fallbackWf .subop (op :: rest) = false := by
  cases rest with
  | nil => rfl
  | cons m rest => exact h

/-- The reg field of a zero byte is supported by every opcode. -/
theorem fallbackWf_subop_append_zero (op : Byte) (rest more : List Byte) :
    fallbackWf .subop (op :: (rest ++ 0#8 :: more)) = fallbackWf .subop (op :: rest) := by
  cases rest with
  | nil => simp [fallbackWf, unsupportedSubop]
  | cons m rest => rfl

/-- The bytes before the last one of an instruction are truncated. -/
theorem decodeOp_truncated_of_append {op : Byte} {rest more : List Byte} {i : Instr}
    (h : decodeOp op (rest ++ more) = .ok i) (hl : rest.length + 1 < i.length) :
    decodeOp op rest = .error .truncated := by
  rw [decodeOp_eq_error, fallbackWf_truncated_iff]
  rw [decodeOp_length h, lt_announcedLength_append_iff] at hl
  exact ⟨fallbackWf_false_of_decodeOp_eq_ok h .unmapped,
    fallbackWf_subop_of_append (fallbackWf_false_of_decodeOp_eq_ok h .subop), hl⟩

/-- Zero bytes, enough for the longest instruction, complete truncated bytes. -/
theorem decodeOp_append_zeros_of_truncated {op : Byte} {rest : List Byte}
    (h : decodeOp op rest = .error .truncated) :
    ∃ i, decodeOp op (rest ++ List.replicate 5 0#8) = .ok i ∧ rest.length + 1 < i.length := by
  rw [decodeOp_eq_error, fallbackWf_truncated_iff] at h
  obtain ⟨hmapped, hsupported, hshort⟩ := h
  cases hd : decodeOp op (rest ++ List.replicate 5 0#8) with
  | ok i => exact ⟨i, rfl, by rwa [decodeOp_length hd, lt_announcedLength_append_iff]⟩
  | error r =>
    have hr := (decodeOp_eq_error _ _ _).mp hd
    cases r with
    | unmapped => exact absurd hr (by simp [fallbackWf_unmapped, hmapped])
    | subop =>
      rw [List.replicate_succ, fallbackWf_subop_append_zero, hsupported] at hr
      exact absurd hr Bool.false_ne_true
    | truncated =>
      obtain ⟨-, -, hlt⟩ := (fallbackWf_truncated_iff _ _).mp hr
      have := announcedLength_le_six op.toNat (rest ++ List.replicate 5 0#8)
      simp only [List.length_append, List.length_replicate] at hlt
      omega

theorem decodeBytes_take_encode {i : Instr} (hw : i.wf = true) (hn : ∀ reason bs, i ≠ .db reason bs) {k : Nat}
    (hpos : 0 < k) (hk : k < i.length) :
    decodeBytes ((encode i).take k) = some (.db .truncated ((encode i).take k)) := by
  obtain ⟨k, rfl⟩ := Nat.exists_eq_add_one.mpr hpos
  have hfull : decodeOp i.opcode ((encode i).tail.take k ++ (encode i).tail.drop k) = .ok i := by
    rw [List.take_append_drop, ← List.append_nil (encode i).tail]
    exact decodeOp_encode hw hn []
  have hlen : ((encode i).tail.take k).length ≤ k := List.length_take_le ..
  rw [encode_eq_opcode_cons hn, List.take_succ_cons, decodeBytes, decodeOp_truncated_of_append hfull (by omega)]

theorem exists_completion_of_truncated {bs more : List Byte} (h : decodeBytes bs = some (.db .truncated more)) :
    ∃ i : Instr, (∀ reason bs', i ≠ .db reason bs') ∧ bs.length < i.length ∧ (encode i).take bs.length = bs := by
  have hwf := (decodeBytes_eq_db h).2
  cases bs with
  | nil => exact absurd hwf (by simp [fallbackWf])
  | cons op rest =>
    obtain ⟨i, hd, hlt⟩ := decodeOp_append_zeros_of_truncated ((decodeOp_eq_error _ _ _).mpr hwf)
    obtain ⟨-, hn, tail, heq⟩ := decodeOp_eq_ok hd
    refine ⟨i, hn, hlt, ?_⟩
    have hle : (op :: rest).length ≤ (encode i).length := by rw [encode_length]; exact hlt.le
    rw [← List.take_append_of_le_length hle, ← heq, ← List.cons_append, List.take_left]

end Sys2Proof

namespace Sys2Proof.Machine

open Sys2Proof.Spec

/-! ### What a position decodes to (R83, R90) -/

theorem decodeAt_eq_none_iff (buffer : List Byte) (position : Nat) :
    decodeAt buffer position = none ↔ buffer.length ≤ position := by
  rw [decodeAt, ← List.drop_eq_nil_iff]
  cases buffer.drop position with
  | nil => simp [decodeBytes]
  | cons op rest =>
    obtain ⟨i, hi⟩ := decodeBytes_cons op rest
    simp [hi]

theorem decodeText_of_decodeAt {buffer : List Byte} {position : Nat} {i : Instr}
    (h : decodeAt buffer position = some i) : decodeText buffer position = textOf position i := by
  rw [decodeText, h]

theorem nextPosition_of_decodeAt {buffer : List Byte} {position : Nat} {i : Instr}
    (h : decodeAt buffer position = some i) : nextPosition buffer position = position + i.length := by
  rw [nextPosition, h]

/-! ### The text of a short jump (R101) -/

theorem textTarget_eq (position : Nat) (r8 : Byte) :
    textTarget position r8 = hex (((position : Int) + 2 + r8.toInt) % 65536).toNat := by
  have hsum : BitVec.ofNat 16 position + 2 + r8.signExtend 16 = BitVec.ofInt 16 ((position : Int) + 2 + r8.toInt) := by
    rw [BitVec.ofInt_add, BitVec.ofInt_add, BitVec.ofInt_natCast]
    rfl
  rw [textTarget, hsum, BitVec.toNat_ofInt]
  rfl

theorem textOf_jump {e : (Byte → Instr) × String} (he : e ∈ jumps) (position : Nat) (r8 : Byte) :
    textOf position (e.1 r8) = textJump e.2 position r8 := by
  revert e
  simp [jumps, textOf]

/-! ### The statements -/

/-- Settles O6: a beginning of an encoding is mapped, supported and too short (`decodeBytes_take_encode`); five zero
bytes after truncated bytes complete them (`exists_completion_of_truncated`). -/
theorem truncatedFallsBack : Obligations.TruncatedFallsBack :=
  ⟨fun _ hw hn _ hpos hk => decodeBytes_take_encode hw hn hpos hk,
    fun _ _ h => ⟨(decodeBytes_eq_db h).1, exists_completion_of_truncated h⟩, by decide, by decide⟩

/-- Settles O4: UNMAPPED is the reason exactly for the first bytes of `unmappedFirstByte`, which are the listed ones. -/
theorem unmappedFirstByteFallsBack : Obligations.UnmappedFirstByteFallsBack := by
  refine ⟨fun op rest => ?_, by decide, by decide⟩
  rw [decodeBytes_cons_eq_db_iff, fallbackWf_unmapped, unmappedFirstByte_iff]

/-- Settles O5: SUBOP is the reason exactly for two bytes of `unsupportedSubop`, which is R69's table. -/
theorem unsupportedSubopFallsBack : Obligations.UnsupportedSubopFallsBack := by
  refine ⟨fun op m rest h => ?_, fun bs more h => ?_, by decide⟩
  · rwa [decodeBytes_cons_eq_db_iff, fallbackWf_subop_cons, ← Spec.unsupportedSubop_iff]
  · have hwf := (decodeBytes_eq_db h).2
    match bs, hwf with
    | op :: m :: rest, hwf => exact ⟨op, m, rest, rfl, (Spec.unsupportedSubop_iff op m).mpr hwf⟩

/-- Settles O9: a fallback keeps all of the bytes from the position on, so its end is the buffer's. -/
theorem fallbackConsumesTheRest : Obligations.FallbackConsumesTheRest := by
  intro buffer position reason bs h
  have hin : position < buffer.length := by
    rw [← Nat.not_le, ← decodeAt_eq_none_iff, h]
    exact Option.some_ne_none _
  obtain rfl : bs = buffer.drop position := (decodeBytes_eq_db h).1
  refine ⟨rfl, ?_, decodeText_of_decodeAt h⟩
  rw [nextPosition_of_decodeAt h, Instr.length, List.length_drop]
  omega

/-- Settles O11: the target printed modulo 2^16 is the exact sum's (`textTarget_eq`). -/
theorem jumpTextIsTheTarget : Obligations.JumpTextIsTheTarget := by
  refine ⟨fun e he position r8 => ?_, by decide⟩
  rw [textOf_jump he, textJump, textTarget_eq]

/-- Settles O8: nothing is decoded exactly at or beyond the end. -/
theorem endOfBufferIsEmpty : Obligations.EndOfBufferIsEmpty := by
  refine ⟨fun buffer position h => ?_, fun buffer position h => ?_⟩
  · have hnone := (decodeAt_eq_none_iff buffer position).mpr h
    exact ⟨hnone, by rw [decodeText, hnone], by rw [nextPosition, hnone]⟩
  · rw [Ne, decodeAt_eq_none_iff]
    exact Nat.not_le.mpr h

end Sys2Proof.Machine
end

section
/-! MOV and the flags (spec/41_mov.md R108). Replacing both flags commutes with every MOV rule and with the step around
it. That one equation says that no flag is read; with the state's own flags put for the new ones it says that none is
written. -/

namespace Sys2Proof.Machine

open Sys2Proof.Spec

/-! ### Other flags in a state, and what does not see them -/

/-- The state of R108's comparison: `s` with any two other flags. -/
def withFlags (z f : Bool) (s : State) : State := { s with zf := z, sf := f }

/-- From a state with other flags the rule gives the same result with those flags. -/
def IgnoresFlags (rule : State → Except Fault State) : Prop :=
  ∀ z f s, rule (withFlags z f s) = (rule s).map (withFlags z f)

section
variable (z f : Bool) (s : State)

@[simp] theorem withFlags_params : (withFlags z f s).params = s.params := rfl
@[simp] theorem withFlags_regs : (withFlags z f s).regs = s.regs := rfl

theorem withFlags_self : withFlags s.zf s.sf s = s := rfl

@[simp] theorem memRead8_withFlags (a : Nat) : memRead8 a (withFlags z f s) = memRead8 a s := rfl
@[simp] theorem memRead16_withFlags (a : Nat) : memRead16 a (withFlags z f s) = memRead16 a s := rfl
@[simp] theorem oddCost_withFlags (a k : Nat) : oddCost a k (withFlags z f s) = oddCost a k s := rfl

@[simp] theorem readRm8_withFlags (o : RM8) : readRm8 o (withFlags z f s) = readRm8 o s := by
  cases o <;> rfl

@[simp] theorem readRm16_withFlags (o : RM16) : readRm16 o (withFlags z f s) = readRm16 o s := by
  cases o <;> rfl

@[simp] theorem rmCost8_withFlags (x y : Nat) (o : RM8) : rmCost8 x y o (withFlags z f s) = rmCost8 x y o s := by
  cases o with
  | reg r => rfl
  | mem m => cases m <;> rfl

@[simp] theorem rmCost16_withFlags (x y k : Nat) (o : RM16) :
    rmCost16 x y k o (withFlags z f s) = rmCost16 x y k o s := by
  cases o with
  | reg r => rfl
  | mem m => cases m <;> rfl

end

/-! ### The writes -/

theorem memWrite8_ignoresFlags (a : Nat) (v : Byte) : IgnoresFlags (memWrite8 a v) := by
  intro z f s
  change (writeCheck a 1 s).map _ = ((writeCheck a 1 s).map _).map _
  cases writeCheck a 1 s <;> rfl

theorem memWrite16_ignoresFlags (a : Nat) (v : Word) : IgnoresFlags (memWrite16 a v) := by
  intro z f s
  change (writeCheck a 2 s).map _ = ((writeCheck a 2 s).map _).map _
  cases writeCheck a 2 s <;> rfl

theorem writeRm8_ignoresFlags (o : RM8) (v : Byte) : IgnoresFlags (writeRm8 o v) := by
  intro z f s
  cases o with
  | reg r => rfl
  | mem m => exact memWrite8_ignoresFlags (eaNat m s) v z f s

theorem writeRm16_ignoresFlags (o : RM16) (v : Word) : IgnoresFlags (writeRm16 o v) := by
  intro z f s
  cases o with
  | reg r => rfl
  | mem m => exact memWrite16_ignoresFlags (eaNat m s) v z f s

/-! ### The MOV rules (R109 to R120) -/

/-- The flags may be replaced before or after the charge that ends a rule. -/
theorem charge_map_withFlags (x : Except Fault State) (n : Nat) (z f : Bool) :
    (do let t ← x.map (withFlags z f); return charge n t) =
      (do let t ← x; return charge n t : Except Fault State).map (withFlags z f) := by
  cases x <;> rfl

theorem moveToRm8_ignoresFlags (d : RM8) (v : Byte) (x y : Nat) : IgnoresFlags (moveToRm8 d v x y) := by
  intro z f s
  simp only [moveToRm8, writeRm8_ignoresFlags d v z f s, rmCost8_withFlags, charge_map_withFlags]

theorem moveToRm16_ignoresFlags (d : RM16) (v : Word) (x y : Nat) : IgnoresFlags (moveToRm16 d v x y) := by
  intro z f s
  simp only [moveToRm16, writeRm16_ignoresFlags d v z f s, rmCost16_withFlags, charge_map_withFlags]

theorem moveFromRm8_ignoresFlags (r : Reg8) (o : RM8) : IgnoresFlags (moveFromRm8 r o) := by
  intro z f s
  simp only [moveFromRm8, readRm8_withFlags, rmCost8_withFlags, withFlags_params]
  cases readRm8 o s <;> rfl

theorem moveFromRm16_ignoresFlags (r : Reg16) (o : RM16) : IgnoresFlags (moveFromRm16 r o) := by
  intro z f s
  simp only [moveFromRm16, readRm16_withFlags, rmCost16_withFlags, withFlags_params]
  cases readRm16 o s <;> rfl

theorem loadAl_ignoresFlags (a16 : Word) : IgnoresFlags (loadAl a16) := by
  intro z f s
  simp only [loadAl, memRead8_withFlags, withFlags_params]
  cases memRead8 a16.toNat s <;> rfl

theorem loadAx_ignoresFlags (a16 : Word) : IgnoresFlags (loadAx a16) := by
  intro z f s
  simp only [loadAx, memRead16_withFlags, oddCost_withFlags, withFlags_params]
  cases memRead16 a16.toNat s <;> rfl

theorem storeAl_ignoresFlags (a16 : Word) : IgnoresFlags (storeAl a16) := by
  intro z f s
  simp only [storeAl, memWrite8_ignoresFlags _ _ z f s, withFlags_regs, withFlags_params, charge_map_withFlags]

theorem storeAx_ignoresFlags (a16 : Word) : IgnoresFlags (storeAx a16) := by
  intro z f s
  simp only [storeAx, memWrite16_ignoresFlags _ _ z f s, withFlags_regs, withFlags_params, oddCost_withFlags,
    charge_map_withFlags]

theorem ruleOf_ignoresFlags_of_isMove {i : Instr} (h : isMove i) : IgnoresFlags (ruleOf i) := by
  obtain ⟨n, hn, -, hlast⟩ := h
  cases i with
  | movRm8R8 d r => exact fun z f s => moveToRm8_ignoresFlags d (s.regs.get8 r) _ _ z f s
  | movRm16R16 d r => exact fun z f s => moveToRm16_ignoresFlags d (s.regs.get16 r) _ _ z f s
  | movRm8Imm8 d v => exact fun z f s => moveToRm8_ignoresFlags d v _ _ z f s
  | movRm16Imm16 d v => exact fun z f s => moveToRm16_ignoresFlags d v _ _ z f s
  | movR8Rm8 r o => exact moveFromRm8_ignoresFlags r o
  | movR16Rm16 r o => exact moveFromRm16_ignoresFlags r o
  | movR8Imm8 r v | movR16Imm16 r v => exact fun _ _ _ => rfl
  | movAlMem a16 => exact loadAl_ignoresFlags a16
  | movAxMem a16 => exact loadAx_ignoresFlags a16
  | movMemAl a16 => exact storeAl_ignoresFlags a16
  | movMemAx a16 => exact storeAx_ignoresFlags a16
  | db reason bytes => cases hn
  | _ => cases hn; exact absurd hlast (by decide)

/-! ### The step around a rule -/

theorem perform_withFlags {i : Instr} {rule : State → Except Fault State} (hrule : IgnoresFlags rule) {s t : State}
    (h : perform i rule s = .next t) (z f : Bool) : perform i rule (withFlags z f s) = .next (withFlags z f t) := by
  have hbegin : rule (beginStep i.length (withFlags z f s)) =
      (rule (beginStep i.length s)).map (withFlags z f) := hrule z f (beginStep i.length s)
  obtain ⟨code, hd, hp⟩ | ⟨e, hd, hr, hp⟩ | ⟨u, hd, hr, hp⟩ := perform_cases i rule s <;> cases hp.symm.trans h
  · exact perform_of_diagnosis rule hd
  · exact perform_of_error hd (hbegin.trans (congrArg _ hr))
  · exact perform_of_ok (s := withFlags z f s) (t := withFlags z f u) hd (hbegin.trans (congrArg _ hr))

theorem exec_withFlags_of_isMove {i : Instr} (hi : isMove i) {s t : State} (h : exec i s = .next t) (z f : Bool) :
    exec i (withFlags z f s) = .next (withFlags z f t) := by
  rw [exec_eq_perform] at h ⊢
  exact perform_withFlags (ruleOf_ignoresFlags_of_isMove hi) h z f

/-! ### The statement -/

/-- Settles O32: with `s`'s own flags put for the new ones the next state has them too, so they were not written. -/
theorem movNeitherReadsNorWritesFlags : Obligations.MovNeitherReadsNorWritesFlags := by
  intro i s t hi h
  have hown : t = withFlags s.zf s.sf t := by
    have := exec_withFlags_of_isMove hi h s.zf s.sf
    rw [withFlags_self, h] at this
    exact Host.Outcome.next.inj this
  exact ⟨(congrArg State.zf hown :), (congrArg State.sf hown :), exec_withFlags_of_isMove hi h⟩

end Sys2Proof.Machine
end

section
/-! Where `ip` goes (spec/43_control.md R161): no operand, memory or flag write moves it, a jump whose condition holds
moves it by its displacement, and the target the text of the jump prints (R101) is the sum. -/

namespace Sys2Proof.Machine

open Sys2Proof.Spec

/-- `ip` after an instruction that ends at `ip`: moved by the displacement of a jump whose condition holds. -/
def ipAfter (ip : Word) : Option Byte → Word
  | none => ip
  | some r8 => ip + r8.signExtend 16

/-! ### The writes keep `ip` -/

theorem writeRm8_ip {o : RM8} {v : Byte} {s t : State} (h : writeRm8 o v s = .ok t) : t.ip = s.ip := by
  obtain ⟨r, -, rfl⟩ | ⟨m, -, -, -, rfl⟩ := writeRm8_eq_ok h <;> rfl

theorem writeRm16_ip {o : RM16} {v : Word} {s t : State} (h : writeRm16 o v s = .ok t) : t.ip = s.ip := by
  obtain ⟨r, -, rfl⟩ | ⟨m, -, -, -, rfl⟩ := writeRm16_eq_ok h <;> rfl

theorem storeRm8_ip {op : AluOp} {o : RM8} {v : Byte} {s t : State} (h : storeRm8 op o v s = .ok t) :
    t.ip = s.ip := by
  cases op with
  | cmp => cases h; rfl
  | _ => exact writeRm8_ip h

theorem storeRm16_ip {op : AluOp} {o : RM16} {v : Word} {s t : State} (h : storeRm16 op o v s = .ok t) :
    t.ip = s.ip := by
  cases op with
  | cmp => cases h; rfl
  | _ => exact writeRm16_ip h

theorem storeReg8_ip (op : AluOp) (r : Reg8) (v : Byte) (s : State) : (storeReg8 op r v s).ip = s.ip := by
  cases op <;> rfl

theorem storeReg16_ip (op : AluOp) (r : Reg16) (v : Word) (s : State) : (storeReg16 op r v s).ip = s.ip := by
  cases op <;> rfl

/-! ### The rules (R163, R181 to R184) -/

/-- The condition a jump tests decides its displacement. -/
theorem jumpIf_ip (c : Bool) (x y : Nat) (r8 : Byte) (s : State) :
    (jumpIf c x y r8 s).ip = ipAfter s.ip (if c then some r8 else none) := by
  cases c <;> rfl

/-- The LOOP family tests `cx` after the decrement (R180), `takenDisplacement` before it. -/
theorem decremented_ne_zero (v : Word) : (v - 1#16 != 0#16) = decide (v ≠ 1#16) := by
  simp [bne, beq_eq_decide, BitVec.sub_eq_iff_eq_add]

/-- No rule moves `ip` but that of a jump whose condition holds (R161). -/
theorem rule_ip {i : Instr} {s t : State} (h : ruleOf i s = .ok t) :
    t.ip = ipAfter s.ip (takenDisplacement i s) := by
  cases i with
  | movRm8R8 _ _ | movRm8Imm8 _ _ =>
    obtain ⟨u, hu, rfl⟩ := map_ok_inv h
    exact (show u.ip = s.ip from writeRm8_ip hu)
  | movRm16R16 _ _ | movRm16Imm16 _ _ =>
    obtain ⟨u, hu, rfl⟩ := map_ok_inv h
    exact (show u.ip = s.ip from writeRm16_ip hu)
  | movMemAl _ =>
    obtain ⟨u, hu, rfl⟩ := map_ok_inv h
    obtain ⟨-, -, rfl⟩ := memWrite8_eq_ok hu
    rfl
  | movMemAx _ =>
    obtain ⟨u, hu, rfl⟩ := map_ok_inv h
    obtain ⟨-, -, rfl⟩ := memWrite16_eq_ok hu
    rfl
  | movR8Rm8 _ _ | movR16Rm16 _ _ | movAlMem _ | movAxMem _ =>
    obtain ⟨v, -, rfl⟩ := map_ok_inv h
    rfl
  | addRm8R8 _ _ | subRm8R8 _ _ | cmpRm8R8 _ _ | addRm8Imm8 _ _ | subRm8Imm8 _ _ | cmpRm8Imm8 _ _
  | addRm8Imm8Alias _ _ | subRm8Imm8Alias _ _ | cmpRm8Imm8Alias _ _ =>
    obtain ⟨v, -, h⟩ := bind_ok_inv h
    obtain ⟨u, hu, rfl⟩ := map_ok_inv h
    exact (show u.ip = s.ip from storeRm8_ip hu)
  | addRm16R16 _ _ | subRm16R16 _ _ | cmpRm16R16 _ _ | addRm16Imm16 _ _ | subRm16Imm16 _ _ | cmpRm16Imm16 _ _
  | addRm16SImm8 _ _ | subRm16SImm8 _ _ | cmpRm16SImm8 _ _ =>
    obtain ⟨v, -, h⟩ := bind_ok_inv h
    obtain ⟨u, hu, rfl⟩ := map_ok_inv h
    exact (show u.ip = s.ip from storeRm16_ip hu)
  | addR8Rm8 _ _ | subR8Rm8 _ _ | cmpR8Rm8 _ _ =>
    obtain ⟨v, -, rfl⟩ := map_ok_inv h
    exact storeReg8_ip _ _ _ s
  | addR16Rm16 _ _ | subR16Rm16 _ _ | cmpR16Rm16 _ _ =>
    obtain ⟨v, -, rfl⟩ := map_ok_inv h
    exact storeReg16_ip _ _ _ s
  | jz _ | js _ => cases h; exact jumpIf_ip _ _ _ _ s
  | jnz _ =>
    cases h
    rw [jumpIf_ip, takenDisplacement]
    cases s.zf <;> rfl
  | jns _ =>
    cases h
    rw [jumpIf_ip, takenDisplacement]
    cases s.sf <;> rfl
  | jcxz _ =>
    cases h
    rw [jumpIf_ip]
    simp [takenDisplacement]
  | loopnz _ | loopz _ | loop _ =>
    cases h
    rw [jumpIf_ip]
    simp [takenDisplacement, decremented_ne_zero]
  | _ => cases h; rfl

theorem takenDisplacement_beginStep (i : Instr) (n : Nat) (s : State) :
    takenDisplacement i (beginStep n s) = takenDisplacement i s := rfl

/-- A jump accesses no memory, so its rule raises no fault. -/
theorem rule_ne_error_of_takenDisplacement {i : Instr} {r8 : Byte} {s : State} (h : takenDisplacement i s = some r8)
    (u : State) (f : Fault) : ruleOf i u ≠ .error f := by
  cases i with
  | jz _ | jnz _ | js _ | jns _ | loopnz _ | loopz _ | loop _ | jcxz _ => exact nofun
  | _ => cases h

/-! ### The step -/

theorem finishStep_ip_of_rule {i : Instr} {s u : State} (h : ruleOf i (beginStep i.length s) = .ok u) :
    (finishStep u).ip = ipAfter (s.ip + BitVec.ofNat 16 i.length) (takenDisplacement i s) := by
  rw [finishStep_ip, rule_ip h, beginStep_ip, takenDisplacement_beginStep]

theorem exec_ip_of_taken {i : Instr} {r8 : Byte} {s t : State} (h : exec i s = .next t)
    (hd : diagnosis i s.params.profile = none) (htaken : takenDisplacement i s = some r8) :
    t.ip = s.ip + BitVec.ofNat 16 i.length + r8.signExtend 16 := by
  obtain ⟨code, hcode, -⟩ | ⟨f, -, hr, -⟩ | ⟨u, -, hr, he⟩ := exec_cases i s
  · cases hcode.symm.trans hd
  · exact absurd hr (rule_ne_error_of_takenDisplacement htaken _ f)
  · cases he.symm.trans h
    rw [finishStep_ip_of_rule hr, htaken, ipAfter]

/-! ### The statement -/

theorem length_of_jump {e : (Byte → Instr) × String} (he : e ∈ jumps) (r8 : Byte) : (e.1 r8).length = 2 := by
  revert e
  simp [jumps, Instr.length]

/-- Settles O30, by the cases of `exec`: a diagnostic no-op ends past the instruction, a fault keeps `ip`, and a rule
moves it as `rule_ip` says. -/
theorem instructionPointerContract : Obligations.InstructionPointerContract := by
  refine ⟨fun i s t hrun h => ?_, fun e he r8 s t h hd htaken => ?_⟩
  · obtain ⟨code, hd, he⟩ | ⟨f, -, -, he⟩ | ⟨u, hd, hr, he⟩ := exec_cases i s <;> cases he.symm.trans h
    · have hnext : (diagnosticStep code i.length s).runState = .running := hrun
      refine ⟨fun hfault => (nomatch hnext.symm.trans hfault), fun _ => ?_⟩
      rw [hd]
      exact (BitVec.add_zero _).symm
    · exact ⟨fun _ => rfl, fun hne => absurd rfl hne⟩
    · have hnext : (finishStep u).runState = .running := (rule_sameRest hr).runState.trans hrun
      refine ⟨fun hfault => (nomatch hnext.symm.trans hfault), fun _ => ?_⟩
      rw [finishStep_ip_of_rule hr, hd]
      cases takenDisplacement i s with
      | none => exact (BitVec.add_zero _).symm
      | some r8 => rfl
  · rw [textOf_jump he, textJump, textTarget, exec_ip_of_taken h hd htaken, length_of_jump he, BitVec.ofNat_toNat,
      BitVec.setWidth_eq]
    rfl

end Sys2Proof.Machine
end

section
/-! The load transaction (spec/60_exceptions.md R193; spec/20_memory.md R45): the two outcomes of a load by its length,
the memory it leaves, and the first step of an empty image. -/

namespace Sys2Proof.Machine

/-! ### The outcome of a load by its length -/

theorem load_of_oversize {bs : List Byte} (s : State) (h : 65536 < bs.length) : load bs s = .error .oversize :=
  if_pos h

theorem load_of_fits {bs : List Byte} (s : State) (h : bs.length ≤ 65536) :
    load bs s = .ok (loadedState s.params bs) :=
  if_neg (Nat.not_lt.mpr h)

/-! ### The state a load leaves -/

section
variable {p : Params} {bs : List Byte} {a : Nat}

theorem read_loadedState_of_lt (hfits : bs.length ≤ 65536) (ha : a < bs.length) :
    bs[a]? = some ((loadedState p bs).mem.read a) := by
  have hread := read_writeBytes_inside (m := []) (a := 0) rfl bs (by simpa [memSize] using hfits) ha
  rwa [Nat.zero_add] at hread

theorem read_loadedState_of_le (ha : bs.length ≤ a) : (loadedState p bs).mem.read a = 0#8 :=
  read_writeBytes_after [] bs (by omega)

end

/-- A running machine whose `ip` has reached `CODE_LEN` halts and changes nothing else (R157). -/
theorem step_eq_halted {s : State} (hrun : s.runState = .running) (hip : s.codeLen ≤ s.ip.toNat) :
    step s = .next { s with runState := .halted } := by
  obtain ⟨hstopped, -⟩ | ⟨-, -, hstep⟩ | ⟨-, -, hinside, -⟩ := step_cases s
  · exact absurd hrun hstopped
  · exact hstep
  · exact absurd hinside (Nat.not_lt.mpr hip)

/-! ### The statement -/

/-- Settles O19, with `loadedState` as the state a load leaves: an empty image ends where `ip` starts, so its first
step halts. -/
theorem loadTransaction : Obligations.LoadTransaction := by
  intro s bs
  refine ⟨load_of_oversize s, fun hfits => ⟨loadedState s.params bs, load_of_fits s hfits, rfl, rfl,
    fun a => read_loadedState_of_lt hfits, fun a => read_loadedState_of_le, ?_⟩⟩
  rintro rfl
  exact step_eq_halted rfl (Nat.zero_le _)

end Sys2Proof.Machine
end

section
/-! What the profile leaves out (spec/60_exceptions.md R185): the step is the diagnostic no-op. -/

namespace Sys2Proof.Machine

open Sys2Proof.Spec

theorem diagnosticStep_eq_noOp (code : DiagCode) (len : Nat) (s : State) :
    diagnosticStep code len s = noOp code len s :=
  diagnosticStep_eq code len s

/-- Every meaning is guarded by its diagnosis, so the rule of an instruction left out never runs. -/
theorem exec_of_diagnosis {i : Instr} {s : State} {code : DiagCode} (h : diagnosis i s.params.profile = some code) :
    exec i s = .next (diagnosticStep code i.length s) := by
  rw [exec_eq_perform]
  exact perform_of_diagnosis (ruleOf i) h

/-- Settles O27, by `exec_of_diagnosis`. -/
theorem diagnosticNoOp : Obligations.DiagnosticNoOp := by
  intro i s code h
  rw [exec_of_diagnosis h, diagnosticStep_eq_noOp]

end Sys2Proof.Machine
end

section
/-! Clock values (spec/70_reset_and_hazards.md R213). Two runs of a rule, one of them under other clock tables and from
other counts, read the same operands and make the same writes, so they agree in everything but the tables and counts;
the step around the rule keeps that. -/

namespace Sys2Proof.Machine

open Sys2Proof.Spec

/-- The same fault, or two states of which the second is the first with these clock tables and with other counts. -/
def AgreeButClocks (clk : Clk) (ea : EaClocks) (oddWord : Nat) (x y : Except Fault State) : Prop :=
  ∃ c n, y = x.map (withClocks clk ea oddWord c n)

/-- From a state with other clock tables and counts the rule's result differs in those only. -/
def IgnoresClocks (rule : State → Except Fault State) : Prop :=
  ∀ clk ea oddWord c n s, AgreeButClocks clk ea oddWord (rule s) (rule (withClocks clk ea oddWord c n s))

section
variable {clk : Clk} {ea : EaClocks} {oddWord : Nat}

/-- The same value read on both sides, then results that agree. -/
theorem AgreeButClocks.of_read {α : Type} (x : Except Fault α) {f g : α → Except Fault State}
    (h : ∀ a, AgreeButClocks clk ea oddWord (f a) (g a)) : AgreeButClocks clk ea oddWord (x >>= f) (x >>= g) := by
  cases x with
  | error e => exact ⟨0, 0, rfl⟩
  | ok a => exact h a

/-- Results that agree, then continuations that take states differing in clocks only to results that agree. -/
theorem AgreeButClocks.bind {x y : Except Fault State} {f g : State → Except Fault State}
    (h : AgreeButClocks clk ea oddWord x y)
    (hfg : ∀ c n t, AgreeButClocks clk ea oddWord (f t) (g (withClocks clk ea oddWord c n t))) :
    AgreeButClocks clk ea oddWord (x >>= f) (y >>= g) := by
  obtain ⟨c, n, rfl⟩ := h
  cases x with
  | error e => exact ⟨0, 0, rfl⟩
  | ok t => exact hfg c n t

variable (clk ea oddWord) (c n : Nat) (s : State)

@[simp] theorem readRm8_withClocks (o : RM8) : readRm8 o (withClocks clk ea oddWord c n s) = readRm8 o s := by
  cases o <;> rfl

@[simp] theorem readRm16_withClocks (o : RM16) : readRm16 o (withClocks clk ea oddWord c n s) = readRm16 o s := by
  cases o <;> rfl

end

/-! ### The writes -/

theorem memWrite8_ignoresClocks (a : Nat) (v : Byte) : IgnoresClocks (memWrite8 a v) := by
  intro clk ea oddWord c n s
  refine ⟨c, n, ?_⟩
  change (writeCheck a 1 s).map _ = ((writeCheck a 1 s).map _).map _
  cases writeCheck a 1 s <;> rfl

theorem memWrite16_ignoresClocks (a : Nat) (v : Word) : IgnoresClocks (memWrite16 a v) := by
  intro clk ea oddWord c n s
  refine ⟨c, n, ?_⟩
  change (writeCheck a 2 s).map _ = ((writeCheck a 2 s).map _).map _
  cases writeCheck a 2 s <;> rfl

theorem writeRm8_ignoresClocks (o : RM8) (v : Byte) : IgnoresClocks (writeRm8 o v) := by
  intro clk ea oddWord c n s
  cases o with
  | reg r => exact ⟨c, n, rfl⟩
  | mem m => exact memWrite8_ignoresClocks (eaNat m s) v clk ea oddWord c n s

theorem writeRm16_ignoresClocks (o : RM16) (v : Word) : IgnoresClocks (writeRm16 o v) := by
  intro clk ea oddWord c n s
  cases o with
  | reg r => exact ⟨c, n, rfl⟩
  | mem m => exact memWrite16_ignoresClocks (eaNat m s) v clk ea oddWord c n s

theorem storeRm8_ignoresClocks (op : AluOp) (o : RM8) (v : Byte) : IgnoresClocks (storeRm8 op o v) := by
  cases op with
  | cmp => exact fun _ _ _ c n _ => ⟨c, n, rfl⟩
  | add | sub => exact writeRm8_ignoresClocks o v

theorem storeRm16_ignoresClocks (op : AluOp) (o : RM16) (v : Word) : IgnoresClocks (storeRm16 op o v) := by
  cases op with
  | cmp => exact fun _ _ _ c n _ => ⟨c, n, rfl⟩
  | add | sub => exact writeRm16_ignoresClocks o v

/-! ### The rules: the charge at the end of each is the one thing that reads a table -/

section
variable (clk : Clk) (ea : EaClocks) (oddWord c n : Nat) (s : State)

/-- The base costs may differ, as each side takes them from its own tables. -/
theorem moveToRm8_agreeButClocks (d : RM8) (v : Byte) (x y x' y' : Nat) :
    AgreeButClocks clk ea oddWord (moveToRm8 d v x y s) (moveToRm8 d v x' y' (withClocks clk ea oddWord c n s)) :=
  (writeRm8_ignoresClocks d v clk ea oddWord c n s).bind fun _ _ _ => ⟨_, _, rfl⟩

theorem moveToRm16_agreeButClocks (d : RM16) (v : Word) (x y x' y' : Nat) :
    AgreeButClocks clk ea oddWord (moveToRm16 d v x y s) (moveToRm16 d v x' y' (withClocks clk ea oddWord c n s)) :=
  (writeRm16_ignoresClocks d v clk ea oddWord c n s).bind fun _ _ _ => ⟨_, _, rfl⟩

theorem jumpIf_agreeButClocks (b : Bool) (r8 : Byte) (x y x' y' : Nat) :
    AgreeButClocks clk ea oddWord (.ok (jumpIf b x y r8 s))
      (.ok (jumpIf b x' y' r8 (withClocks clk ea oddWord c n s))) := by
  cases b <;> exact ⟨_, _, rfl⟩

end

theorem moveFromRm8_ignoresClocks (r : Reg8) (o : RM8) : IgnoresClocks (moveFromRm8 r o) := by
  intro clk ea oddWord c n s
  rw [moveFromRm8, moveFromRm8, readRm8_withClocks]
  exact .of_read _ fun _ => ⟨_, _, rfl⟩

theorem moveFromRm16_ignoresClocks (r : Reg16) (o : RM16) : IgnoresClocks (moveFromRm16 r o) := by
  intro clk ea oddWord c n s
  rw [moveFromRm16, moveFromRm16, readRm16_withClocks]
  exact .of_read _ fun _ => ⟨_, _, rfl⟩

theorem loadAl_ignoresClocks (a16 : Word) : IgnoresClocks (loadAl a16) :=
  fun _ _ _ _ _ s => .of_read (memRead8 a16.toNat s) fun _ => ⟨_, _, rfl⟩

theorem loadAx_ignoresClocks (a16 : Word) : IgnoresClocks (loadAx a16) :=
  fun _ _ _ _ _ s => .of_read (memRead16 a16.toNat s) fun _ => ⟨_, _, rfl⟩

theorem storeAl_ignoresClocks (a16 : Word) : IgnoresClocks (storeAl a16) :=
  fun _ _ _ _ _ _ => (memWrite8_ignoresClocks _ _ _ _ _ _ _ _).bind fun _ _ _ => ⟨_, _, rfl⟩

theorem storeAx_ignoresClocks (a16 : Word) : IgnoresClocks (storeAx a16) :=
  fun _ _ _ _ _ _ => (memWrite16_ignoresClocks _ _ _ _ _ _ _ _).bind fun _ _ _ => ⟨_, _, rfl⟩

theorem arithRm8R8_ignoresClocks (op : AluOp) (d : RM8) (r : Reg8) : IgnoresClocks (arithRm8R8 op d r) := by
  intro clk ea oddWord c n s
  rw [arithRm8R8, arithRm8R8, readRm8_withClocks]
  exact .of_read _ fun _ => (storeRm8_ignoresClocks op d _ clk ea oddWord c n s).bind fun _ _ _ => ⟨_, _, rfl⟩

theorem arithRm16R16_ignoresClocks (op : AluOp) (d : RM16) (r : Reg16) : IgnoresClocks (arithRm16R16 op d r) := by
  intro clk ea oddWord c n s
  rw [arithRm16R16, arithRm16R16, readRm16_withClocks]
  exact .of_read _ fun _ => (storeRm16_ignoresClocks op d _ clk ea oddWord c n s).bind fun _ _ _ => ⟨_, _, rfl⟩

theorem arithRm8Imm8_ignoresClocks (op : AluOp) (d : RM8) (v : Byte) : IgnoresClocks (arithRm8Imm8 op d v) := by
  intro clk ea oddWord c n s
  rw [arithRm8Imm8, arithRm8Imm8, readRm8_withClocks]
  exact .of_read _ fun _ => (storeRm8_ignoresClocks op d _ clk ea oddWord c n s).bind fun _ _ _ => ⟨_, _, rfl⟩

theorem arithRm16Imm16_ignoresClocks (op : AluOp) (d : RM16) (v : Word) : IgnoresClocks (arithRm16Imm16 op d v) := by
  intro clk ea oddWord c n s
  rw [arithRm16Imm16, arithRm16Imm16, readRm16_withClocks]
  exact .of_read _ fun _ => (storeRm16_ignoresClocks op d _ clk ea oddWord c n s).bind fun _ _ _ => ⟨_, _, rfl⟩

theorem arithR8Rm8_ignoresClocks (op : AluOp) (r : Reg8) (o : RM8) : IgnoresClocks (arithR8Rm8 op r o) := by
  intro clk ea oddWord c n s
  rw [arithR8Rm8, arithR8Rm8, readRm8_withClocks]
  cases op <;> exact .of_read _ fun _ => ⟨_, _, rfl⟩

theorem arithR16Rm16_ignoresClocks (op : AluOp) (r : Reg16) (o : RM16) : IgnoresClocks (arithR16Rm16 op r o) := by
  intro clk ea oddWord c n s
  rw [arithR16Rm16, arithR16Rm16, readRm16_withClocks]
  cases op <;> exact .of_read _ fun _ => ⟨_, _, rfl⟩

theorem arithAlImm8_ignoresClocks (op : AluOp) (v : Byte) : IgnoresClocks (arithAlImm8 op v) := by
  cases op <;> exact fun _ _ _ _ _ _ => ⟨_, _, rfl⟩

theorem arithAxImm16_ignoresClocks (op : AluOp) (v : Word) : IgnoresClocks (arithAxImm16 op v) := by
  cases op <;> exact fun _ _ _ _ _ _ => ⟨_, _, rfl⟩

/-- No rule reads a clock table or a count, except for its charge. -/
theorem ruleOf_ignoresClocks (i : Instr) : IgnoresClocks (ruleOf i) := by
  cases i with
  | movRm8R8 d r => exact fun clk ea k c n s => moveToRm8_agreeButClocks clk ea k c n s d (s.regs.get8 r) _ _ _ _
  | movRm16R16 d r => exact fun clk ea k c n s => moveToRm16_agreeButClocks clk ea k c n s d (s.regs.get16 r) _ _ _ _
  | movRm8Imm8 d v => exact fun clk ea k c n s => moveToRm8_agreeButClocks clk ea k c n s d v _ _ _ _
  | movRm16Imm16 d v => exact fun clk ea k c n s => moveToRm16_agreeButClocks clk ea k c n s d v _ _ _ _
  | movR8Rm8 r o => exact moveFromRm8_ignoresClocks r o
  | movR16Rm16 r o => exact moveFromRm16_ignoresClocks r o
  | movR8Imm8 r v | movR16Imm16 r v => exact fun _ _ _ _ _ _ => ⟨_, _, rfl⟩
  | movAlMem a16 => exact loadAl_ignoresClocks a16
  | movAxMem a16 => exact loadAx_ignoresClocks a16
  | movMemAl a16 => exact storeAl_ignoresClocks a16
  | movMemAx a16 => exact storeAx_ignoresClocks a16
  | addRm8R8 d r | subRm8R8 d r | cmpRm8R8 d r => exact arithRm8R8_ignoresClocks _ d r
  | addRm16R16 d r | subRm16R16 d r | cmpRm16R16 d r => exact arithRm16R16_ignoresClocks _ d r
  | addR8Rm8 r o | subR8Rm8 r o | cmpR8Rm8 r o => exact arithR8Rm8_ignoresClocks _ r o
  | addR16Rm16 r o | subR16Rm16 r o | cmpR16Rm16 r o => exact arithR16Rm16_ignoresClocks _ r o
  | addAlImm8 v | subAlImm8 v | cmpAlImm8 v => exact arithAlImm8_ignoresClocks _ v
  | addAxImm16 v | subAxImm16 v | cmpAxImm16 v => exact arithAxImm16_ignoresClocks _ v
  | addRm8Imm8 d v | subRm8Imm8 d v | cmpRm8Imm8 d v
  | addRm8Imm8Alias d v | subRm8Imm8Alias d v | cmpRm8Imm8Alias d v => exact arithRm8Imm8_ignoresClocks _ d v
  | addRm16Imm16 d v | subRm16Imm16 d v | cmpRm16Imm16 d v => exact arithRm16Imm16_ignoresClocks _ d v
  | addRm16SImm8 d v | subRm16SImm8 d v | cmpRm16SImm8 d v => exact arithRm16Imm16_ignoresClocks _ d (sextImm v)
  | jz r8 | jnz r8 | js r8 | jns r8 | jcxz r8 =>
    exact fun clk ea k c n s => jumpIf_agreeButClocks clk ea k c n s _ r8 _ _ _ _
  | loopnz r8 | loopz r8 | loop r8 =>
    exact fun clk ea k c n s => jumpIf_agreeButClocks clk ea k c n (decrementCx s) _ r8 _ _ _ _
  | _ => exact fun _ _ _ c n _ => ⟨c, n, rfl⟩

/-! ### The step around a rule, and the statement -/

theorem perform_withClocks {i : Instr} {rule : State → Except Fault State} (hrule : IgnoresClocks rule) {s t : State}
    (h : perform i rule s = .next t) (clk : Clk) (ea : EaClocks) (oddWord c n : Nat) :
    ∃ c' n', perform i rule (withClocks clk ea oddWord c n s) = .next (withClocks clk ea oddWord c' n' t) := by
  obtain ⟨c', n', hbegin⟩ := hrule clk ea oddWord 0 n (beginStep i.length s)
  obtain ⟨code, hd, hp⟩ | ⟨e, hd, hr, hp⟩ | ⟨u, hd, hr, hp⟩ := perform_cases i rule s <;> cases hp.symm.trans h
  · exact ⟨_, _, perform_of_diagnosis rule hd⟩
  · exact ⟨_, _, perform_of_error hd (hbegin.trans (congrArg _ hr))⟩
  · exact ⟨_, _, perform_of_ok (t := withClocks clk ea oddWord c' n' u) hd (hbegin.trans (congrArg _ hr))⟩

/-- A running machine inside its image runs the instruction decoded at `ip` (R157). -/
theorem step_eq_exec {s : State} {i : Instr} (hrun : s.runState = .running) (hip : s.ip.toNat < s.codeLen)
    (hi : decodeBytes (s.image.drop s.ip.toNat) = some i) : step s = exec i s := by
  obtain ⟨hstopped, -⟩ | ⟨-, houtside, -⟩ | ⟨j, -, -, hj, hstep⟩ := step_cases s
  · exact absurd hrun hstopped
  · exact absurd hip (Nat.not_lt.mpr houtside)
  · obtain rfl : j = i := Option.some.inj (hj.symm.trans hi)
    exact hstep

/-- Settles O22: `step` chooses what to do by `run_state`, `ip` and the image, which the two machines share, and an
instruction's rule ignores clocks. -/
theorem clockValuesChangeCountsOnly : Obligations.ClockValuesChangeCountsOnly := by
  intro s t clk ea oddWord c n h
  obtain ⟨hstop, hs⟩ | ⟨hrun, hip, hs⟩ | ⟨i, hrun, hip, hi, hs⟩ := step_cases s <;> rw [hs] at h
  · cases h
    exact ⟨c, n, step_eq_of_stopped hstop⟩
  · cases h
    exact ⟨c, n, step_eq_halted hrun hip⟩
  · rw [exec_eq_perform] at h
    obtain ⟨c', n', hp⟩ := perform_withClocks (ruleOf_ignoresClocks i) h clk ea oddWord c n
    have hexec : step (withClocks clk ea oddWord c n s) = exec i (withClocks clk ea oddWord c n s) :=
      step_eq_exec hrun hip hi
    exact ⟨c', n', hexec.trans ((exec_eq_perform i _).trans hp)⟩

end Sys2Proof.Machine
end

section
/-! The decoder against the encoder, in both directions, and what follows for lengths and positions
(spec/30_encoding.md sections 2 to 5, spec/40_decoder.md sections 1 and 2). -/

namespace Sys2Proof

open Sys2Proof.Spec

/-! ### The two kinds of answer -/

/-- What bytes decode to: what the opcode map reads of them, or a fallback over all of them. -/
theorem decodeBytes_cases {bs : List Byte} {i : Instr} (h : decodeBytes bs = some i) :
    (∃ op rest, bs = op :: rest ∧ decodeOp op rest = .ok i) ∨
    ∃ reason, i = .db reason bs ∧ fallbackWf reason bs = true := by
  cases bs with
  | nil => cases h
  | cons op rest =>
    cases hd : decodeOp op rest with
    | ok j =>
      simp only [decodeBytes, hd, Option.some.injEq] at h
      exact .inl ⟨op, rest, rfl, hd.trans (congrArg _ h)⟩
    | error reason =>
      simp only [decodeBytes, hd, Option.some.injEq] at h
      exact .inr ⟨reason, h.symm, (decodeOp_eq_error op rest reason).mp hd⟩

/-- A decoded instruction of the 62 forms was read by the opcode map. -/
theorem decodeOp_of_form {op : Byte} {rest : List Byte} {i : Instr} (h : decodeBytes (op :: rest) = some i)
    (hf : i.form ≠ none) : decodeOp op rest = .ok i := by
  obtain ⟨op', rest', heq, hd⟩ | ⟨reason, rfl, -⟩ := decodeBytes_cases h
  · cases heq
    exact hd
  · exact absurd rfl hf

theorem fallbackWf_ne_nil {reason : FallbackReason} {bs : List Byte} (h : fallbackWf reason bs = true) : bs ≠ [] := by
  rintro rfl
  simp [fallbackWf] at h

/-! ### The round trips -/

theorem decodeBytes_encode_append {i : Instr} (hw : i.wf = true) (hn : ∀ reason bs, i ≠ .db reason bs)
    (rest : List Byte) : decodeBytes (encode i ++ rest) = some i := by
  rw [encode_eq_opcode_cons hn, List.cons_append, decodeBytes, decodeOp_encode hw hn]

theorem decodeBytes_of_fallbackWf {reason : FallbackReason} {bs : List Byte} (h : fallbackWf reason bs = true) :
    decodeBytes bs = some (.db reason bs) := by
  cases bs with
  | nil => exact absurd rfl (fallbackWf_ne_nil h)
  | cons op rest => exact (decodeBytes_cons_eq_db_iff op rest reason).mpr h

theorem wf_of_decodeBytes {bs : List Byte} {i : Instr} (h : decodeBytes bs = some i) : i.wf = true := by
  obtain ⟨op, rest, -, hd⟩ | ⟨reason, rfl, hwf⟩ := decodeBytes_cases h
  · exact (decodeOp_eq_ok hd).1
  · exact hwf

/-- Decoded bytes begin with the encoding of what they decode to. -/
theorem encode_append_of_decodeBytes {bs : List Byte} {i : Instr} (h : decodeBytes bs = some i) :
    ∃ more, bs = encode i ++ more := by
  obtain ⟨op, rest, rfl, hd⟩ | ⟨reason, rfl, -⟩ := decodeBytes_cases h
  · exact (decodeOp_eq_ok hd).2.2
  · exact ⟨[], (List.append_nil bs).symm⟩

theorem length_pos_of_decodeBytes {bs : List Byte} {i : Instr} (h : decodeBytes bs = some i) : 0 < i.length := by
  obtain ⟨op, rest, -, hd⟩ | ⟨reason, rfl, hwf⟩ := decodeBytes_cases h
  · exact Nat.lt_of_lt_of_le Nat.zero_lt_two (two_le_length (decodeOp_eq_ok hd).2.1)
  · exact List.length_pos_of_ne_nil (fallbackWf_ne_nil hwf)

theorem length_le_of_decodeBytes {bs : List Byte} {i : Instr} (h : decodeBytes bs = some i) :
    i.length ≤ bs.length := by
  obtain ⟨more, rfl⟩ := encode_append_of_decodeBytes h
  rw [List.length_append, encode_length]
  exact Nat.le_add_right _ _

theorem encode_eq_take_of_decodeBytes {bs : List Byte} {i : Instr} (h : decodeBytes bs = some i) :
    encode i = bs.take i.length := by
  obtain ⟨more, rfl⟩ := encode_append_of_decodeBytes h
  rw [← encode_length, List.take_left]

/-- Settles O1: the handler the first byte selects reads the rest back (`decodeOp_encode`); a well-formed fallback is
the decoder's own answer on its bytes. -/
theorem decodeEncodeRoundTrip : Obligations.DecodeEncodeRoundTrip :=
  ⟨fun _ => decodeBytes_encode_append, fun _ _ => decodeBytes_of_fallbackWf⟩

/-- Settles O2: decoded bytes are the encoding and what follows it. -/
theorem decodedBytesReencode : Obligations.DecodedBytesReencode := fun _ _ h =>
  ⟨wf_of_decodeBytes h, length_pos_of_decodeBytes h, length_le_of_decodeBytes h, encode_eq_take_of_decodeBytes h⟩

/-! ### Positions (spec/40_decoder.md R86) -/

theorem decodeAt_bounds {buffer : List Byte} {position : Nat} {i : Instr} (h : decodeAt buffer position = some i) :
    position < nextPosition buffer position ∧ nextPosition buffer position ≤ buffer.length := by
  have hpos := length_pos_of_decodeBytes h
  have hle := length_le_of_decodeBytes h
  rw [List.length_drop] at hle
  rw [Machine.nextPosition_of_decodeAt h]
  omega

/-- Settles O7: a decoded instruction has at least one byte and no more than there are; one byte decodes to something,
and to nothing longer. -/
theorem nextPositionBounds : Obligations.NextPositionBounds := by
  refine ⟨fun buffer position hle => ?_, fun v => ?_⟩
  · cases h : decodeAt buffer position with
    | none =>
      rw [nextPosition, h]
      exact ⟨le_rfl, hle, fun hne => absurd rfl hne⟩
    | some i =>
      obtain ⟨hlt, hend⟩ := decodeAt_bounds h
      exact ⟨hlt.le, hend, fun _ => hlt⟩
  · obtain ⟨i, hi⟩ := decodeBytes_cons v []
    obtain ⟨hlt, hend⟩ := decodeAt_bounds (buffer := [v]) (position := 0) hi
    exact Nat.le_antisymm hend hlt

/-! ### Lengths (spec/30_encoding.md R74, R75) -/

theorem MemOp.dispLen_le : ∀ m : MemOp, m.dispLen ≤ 2
  | .noDisp _ => Nat.zero_le 2
  | .disp8 _ _ => Nat.le_succ 1
  | .direct _ | .disp16 _ _ => le_rfl

theorem RM8.dispLen_le : ∀ o : RM8, o.dispLen ≤ 2
  | .reg _ => Nat.zero_le 2
  | .mem m => m.dispLen_le

theorem RM16.dispLen_le : ∀ o : RM16, o.dispLen ≤ 2
  | .reg _ => Nat.zero_le 2
  | .mem m => m.dispLen_le

/-- The lengths R74 gives the format of row `n`; only the rows of 0x81 and 0xC7 reach R75's six bytes. -/
def LengthOfRow (n len : Nat) : Prop :=
  2 ≤ len ∧ len ≤ 6 ∧ (n ∈ rowsRM → len ≤ 4) ∧ (n ∈ rowsRMI → 3 ≤ len) ∧ (n ∈ rowsAIRI → len ≤ 3) ∧
    (n ∈ rowsAM → len = 3) ∧ (43 ≤ n → len = 2) ∧ (len = 6 → n ∈ [6, 20, 30, 40])

/-- A mod/reg/r_m byte with its displacement, and an immediate of `k` bytes where the row has one. -/
theorem lengthOfRow_of_modRegRm {n d k : Nat} (hd : d ≤ 2)
    (hn : n ∈ rowsRM ∧ k = 0 ∨ n ∈ rowsRMI ∧ (k = 1 ∨ k = 2 ∧ n ∈ [6, 20, 30, 40])) :
    LengthOfRow n (2 + d + k) := by
  simp only [rowsRM, rowsRMI, LengthOfRow, rowsAIRI, rowsAM, List.mem_cons, List.not_mem_nil,
    or_false] at hn ⊢
  omega

theorem lengthOfRow_two {n : Nat} (hRMI : n ∉ rowsRMI) (hAM : n ∉ rowsAM) : LengthOfRow n 2 := by
  simp [LengthOfRow, hRMI, hAM]

theorem lengthOfRow_three {n : Nat} (h : n < 43) : LengthOfRow n 3 := by
  simp [LengthOfRow, h]

theorem lengthOfRow_of_form {i : Instr} {n : Nat} (h : i.form = some n) : LengthOfRow n i.length := by
  cases i with
  | db reason bs => cases h
  | movRm8R8 o r | addRm8R8 o r | subRm8R8 o r | cmpRm8R8 o r | movRm16R16 o r | addRm16R16 o r | subRm16R16 o r
  | cmpRm16R16 o r | movR8Rm8 r o | addR8Rm8 r o | subR8Rm8 r o | cmpR8Rm8 r o | movR16Rm16 r o | addR16Rm16 r o
  | subR16Rm16 r o | cmpR16Rm16 r o =>
    cases h
    exact lengthOfRow_of_modRegRm (k := 0) o.dispLen_le (.inl ⟨by decide, rfl⟩)
  | movRm8Imm8 o v | addRm8Imm8 o v | addRm8Imm8Alias o v | subRm8Imm8 o v | subRm8Imm8Alias o v | cmpRm8Imm8 o v
  | cmpRm8Imm8Alias o v | addRm16SImm8 o v | subRm16SImm8 o v | cmpRm16SImm8 o v =>
    cases h
    exact lengthOfRow_of_modRegRm o.dispLen_le (.inr ⟨by decide, .inl rfl⟩)
  | movRm16Imm16 o v | addRm16Imm16 o v | subRm16Imm16 o v | cmpRm16Imm16 o v =>
    cases h
    exact lengthOfRow_of_modRegRm o.dispLen_le (.inr ⟨by decide, .inr ⟨rfl, by decide⟩⟩)
  | movR16Imm16 _ _ | movAlMem _ | movAxMem _ | movMemAl _ | movMemAx _ | addAxImm16 _ | subAxImm16 _
  | cmpAxImm16 _ =>
    cases h
    exact lengthOfRow_three (by decide)
  | _ =>
    cases h
    exact lengthOfRow_two (by decide) (by decide)

theorem opcode_of_decodeOp {op : Byte} {rest : List Byte} {i : Instr} (h : decodeOp op rest = .ok i) :
    op = i.opcode := by
  obtain ⟨-, hn, more, heq⟩ := decodeOp_eq_ok h
  rw [encode_eq_opcode_cons hn] at heq
  exact (List.cons.inj heq).1

/-- The opcodes followed by a mod/reg/r_m byte are those of the formats RM and RMI. -/
theorem hasModRegRm_opcode {i : Instr} {n : Nat} (h : i.form = some n) (hRM : n ∉ rowsRM)
    (hRMI : n ∉ rowsRMI) : hasModRegRm i.opcode.toNat = false := by
  cases i with
  | db reason bs => cases h
  | movR8Imm8 r v => cases r <;> rfl
  | movR16Imm16 r v => cases r <;> rfl
  | movAlMem _ | movAxMem _ | movMemAl _ | movMemAx _ | addAlImm8 _ | addAxImm16 _ | subAlImm8 _ | subAxImm16 _
  | cmpAlImm8 _ | cmpAxImm16 _ | jo _ | jno _ | jb _ | jnb _ | jz _ | jnz _ | jbe _ | ja _ | js _ | jns _ | jp _
  | jnp _ | jl _ | jnl _ | jle _ | jg _ | loopnz _ | loopz _ | loop _ | jcxz _ => rfl
  | movRm8R8 _ _ | movRm16R16 _ _ | movR8Rm8 _ _ | movR16Rm16 _ _ | addRm8R8 _ _ | addRm16R16 _ _ | addR8Rm8 _ _
  | addR16Rm16 _ _ | subRm8R8 _ _ | subRm16R16 _ _ | subR8Rm8 _ _ | subR16Rm16 _ _ | cmpRm8R8 _ _ | cmpRm16R16 _ _
  | cmpR8Rm8 _ _ | cmpR16Rm16 _ _ =>
    cases h
    exact absurd (by decide) hRM
  | _ =>
    cases h
    exact absurd (by decide) hRMI

/-- Without a mod/reg/r_m byte the opcode alone fixes the length. -/
theorem announcedLength_of_hasModRegRm {op : Nat} (h : hasModRegRm op = false) (rest rest' : List Byte) :
    announcedLength op rest = announcedLength op rest' := by
  simp only [announcedLength, h, Bool.false_eq_true, if_false]

/-- Settles O10: the lengths row by row; the announced length (`decodeOp_length`) looks at no byte after the second, and
without a mod/reg/r_m byte at none after the opcode. -/
theorem instructionLengths : Obligations.InstructionLengths := by
  refine ⟨fun _ _ _ _ hn => lengthOfRow_of_form hn, fun op m rest rest' i j hi hj hfi hfj => ?_,
    fun op rest rest' i j n hi hj hn hRM hRMI hfj => ?_⟩
  · rw [decodeOp_length (decodeOp_of_form hi hfi), decodeOp_length (decodeOp_of_form hj hfj)]
    rfl
  · have hdi := decodeOp_of_form hi (by rw [hn]; exact Option.some_ne_none n)
    have hop : hasModRegRm op.toNat = false := by
      rw [opcode_of_decodeOp hdi]
      exact hasModRegRm_opcode hn hRM hRMI
    rw [decodeOp_length hdi, decodeOp_length (decodeOp_of_form hj hfj)]
    exact announcedLength_of_hasModRegRm hop rest rest'

end Sys2Proof
end

section
/-! The decoded record read from the bytes (spec/40_decoder.md R89): each format's fields sit where the encoder puts
them. -/

namespace Sys2Proof

open Sys2Proof.Spec

/-! ### The bytes at fixed places -/

theorem ModRegRm.toByte_div (f : ModRegRm) : f.toByte.toNat / 64 = f.mod.toNat := by
  obtain ⟨mod, reg, rm⟩ := f
  revert mod reg rm
  decide

theorem ModRegRm.toByte_mod (f : ModRegRm) : f.toByte.toNat % 8 = f.rm.toNat := by
  obtain ⟨mod, reg, rm⟩ := f
  revert mod reg rm
  decide

theorem append_bytes (v : Word) : highByte v ++ lowByte v = v := Machine.combine_high_low v

/-- An operand without displacement never has the `r_m` of the direct address (R50). -/
theorem Base.index_toNat_ne {b : Base} (h : (MemOp.noDisp b).wf = true) : b.index.toNat ≠ 6 := by
  intro hsix
  have hbp : b = .bp := (Base.index_eq_bp b).mp (BitVec.eq_of_toNat_eq hsix)
  rw [hbp] at h
  cases h

/-- The mod/reg/r_m byte after the opcode holds the three fields. -/
theorem ofByte_rmBytes (op : Byte) (reg : BitVec 3) (f : RmField) (more : List Byte) :
    ModRegRm.ofByte (byteAt (op :: rmBytes reg f ++ more) 1) = { mod := f.mod, reg := reg, rm := f.rm } := by
  match f with
  | .reg _ | .mem (.noDisp _) | .mem (.direct _) | .mem (.disp8 _ _) | .mem (.disp16 _ _) =>
    exact ModRegRm.ofByte_toByte _

theorem dispOfBytes_rmBytes (op : Byte) (reg : BitVec 3) {f : RmField} (h : f.wf = true) (more : List Byte) :
    dispOfBytes (op :: rmBytes reg f ++ more) = f.disp := by
  match f with
  | .reg _ => simp [dispOfBytes, byteAt, rmBytes, ModRegRm.toByte_div, RmField.disp]
  | .mem (.noDisp b) =>
    have hb := Base.index_toNat_ne h
    simp [dispOfBytes, byteAt, rmBytes, ModRegRm.toByte_div, ModRegRm.toByte_mod, hb, RmField.disp, MemOp.disp]
  | .mem (.direct a16) =>
    simp [dispOfBytes, byteAt, rmBytes, ModRegRm.toByte_div, ModRegRm.toByte_mod, wordBytes, append_bytes,
      RmField.disp, MemOp.disp]
  | .mem (.disp8 b d) => simp [dispOfBytes, byteAt, rmBytes, ModRegRm.toByte_div, RmField.disp, MemOp.disp]
  | .mem (.disp16 b d) =>
    simp [dispOfBytes, byteAt, rmBytes, ModRegRm.toByte_div, wordBytes, append_bytes, RmField.disp, MemOp.disp]

theorem displacementBytes_rmBytes (op : Byte) (reg : BitVec 3) {f : RmField} (h : f.wf = true) (more : List Byte) :
    displacementBytes (byteAt (op :: rmBytes reg f ++ more) 1).toNat = f.dispLen := by
  obtain ⟨m, bytes, heq, hm⟩ := rmBytes_head reg h more
  rw [List.cons_append, heq]
  exact hm

/-- The immediate follows the displacement. -/
theorem byteAt_rmBytes (op : Byte) (reg : BitVec 3) (f : RmField) (more : List Byte) (k : Nat) :
    byteAt (op :: rmBytes reg f ++ more) (2 + f.dispLen + k) = byteAt more k := by
  have hk : 2 + f.dispLen + k = (op :: rmBytes reg f).length + k := by
    rw [List.length_cons, rmBytes_length]
    omega
  rw [byteAt, hk, List.getD_append_right _ _ _ _ (Nat.le_add_right _ _), Nat.add_sub_cancel_left, byteAt]

theorem immOfBytes_rmBytes (wide : Bool) (op : Byte) (reg : BitVec 3) (f : RmField) (more : List Byte) :
    immOfBytes wide (op :: rmBytes reg f ++ more) (2 + f.dispLen) = immOfBytes wide more 0 := by
  have h0 := byteAt_rmBytes op reg f more 0
  have h1 := byteAt_rmBytes op reg f more 1
  cases wide <;> simp_all [immOfBytes]

theorem immOfBytes_wordBytes (v : Word) (more : List Byte) : immOfBytes true (wordBytes v ++ more) 0 = .word v :=
  congrArg Immediate.word (append_bytes v)

/-! ### The formats (spec/30_encoding.md R74) -/

/-- The immediate of a row of 0x80..0x83, 0xC6 or 0xC7, from its first byte on. -/
def rmiImmediate (op : Byte) (bs : List Byte) : Immediate :=
  if op = 0x83#8 then .word ((byteAt bs 0).signExtend 16) else immOfBytes (bitOf op 0 = 1#1) bs 0

section
variable {n : Nat} (op : Byte) (reg : BitVec 3) {f : RmField} (more : List Byte) (r : Record)

theorem fieldsOfBytes_rm (hn : n ∈ rowsRM) (h : f.wf = true) :
    fieldsOfBytes n (op :: rmBytes reg f ++ more) r = r.formatRm op reg f := by
  have hm := ofByte_rmBytes op reg f more
  simp only [ModRegRm.ofByte, ModRegRm.mk.injEq] at hm
  obtain ⟨hmod, hreg, hrm⟩ := hm
  simp only [fieldsOfBytes, if_pos hn, hmod, hreg, hrm, dispOfBytes_rmBytes op reg h more]
  rfl

theorem fieldsOfBytes_rmi (hn : n ∈ rowsRMI) (h : f.wf = true) :
    fieldsOfBytes n (op :: rmBytes reg f ++ more) r =
      { r with
        s := if op = 0xC6#8 ∨ op = 0xC7#8 then none else some (bitOf op 1)
        w := some (bitOf op 0), mod := some f.mod, reg := some reg, rm := some f.rm, disp := f.disp
        imm := some (rmiImmediate op more) } := by
  have hm := ofByte_rmBytes op reg f more
  simp only [ModRegRm.ofByte, ModRegRm.mk.injEq] at hm
  obtain ⟨hmod, hreg, hrm⟩ := hm
  have hRM : n ∉ rowsRM := by
    revert n
    decide
  have himm : byteAt (op :: rmBytes reg f ++ more) (2 + f.dispLen) = byteAt more 0 := byteAt_rmBytes op reg f more 0
  simp only [fieldsOfBytes, if_neg hRM, if_pos hn, hmod, hreg, hrm, dispOfBytes_rmBytes op reg h more,
    displacementBytes_rmBytes op reg h more, immOfBytes_rmBytes, himm]
  rfl

theorem fieldsOfBytes_ri (bs : List Byte) (hn : n = 7 ∨ n = 8) :
    fieldsOfBytes n (op :: bs) r =
      r.formatRi op (op.extractLsb' 0 3) (immOfBytes (bitOf op 3 = 1#1) bs 0) := by
  obtain rfl | rfl := hn <;> rfl

theorem fieldsOfBytes_ai (bs : List Byte) (hn : n ∉ rowsRM ∧ n ∉ rowsRMI ∧ ¬(n = 7 ∨ n = 8) ∧ n ∈ rowsAIRI) :
    fieldsOfBytes n (op :: bs) r = r.formatAi op (immOfBytes (bitOf op 0 = 1#1) bs 0) := by
  obtain ⟨hRM, hRMI, hRI, hAI⟩ := hn
  simp only [fieldsOfBytes, if_neg hRM, if_neg hRMI, if_neg hRI, if_pos hAI]
  rfl

theorem fieldsOfBytes_am (a16 : Word) (hn : n ∈ rowsAM) :
    fieldsOfBytes n (op :: wordBytes a16 ++ more) r = r.formatAm op a16 := by
  have hother : n ∉ rowsRM ∧ n ∉ rowsRMI ∧ ¬(n = 7 ∨ n = 8) ∧ n ∉ rowsAIRI := by
    revert n
    decide
  obtain ⟨hRM, hRMI, hRI, hAI⟩ := hother
  simp only [fieldsOfBytes, if_neg hRM, if_neg hRMI, if_neg hRI, if_neg hAI, if_pos hn]
  exact congrArg (r.formatAm op) (append_bytes a16)

theorem fieldsOfBytes_j8 (r8 : Byte)
    (hn : n ∉ rowsRM ∧ n ∉ rowsRMI ∧ ¬(n = 7 ∨ n = 8) ∧ n ∉ rowsAIRI ∧ n ∉ rowsAM) :
    fieldsOfBytes n (op :: r8 :: more) r = r.formatJ8 r8 := by
  obtain ⟨hRM, hRMI, hRI, hAI, hAM⟩ := hn
  simp only [fieldsOfBytes, if_neg hRM, if_neg hRMI, if_neg hRI, if_neg hAI, if_neg hAM]
  rfl

end

/-- The immediates of the rows of format RMI, as the encoder writes them. -/
theorem rmiImmediate_byte {op : Byte} (h : op = 0x80#8 ∨ op = 0x82#8 ∨ op = 0xC6#8) (v : Byte) (more : List Byte) :
    rmiImmediate op (v :: more) = .byte v := by
  obtain rfl | rfl | rfl := h <;> rfl

theorem rmiImmediate_word {op : Byte} (h : op = 0x81#8 ∨ op = 0xC7#8) (v : Word) (more : List Byte) :
    rmiImmediate op (wordBytes v ++ more) = .word v := by
  obtain rfl | rfl := h <;> exact immOfBytes_wordBytes v more

/-- The opcode byte of format RI: `w` is bit 3, the register number bits 2..0 (R67). -/
theorem movReg8_fields (r : Reg8) :
    bitOf (0b10110#5 ++ r.index) 3 = 0#1 ∧ (0b10110#5 ++ r.index).extractLsb' 0 3 = r.index := by
  cases r <;> decide

theorem movReg16_fields (r : Reg16) :
    bitOf (0b10111#5 ++ r.index) 3 = 1#1 ∧ (0b10111#5 ++ r.index).extractLsb' 0 3 = r.index := by
  cases r <;> decide

/-! ### The record of an instruction is that of its bytes -/

/-- The record of an instruction before the fields of its format. -/
def recordHead (position : Nat) (i : Instr) : Record :=
  { kind := .inst, start := position, len := i.length, form := i.form, op := some i.opcode }

theorem fieldsOfBytes_encode {i : Instr} {n : Nat} (hw : i.wf = true) (hn : i.form = some n) (position : Nat)
    (more : List Byte) : fieldsOfBytes n (encode i ++ more) (recordHead position i) = recordOf position i := by
  cases i with
  | db reason bs => cases hn
  | movRm8R8 o r | addRm8R8 o r | subRm8R8 o r | cmpRm8R8 o r | movR8Rm8 r o | addR8Rm8 r o | subR8Rm8 r o
  | cmpR8Rm8 r o =>
    cases hn
    exact fieldsOfBytes_rm _ r.index more _ (by decide) ((RM8.field_wf o).trans hw)
  | movRm16R16 o r | addRm16R16 o r | subRm16R16 o r | cmpRm16R16 o r | movR16Rm16 r o | addR16Rm16 r o
  | subR16Rm16 r o | cmpR16Rm16 r o =>
    cases hn
    exact fieldsOfBytes_rm _ r.index more _ (by decide) ((RM16.field_wf o).trans hw)
  | movRm8Imm8 o v | addRm8Imm8 o v | addRm8Imm8Alias o v | subRm8Imm8 o v | subRm8Imm8Alias o v | cmpRm8Imm8 o v
  | cmpRm8Imm8Alias o v =>
    cases hn
    rw [encode, List.append_assoc, fieldsOfBytes_rmi _ _ _ _ (by decide) ((RM8.field_wf o).trans hw),
      List.singleton_append, rmiImmediate_byte (by decide)]
    rfl
  | movRm16Imm16 o v | addRm16Imm16 o v | subRm16Imm16 o v | cmpRm16Imm16 o v =>
    cases hn
    rw [encode, List.append_assoc, fieldsOfBytes_rmi _ _ _ _ (by decide) ((RM16.field_wf o).trans hw),
      rmiImmediate_word (by decide)]
    rfl
  | addRm16SImm8 o v | subRm16SImm8 o v | cmpRm16SImm8 o v =>
    cases hn
    rw [encode, List.append_assoc, fieldsOfBytes_rmi _ _ _ _ (by decide) ((RM16.field_wf o).trans hw)]
    rfl
  | movR8Imm8 r v =>
    cases hn
    refine (fieldsOfBytes_ri _ _ (v :: more) (.inl rfl)).trans ?_
    rw [(movReg8_fields r).1, (movReg8_fields r).2]
    rfl
  | movR16Imm16 r v =>
    cases hn
    refine (fieldsOfBytes_ri _ _ (wordBytes v ++ more) (.inr rfl)).trans ?_
    rw [(movReg16_fields r).1, (movReg16_fields r).2]
    exact congrArg (Record.formatRi _ r.index · _) (immOfBytes_wordBytes v more)
  | movAlMem a16 | movAxMem a16 | movMemAl a16 | movMemAx a16 =>
    cases hn
    exact fieldsOfBytes_am _ more _ a16 (by decide)
  | addAxImm16 v | subAxImm16 v | cmpAxImm16 v =>
    cases hn
    exact (fieldsOfBytes_ai _ _ (wordBytes v ++ more) (by decide)).trans
      (congrArg (Record.formatAi _ · _) (immOfBytes_wordBytes v more))
  | addAlImm8 v | subAlImm8 v | cmpAlImm8 v =>
    cases hn
    exact fieldsOfBytes_ai _ _ (v :: more) (by decide)
  | _ =>
    cases hn
    exact fieldsOfBytes_j8 _ more _ _ (by decide)

theorem decodeRecord_of_decodeAt {buffer : List Byte} {position : Nat} {i : Instr}
    (h : decodeAt buffer position = some i) : decodeRecord buffer position = recordOf position i := by
  rw [decodeRecord, h]

/-- Settles O59: the bytes from the position on begin with the instruction's encoding, so its fields are those of
`fieldsOfBytes_encode`. -/
theorem decodedRecordFields : Obligations.DecodedRecordFields := by
  refine ⟨fun buffer position i n h hn => ?_, fun buffer position reason bs h => ?_, fun buffer position h => ?_,
    decodeRecord_start_add_len⟩
  · have hnot : ∀ reason bs, i ≠ .db reason bs := by
      rintro reason bs rfl
      cases hn
    obtain ⟨more, hbytes⟩ := encode_append_of_decodeBytes h
    have hop : buffer[position]? = some i.opcode := by
      rw [← List.head?_drop, hbytes, encode_eq_opcode_cons hnot]
      rfl
    rw [decodeRecord_of_decodeAt h, ← fieldsOfBytes_encode (wf_of_decodeBytes h) hn position more, hbytes, hop, ← hn]
    rfl
  · obtain rfl : bs = buffer.drop position := (decodeBytes_eq_db h).1
    exact decodeRecord_of_decodeAt h
  · rw [decodeRecord, (Machine.decodeAt_eq_none_iff buffer position).mpr h]

/-! ### The spec's own words and texts, evaluated -/

/-- Settles O3, by decoding the bytes. -/
theorem wordsOfTheSpecDecode : Obligations.WordsOfTheSpecDecode := by
  unfold Obligations.WordsOfTheSpecDecode
  decide

/-- Settles O12, by rendering what the bytes decode to. -/
theorem renderedTextsOfSpec : Obligations.RenderedTextsOfSpec := by
  unfold Obligations.RenderedTextsOfSpec
  decide

end Sys2Proof
end

section
/-! What every step keeps and what a fault leaves (spec/43_control.md R157; spec/60_exceptions.md R190;
spec/20_memory.md R45, R47): the cases of `exec` and of `step`, each property read off them. -/

namespace Sys2Proof.Machine

open Sys2Proof.Spec

/-! ### One instruction -/

theorem exec_answers_next (i : Instr) (s : State) : ∃ t, exec i s = .next t := by
  obtain ⟨code, -, h⟩ | ⟨f, -, -, h⟩ | ⟨t, -, -, h⟩ := exec_cases i s <;> exact ⟨_, h⟩

/-- An instruction charges what it adds to `total_clocks`; a no-op and a fault charge 0 (R207). -/
theorem exec_totalClocks {i : Instr} {s t : State} (h : exec i s = .next t) :
    t.totalClocks = s.totalClocks + t.clocks := by
  obtain ⟨code, -, he⟩ | ⟨f, -, -, he⟩ | ⟨u, -, hr, he⟩ := exec_cases i s <;> cases he.symm.trans h
  · rfl
  · rfl
  · rw [finishStep_totalClocks, (rule_sameRest hr).totalClocks, beginStep_totalClocks, finishStep_clocks]

theorem exec_image_params {i : Instr} {s t : State} (h : exec i s = .next t) :
    t.image = s.image ∧ t.params = s.params := by
  obtain ⟨code, -, he⟩ | ⟨f, -, -, he⟩ | ⟨u, -, hr, he⟩ := exec_cases i s <;> cases he.symm.trans h
  · exact ⟨rfl, rfl⟩
  · exact ⟨rfl, rfl⟩
  · exact ⟨(rule_sameRest hr).image, (rule_sameRest hr).params⟩

/-- A store inside memory and outside the image, or none (R41, R47). -/
theorem exec_storesAtMost {i : Instr} {s t : State} (h : exec i s = .next t) : StoresAtMost s t := by
  obtain ⟨code, -, he⟩ | ⟨f, -, -, he⟩ | ⟨u, -, hr, he⟩ := exec_cases i s <;> cases he.symm.trans h
  · exact .inl rfl
  · exact .inl rfl
  · exact (rule_storesAtMost hr :)

/-- Whatever makes an instruction a no-op is a code of its own, not that of the end of the buffer (R187). -/
theorem diagnosis_ne_empty (i : Instr) (p : Profile) : diagnosis i p ≠ some .empty := by
  unfold diagnosis
  generalize coverage i = c
  cases c with
  | always | unmodelledCondition => exact nofun
  | fullOnly => cases p <;> exact nofun
  | fallback reason => cases reason <;> exact nofun

theorem exec_statusOk {i : Instr} {s t : State} (hs : s.StatusOk) (h : exec i s = .next t) : t.StatusOk := by
  obtain ⟨code, hd, he⟩ | ⟨f, -, -, he⟩ | ⟨u, -, hr, he⟩ := exec_cases i s <;> cases he.symm.trans h
  · exact ⟨hs.fault_iff, ⟨fun _ => Option.some_ne_none code, fun _ => rfl⟩,
      fun hempty => diagnosis_ne_empty i _ (hd.trans hempty)⟩
  · exact ⟨⟨fun _ => Option.some_ne_none f, fun _ => rfl⟩, hs.diag_iff, hs.not_empty⟩
  · have hrest := rule_sameRest hr
    refine ⟨?_, ?_, ?_⟩
    · rw [finishStep_runState, finishStep_faultCode, hrest.runState, hrest.faultCode]
      exact hs.fault_iff
    · rw [finishStep_diagSeen, finishStep_lastDiag, hrest.diagSeen, hrest.lastDiag]
      exact hs.diag_iff
    · rw [finishStep_lastDiag, hrest.lastDiag]
      exact hs.not_empty

theorem exec_inv {i : Instr} {s t : State} (hs : s.Inv) (h : exec i s = .next t) : t.Inv := by
  have himage := (exec_image_params h).1
  have hlen : t.codeLen = s.codeLen := congrArg List.length himage
  have hstore := exec_storesAtMost h
  refine ⟨hstore.wf hs.mem_wf, hlen ▸ hs.image_fits, fun a ha => ?_, exec_statusOk hs.status h⟩
  rw [hlen] at ha
  rw [himage, hstore.image ha]
  exact hs.image_in_mem a ha

/-! ### One step -/

/-- A running machine inside its image runs some instruction. -/
theorem exists_step_eq_exec {s : State} (hrun : s.runState = .running) (hip : s.ip.toNat < s.codeLen) :
    ∃ i, step s = exec i s := by
  obtain ⟨hstopped, -⟩ | ⟨-, houtside, -⟩ | ⟨i, -, -, -, h⟩ := step_cases s
  · exact absurd hrun hstopped
  · exact absurd hip (Nat.not_lt.mpr houtside)
  · exact ⟨i, h⟩

theorem step_inv {s t : State} (hs : s.Inv) (h : step s = .next t) : t.Inv := by
  obtain ⟨-, he⟩ | ⟨hrun, -, he⟩ | ⟨i, -, -, -, he⟩ := step_cases s
  · cases he.symm.trans h
    exact hs
  · cases he.symm.trans h
    obtain ⟨hfault, hdiag, hempty⟩ := hs.status
    have hnone : s.faultCode = none := by
      by_contra hcode
      cases hrun.symm.trans (hfault.mpr hcode)
    exact ⟨hs.mem_wf, hs.image_fits, hs.image_in_mem, ⟨nofun, fun hcode => absurd hnone hcode⟩, hdiag, hempty⟩
  · exact exec_inv hs (he.symm.trans h)

/-- Settles O17, by the cases of a step. -/
theorem invariantKeptByEveryStep : Obligations.InvariantKeptByEveryStep := fun _ _ => step_inv

/-- Settles O18: nothing is loaded and no fault or diagnostic recorded. -/
theorem invariantAtReset : Obligations.InvariantAtReset :=
  ⟨rfl, Nat.zero_le _, nofun, ⟨nofun, fun h => absurd rfl h⟩, ⟨nofun, fun h => absurd rfl h⟩, nofun⟩

/-! ### A run -/

theorem loadedState_inv (p : Params) {bs : List Byte} (h : bs.length ≤ 65536) : (loadedState p bs).Inv :=
  ⟨writeBytes_wf rfl bs (by simpa [memSize] using h), h, fun _ => read_loadedState_of_lt h,
    ⟨nofun, fun h => absurd rfl h⟩, ⟨nofun, fun h => absurd rfl h⟩, nofun⟩

theorem runSteps_inv {s : State} (hs : s.Inv) (n : Nat) : (runSteps n s).Inv := by
  induction n generalizing s with
  | zero => exact hs
  | succ n ih =>
    unfold runSteps
    split
    next t _ ht => exact ih (step_inv hs ht)
    next => exact hs

/-- Settles O20: a load leaves the invariant and every step of the run keeps it. -/
theorem everyRunAfterALoadKeepsTheInvariant : Obligations.EveryRunAfterALoadKeepsTheInvariant := by
  intro s bs t n h
  by_cases hfits : bs.length ≤ 65536
  · cases (load_of_fits s hfits).symm.trans h
    exact runSteps_inv (loadedState_inv _ hfits) n
  · cases (load_of_oversize s (Nat.not_le.mp hfits)).symm.trans h

/-! ### The statements about one step -/

/-- Settles O13, by `step_eq_exec`. -/
theorem stepRunsTheDecodedInstruction : Obligations.StepRunsTheDecodedInstruction := fun _ _ => step_eq_exec

/-- Settles O14: the bytes of the image from `ip` on are the encoding and what follows it. -/
theorem stepRunsTheEncodedInstruction : Obligations.StepRunsTheEncodedInstruction := by
  intro s i pre post hrun hw hn himage hip
  have hbytes : s.image.drop s.ip.toNat = encode i ++ post := by
    rw [himage, ← hip, List.append_assoc, List.drop_left]
  have hinside : s.ip.toNat < s.codeLen := by
    have hlen := two_le_length hn
    rw [State.codeLen, himage, List.length_append, List.length_append, encode_length]
    omega
  exact step_eq_exec hrun hinside (by rw [hbytes, decodeBytes_encode_append hw hn])

/-- Settles O15, by the first two cases of a step. -/
theorem haltedAndFaultedAreFinal : Obligations.HaltedAndFaultedAreFinal := fun _ =>
  ⟨step_eq_of_stopped, step_eq_halted⟩

/-- Settles O16, by the cases of a step. -/
theorem everyStepAnswersNext : Obligations.EveryStepAnswersNext := by
  intro s
  obtain ⟨-, h⟩ | ⟨-, -, h⟩ | ⟨i, -, -, -, h⟩ := step_cases s
  · exact ⟨_, h⟩
  · exact ⟨_, h⟩
  · rw [h]
    exact exec_answers_next i s

/-- Settles O21: a step that stores stores outside the image (`StoresAtMost.image`). -/
theorem imageAndParametersNeverChange : Obligations.ImageAndParametersNeverChange := by
  intro s t h
  obtain ⟨-, he⟩ | ⟨-, -, he⟩ | ⟨i, -, -, -, he⟩ := step_cases s
  · cases he.symm.trans h
    exact ⟨rfl, rfl, fun _ _ => rfl⟩
  · cases he.symm.trans h
    exact ⟨rfl, rfl, fun _ _ => rfl⟩
  · have hexec := he.symm.trans h
    obtain ⟨himage, hparams⟩ := exec_image_params hexec
    exact ⟨himage, hparams, fun _ => (exec_storesAtMost hexec).image⟩

/-- Settles O23, by `exec_totalClocks`. -/
theorem totalClocksAccumulate : Obligations.TotalClocksAccumulate := by
  intro s t hrun hip h
  obtain ⟨i, hi⟩ := exists_step_eq_exec hrun hip
  exact exec_totalClocks (hi.symm.trans h)

/-- An instruction faults only by taking a fault: neither a no-op nor a rule sets `run_state`. -/
theorem exec_faulted {i : Instr} {s t : State} (hrun : s.runState = .running) (h : exec i s = .next t)
    (hfault : t.runState = .faulted) : ∃ f, t = faulted f s := by
  obtain ⟨code, -, he⟩ | ⟨f, -, -, he⟩ | ⟨u, -, hr, he⟩ := exec_cases i s <;> cases he.symm.trans h
  · cases hrun.symm.trans hfault
  · exact ⟨f, rfl⟩
  · cases ((rule_sameRest hr).runState.trans hrun).symm.trans hfault

/-- Settles O25: of the cases of a step only an instruction reaches FAULTED, which is final. -/
theorem faultIsPreciseAndFatal : Obligations.FaultIsPreciseAndFatal := by
  intro s t hrun h hfault
  refine ⟨?_, step_eq_of_stopped (by rw [hfault]; exact nofun)⟩
  obtain ⟨hstopped, -⟩ | ⟨-, -, he⟩ | ⟨i, -, -, -, he⟩ := step_cases s
  · exact absurd hrun hstopped
  · cases he.symm.trans h
    cases hfault
  · exact exec_faulted hrun (he.symm.trans h) hfault

/-! ### Fallbacks and unmodelled conditions (spec/43_control.md R159, R163) -/

theorem fallbackDiag_eq_reasonCode (reason : FallbackReason) : fallbackDiag reason = reasonCode reason := by
  cases reason <;> rfl

theorem exec_db (reason : FallbackReason) (bs : List Byte) (s : State) :
    exec (.db reason bs) s = .next (noOp (reasonCode reason) bs.length s) := by
  rw [← fallbackDiag_eq_reasonCode]
  exact diagnosticNoOp _ s _ rfl

/-- Past the bytes from `ip` to the end `ip` is the end, modulo 2^16. -/
theorem ip_add_rest {ip : Word} {n : Nat} (h : ip.toNat ≤ n) :
    ip + BitVec.ofNat 16 (n - ip.toNat) = BitVec.ofNat 16 n := by
  have hsum : BitVec.ofNat 16 (ip.toNat + (n - ip.toNat)) = ip + BitVec.ofNat 16 (n - ip.toNat) := by
    rw [BitVec.ofNat_add, BitVec.ofNat_toNat, BitVec.setWidth_eq]
  rw [← hsum, Nat.add_sub_cancel' h]

/-- Settles O29: the fallback holds the rest of the image, and a `CODE_LEN` below 2^16 is where `ip` then stands. -/
theorem fallbackRunsToTheEnd : Obligations.FallbackRunsToTheEnd := by
  intro s reason bs hrun hip h
  obtain rfl : bs = s.image.drop s.ip.toNat := (decodeBytes_eq_db h).1
  refine ⟨_, (step_eq_exec hrun hip h).trans (exec_db reason _ s), ?_, fun hlt => step_eq_halted hrun ?_⟩
  · rw [noOp, List.length_drop, ip_add_rest hip.le]
  · have hend : (noOp (reasonCode reason) (s.image.drop s.ip.toNat).length s).ip = BitVec.ofNat 16 s.codeLen := by
      rw [noOp, List.length_drop, ip_add_rest hip.le]
    rw [hend, BitVec.toNat_ofNat, Nat.mod_eq_of_lt hlt]
    rfl

/-- Settles O55: each has a diagnostic code under every profile. -/
theorem unmodelledConditionsAndFallbacks : Obligations.UnmodelledConditionsAndFallbacks := by
  refine ⟨fun i r8 s h => ?_, fun bs s => ⟨exec_db _ bs s, exec_db _ bs s, exec_db _ bs s⟩⟩
  obtain rfl | rfl | rfl | rfl | rfl | rfl | rfl | rfl | rfl | rfl | rfl | rfl := h <;>
    exact diagnosticNoOp _ s _ rfl

/-! ### Reset and the spec's first program -/

theorem packedFlags_eq (s : State) :
    packedFlags s = (if s.zf then 64#16 else 0#16) + (if s.sf then 128#16 else 0#16) := by
  rw [packedFlags]
  cases s.zf <;> cases s.sf <;> rfl

/-- Settles O57: the fields as written, and the packed word flag by flag. -/
theorem resetState : Obligations.ResetState :=
  ⟨fun r => by cases r <;> rfl, rfl, rfl, rfl, rfl, rfl, rfl, rfl, rfl, rfl, fun _ => rfl, packedFlags_eq⟩

/-- Settles O58, by running the model. -/
theorem traceOfTheSpecProgram : Obligations.TraceOfTheSpecProgram := by
  unfold Obligations.TraceOfTheSpecProgram
  decide

end Sys2Proof.Machine
end

section
/-! Effective addresses (spec/20_memory.md R48 to R53): the 32-bit value of the exact sum, and the range check on it. -/

namespace Sys2Proof.Machine

open Sys2Proof.Spec

/-! ### The exact sum and its 32-bit value (R49 to R52) -/

theorem baseSum_bounds (b : Base) (r : Regs) : 0 ≤ baseSum b r ∧ baseSum b r ≤ 131070 := by
  have hbx := r.bx.isLt
  have hbp := r.bp.isLt
  have hsi := r.si.isLt
  have hdi := r.di.isLt
  cases b <;> simp only [baseSum] <;> omega

theorem exactEa_bounds (m : MemOp) (r : Regs) : -32768 ≤ exactEa m r ∧ exactEa m r ≤ 163837 := by
  cases m with
  | noDisp b =>
    have hb := baseSum_bounds b r
    simp only [exactEa, MemOp.disp]
    omega
  | direct a16 =>
    have ha := a16.isLt
    simp only [exactEa, MemOp.disp]
    omega
  | disp8 b d =>
    have hb := baseSum_bounds b r
    have hlo := BitVec.le_toInt d
    have hhi := BitVec.toInt_lt (x := d)
    simp only [exactEa, MemOp.disp]
    omega
  | disp16 b d =>
    have hb := baseSum_bounds b r
    have hlo := BitVec.le_toInt d
    have hhi := BitVec.toInt_lt (x := d)
    simp only [exactEa, MemOp.disp]
    omega

/-- The address as a number: the exact sum modulo 2^32. -/
theorem eaNat_eq_emod (m : MemOp) (s : State) : (eaNat m s : Int) = exactEa m s.regs % 4294967296 := by
  have hnonneg := Int.emod_nonneg (exactEa m s.regs) (show (4294967296 : Int) ≠ 0 by decide)
  rw [eaNat, effectiveAddress, BitVec.toNat_ofInt]
  exact Int.toNat_of_nonneg hnonneg

theorem eaNat_of_nonneg {m : MemOp} {s : State} (h : 0 ≤ exactEa m s.regs) : (eaNat m s : Int) = exactEa m s.regs := by
  obtain ⟨-, hhi⟩ := exactEa_bounds m s.regs
  rw [eaNat_eq_emod]
  exact Int.emod_eq_of_lt h (by omega)

/-- A negative sum becomes one of the highest 32-bit values. -/
theorem le_eaNat_of_neg {m : MemOp} {s : State} (h : exactEa m s.regs < 0) : 0xFFFF8000 ≤ eaNat m s := by
  obtain ⟨hlo, -⟩ := exactEa_bounds m s.regs
  have heq := eaNat_eq_emod m s
  omega

/-- Settles O38: where the sum is negative its 32-bit value is far past the end of memory, elsewhere it is the sum. -/
theorem addressInRangeByExactSum : Obligations.AddressInRangeByExactSum := by
  intro m s n hn
  rcases lt_or_ge (exactEa m s.regs) 0 with hneg | hnonneg
  · have := le_eaNat_of_neg hneg
    omega
  · have := eaNat_of_nonneg hnonneg
    omega

/-! ### The sum of 32-bit parts -/

theorem ofInt_toNat (v : Word) : BitVec.ofInt 32 (v.toNat : Int) = v.zeroExtend 32 := by
  rw [BitVec.ofInt_natCast, BitVec.ofNat_toNat]

theorem ofInt_baseSum (s : State) (rm : BitVec 3) :
    BitVec.ofInt 32 (baseSum (Base.ofIndex rm) s.regs) = baseOf s rm := by
  have hsum : ∀ v w : Word, BitVec.ofInt 32 (v.toNat + w.toNat) = v.zeroExtend 32 + w.zeroExtend 32 := fun v w => by
    rw [BitVec.ofInt_add, ofInt_toNat, ofInt_toNat]
  have hcases : ∀ x : BitVec 3, x = 0 ∨ x = 1 ∨ x = 2 ∨ x = 3 ∨ x = 4 ∨ x = 5 ∨ x = 6 ∨ x = 7 := by decide
  obtain rfl | rfl | rfl | rfl | rfl | rfl | rfl | rfl := hcases rm
  · exact hsum s.regs.bx s.regs.si
  · exact hsum s.regs.bx s.regs.di
  · exact hsum s.regs.bp s.regs.si
  · exact hsum s.regs.bp s.regs.di
  · exact ofInt_toNat s.regs.si
  · exact ofInt_toNat s.regs.di
  · exact ofInt_toNat s.regs.bp
  · exact ofInt_toNat s.regs.bx

theorem effectiveAddress_noDisp (s : State) (rm : BitVec 3) :
    effectiveAddress (.noDisp (Base.ofIndex rm)) s = baseOf s rm := by
  rw [effectiveAddress, exactEa, MemOp.disp, Int.add_zero, ofInt_baseSum]

theorem effectiveAddress_disp8 (s : State) (rm : BitVec 3) (d : Byte) :
    effectiveAddress (.disp8 (Base.ofIndex rm) d) s = baseOf s rm + d.signExtend 32 := by
  rw [effectiveAddress, exactEa, MemOp.disp, BitVec.ofInt_add, ofInt_baseSum]
  rfl

theorem effectiveAddress_disp16 (s : State) (rm : BitVec 3) (d : Word) :
    effectiveAddress (.disp16 (Base.ofIndex rm) d) s = baseOf s rm + d.signExtend 32 := by
  rw [effectiveAddress, exactEa, MemOp.disp, BitVec.ofInt_add, ofInt_baseSum]
  rfl

/-! ### The two operands of `mod` 00 (R50, R51) -/

theorem decodeBytes_noDisp {reg rm : BitVec 3} (h : rm ≠ 0b110#3) (rest : List Byte) :
    decodeBytes (0x8B#8 :: (0b00#2 ++ reg ++ rm) :: rest) =
      some (.movR16Rm16 (Reg16.ofIndex reg) (.mem (.noDisp (Base.ofIndex rm)))) := by
  have hwf : (Instr.movR16Rm16 (Reg16.ofIndex reg) (.mem (.noDisp (Base.ofIndex rm)))).wf = true := by
    simpa [Instr.wf, RM16.wf, MemOp.wf, Base.ofIndex_eq_bp] using h
  have hdec := decodeBytes_encode_append hwf (fun _ _ => nofun) rest
  rwa [encode, RM16.field, rmBytes, Reg16.index_ofIndex, Base.index_ofIndex] at hdec

theorem decodeBytes_direct (reg : BitVec 3) (lo hi : Byte) (rest : List Byte) :
    decodeBytes (0x8B#8 :: (0b00#2 ++ reg ++ 0b110#3) :: lo :: hi :: rest) =
      some (.movR16Rm16 (Reg16.ofIndex reg) (.mem (.direct (hi ++ lo)))) := by
  have hdec := decodeBytes_encode_append (i := .movR16Rm16 (Reg16.ofIndex reg) (.mem (.direct (combine hi lo)))) rfl
    (fun _ _ => nofun) rest
  rwa [encode, RM16.field, rmBytes, Reg16.index_ofIndex, wordBytes, lowByte_combine, highByte_combine] at hdec

/-- Settles O37: the sum's parts taken to 32 bits one by one, the bounds of the exact sum, and the two operands decoded
from their encodings. -/
theorem effectiveAddressSum : Obligations.EffectiveAddressSum :=
  ⟨fun s rm d8 d16 => ⟨effectiveAddress_noDisp s rm, effectiveAddress_disp8 s rm d8, effectiveAddress_disp16 s rm d16⟩,
    by decide, fun _ _ rest h => decodeBytes_noDisp h rest, decodeBytes_direct, fun _ a16 => ofInt_toNat a16,
    exactEa_bounds, fun _ _ => ⟨eaNat_of_nonneg, le_eaNat_of_neg⟩⟩

end Sys2Proof.Machine
end

section
/-! The canonical form of memory is unique (the model's assumption 6). -/

namespace Sys2Proof.Machine

section
variable {lo k : Nat} {b : Byte} {m : Memory} (h : Memory.wfFrom lo ((k, b) :: m) = true)
include h

theorem read_head_ne_zero : Memory.read ((k, b) :: m) k ≠ 0#8 := by
  obtain ⟨-, -, hb, -⟩ := wfFrom_read_head h
  rwa [read_cons, if_pos rfl]

/-- The first offset listed is the first that does not read 0. -/
theorem head_le_of_read_ne_zero {a : Nat} (ha : Memory.read ((k, b) :: m) a ≠ 0#8) : k ≤ a := by
  obtain ⟨-, -, -, htail⟩ := wfFrom_read_head h
  by_contra hlt
  rw [read_cons, if_neg (by omega), read_below htail (by omega)] at ha
  exact ha rfl

end

/-- Two canonical memories that read alike start at the same offset with the same byte, and so on. -/
theorem wfFrom_ext {lo lo' : Nat} {m m' : Memory} (hm : Memory.wfFrom lo m = true) (hm' : Memory.wfFrom lo' m' = true)
    (h : ∀ a, m.read a = m'.read a) : m = m' := by
  induction m generalizing lo lo' m' with
  | nil =>
    cases m' with
    | nil => rfl
    | cons c m' => exact absurd (h c.1).symm (read_head_ne_zero hm')
  | cons c m ih =>
    obtain ⟨k, b⟩ := c
    cases m' with
    | nil => exact absurd (h k) (read_head_ne_zero hm)
    | cons c' m' =>
      obtain ⟨k', b'⟩ := c'
      have hle : k ≤ k' := head_le_of_read_ne_zero hm (by rw [h]; exact read_head_ne_zero hm')
      have hge : k' ≤ k := head_le_of_read_ne_zero hm' (by rw [← h]; exact read_head_ne_zero hm)
      obtain rfl := Nat.le_antisymm hle hge
      have hb : b = b' := by simpa [read_cons] using h k
      obtain ⟨-, -, -, htail⟩ := wfFrom_read_head hm
      obtain ⟨-, -, -, htail'⟩ := wfFrom_read_head hm'
      have hrest : ∀ a, Memory.read m a = Memory.read m' a := fun a => by
        by_cases ha : k = a
        · subst ha
          rw [read_below htail (Nat.lt_succ_self k), read_below htail' (Nat.lt_succ_self k)]
        · simpa [read_cons, ha] using h a
      rw [hb, ih htail htail' hrest]

/-- Settles O40, by induction on the entries. -/
theorem equalMemoriesAreEqualData : Obligations.EqualMemoriesAreEqualData := fun _ _ => wfFrom_ext

end Sys2Proof.Machine
end

section
/-! What an instruction writes and when it faults (spec/41_mov.md R104, R105; spec/42_arith.md R123;
spec/60_exceptions.md R189 to R191): at most its destination or the bytes of its write access, and a fault exactly as
the check of its access says. -/

namespace Sys2Proof.Machine

open Sys2Proof.Spec

/-! ### The one thing a rule writes -/

/-- From `s` to `t` the registers and memory change at most as `i` may: nothing, its destination register, or the
bytes of its write access. -/
inductive WrittenAtMost (i : Instr) (s t : State) : Prop
  | nothing (hregs : t.regs = s.regs) (hmem : t.mem = s.mem)
  | reg8 {r : Reg8} {v : Byte} (hdest : destination8 i = some r) (hregs : t.regs = s.regs.set8 r v)
    (hmem : t.mem = s.mem)
  | reg16 {r : Reg16} {v : Word} (hdest : destination16 i = some r) (hregs : t.regs = s.regs.set16 r v)
    (hmem : t.mem = s.mem)
  | mem8 {a : Nat} {v : Byte} (hacc : access i s = some (a, 1, true)) (hregs : t.regs = s.regs)
    (hmem : t.mem = s.mem.write a v)
  | mem16 {a : Nat} {v : Word} (hacc : access i s = some (a, 2, true)) (hregs : t.regs = s.regs)
    (hmem : t.mem = (s.mem.write a (lowByte v)).write (a + 1) (highByte v))

section
variable {i : Instr} {s t u : State}

/-- Only registers and memory matter, and at the start only what `beginStep` leaves alone. -/
theorem WrittenAtMost.congr {n : Nat} (h : WrittenAtMost i (beginStep n s) u) (hregs : t.regs = u.regs)
    (hmem : t.mem = u.mem) : WrittenAtMost i s t := by
  cases h with
  | nothing hr hm => exact .nothing (hregs.trans hr) (hmem.trans hm)
  | reg8 hd hr hm => exact .reg8 hd (hregs.trans hr) (hmem.trans hm)
  | reg16 hd hr hm => exact .reg16 hd (hregs.trans hr) (hmem.trans hm)
  | mem8 ha hr hm => exact .mem8 ha (hregs.trans hr) (hmem.trans hm)
  | mem16 ha hr hm => exact .mem16 ha (hregs.trans hr) (hmem.trans hm)

theorem writtenAtMost_of_writeRm8 {o : RM8} {v : Byte} (h : writeRm8 o v s = .ok u)
    (hdest : destination8 i = regOf8 o) (hacc : access i s = access8 o true s) (hregs : t.regs = u.regs)
    (hmem : t.mem = u.mem) : WrittenAtMost i s t := by
  obtain ⟨r, rfl, rfl⟩ | ⟨m, rfl, -, -, rfl⟩ := writeRm8_eq_ok h
  · exact .reg8 hdest hregs hmem
  · exact .mem8 hacc hregs hmem

theorem writtenAtMost_of_writeRm16 {o : RM16} {v : Word} (h : writeRm16 o v s = .ok u)
    (hdest : destination16 i = regOf16 o) (hacc : access i s = access16 o true s) (hregs : t.regs = u.regs)
    (hmem : t.mem = u.mem) : WrittenAtMost i s t := by
  obtain ⟨r, rfl, rfl⟩ | ⟨m, rfl, -, -, rfl⟩ := writeRm16_eq_ok h
  · exact .reg16 hdest hregs hmem
  · exact .mem16 hacc hregs hmem

theorem jumpIf_regs (c : Bool) (x y : Nat) (r8 : Byte) : (jumpIf c x y r8 s).regs = s.regs := by cases c <;> rfl

theorem jumpIf_mem (c : Bool) (x y : Nat) (r8 : Byte) : (jumpIf c x y r8 s).mem = s.mem := by cases c <;> rfl

theorem rule_writtenAtMost (h : ruleOf i s = .ok t) : WrittenAtMost i s t := by
  cases i with
  | movRm8R8 _ _ | movRm8Imm8 _ _ =>
    obtain ⟨u, hu, rfl⟩ := map_ok_inv h
    exact writtenAtMost_of_writeRm8 hu rfl rfl rfl rfl
  | movRm16R16 _ _ | movRm16Imm16 _ _ =>
    obtain ⟨u, hu, rfl⟩ := map_ok_inv h
    exact writtenAtMost_of_writeRm16 hu rfl rfl rfl rfl
  | movMemAl _ =>
    obtain ⟨u, hu, rfl⟩ := map_ok_inv h
    obtain ⟨-, -, rfl⟩ := memWrite8_eq_ok hu
    exact .mem8 rfl rfl rfl
  | movMemAx _ =>
    obtain ⟨u, hu, rfl⟩ := map_ok_inv h
    obtain ⟨-, -, rfl⟩ := memWrite16_eq_ok hu
    exact .mem16 rfl rfl rfl
  | movR8Rm8 _ _ | movAlMem _ | addR8Rm8 _ _ | subR8Rm8 _ _ =>
    obtain ⟨v, -, rfl⟩ := map_ok_inv h
    exact .reg8 rfl rfl rfl
  | movR16Rm16 _ _ | movAxMem _ | addR16Rm16 _ _ | subR16Rm16 _ _ =>
    obtain ⟨v, -, rfl⟩ := map_ok_inv h
    exact .reg16 rfl rfl rfl
  | cmpR8Rm8 _ _ | cmpR16Rm16 _ _ =>
    obtain ⟨v, -, rfl⟩ := map_ok_inv h
    exact .nothing rfl rfl
  | addRm8R8 _ _ | subRm8R8 _ _ | addRm8Imm8 _ _ | subRm8Imm8 _ _ | addRm8Imm8Alias _ _ | subRm8Imm8Alias _ _ =>
    obtain ⟨a, -, h⟩ := bind_ok_inv h
    obtain ⟨u, hu, rfl⟩ := map_ok_inv h
    exact writtenAtMost_of_writeRm8 hu rfl rfl rfl rfl
  | addRm16R16 _ _ | subRm16R16 _ _ | addRm16Imm16 _ _ | subRm16Imm16 _ _ | addRm16SImm8 _ _ | subRm16SImm8 _ _ =>
    obtain ⟨a, -, h⟩ := bind_ok_inv h
    obtain ⟨u, hu, rfl⟩ := map_ok_inv h
    exact writtenAtMost_of_writeRm16 hu rfl rfl rfl rfl
  | cmpRm8R8 _ _ | cmpRm8Imm8 _ _ | cmpRm8Imm8Alias _ _ | cmpRm16R16 _ _ | cmpRm16Imm16 _ _ | cmpRm16SImm8 _ _ =>
    obtain ⟨a, -, h⟩ := bind_ok_inv h
    cases h
    exact .nothing rfl rfl
  | movR8Imm8 _ _ | addAlImm8 _ | subAlImm8 _ => cases h; exact .reg8 rfl rfl rfl
  | movR16Imm16 _ _ | addAxImm16 _ | subAxImm16 _ => cases h; exact .reg16 rfl rfl rfl
  | jz _ | jnz _ | js _ | jns _ | jcxz _ => cases h; exact .nothing (jumpIf_regs _ _ _ _) (jumpIf_mem _ _ _ _)
  | loopnz _ | loopz _ | loop _ =>
    cases h
    exact .reg16 (r := .cx) (v := s.regs.cx - 1#16) rfl (jumpIf_regs _ _ _ _) (jumpIf_mem _ _ _ _)
  | _ => cases h; exact .nothing rfl rfl

theorem exec_writtenAtMost (h : exec i s = .next t) : WrittenAtMost i s t := by
  obtain ⟨code, -, he⟩ | ⟨f, -, -, he⟩ | ⟨u, -, hr, he⟩ := exec_cases i s <;> cases he.symm.trans h
  · exact .nothing rfl rfl
  · exact .nothing rfl rfl
  · exact (rule_writtenAtMost hr).congr rfl rfl

end

/-- No instruction has both a byte and a word destination. -/
theorem destination16_of_destination8 {i : Instr} {b : Reg8} (h : destination8 i = some b) :
    destination16 i = none := by
  cases i with
  | movRm8R8 _ _ | movRm8Imm8 _ _ | addRm8R8 _ _ | addRm8Imm8 _ _ | addRm8Imm8Alias _ _ | subRm8R8 _ _
  | subRm8Imm8 _ _ | subRm8Imm8Alias _ _ | movR8Rm8 _ _ | addR8Rm8 _ _ | subR8Rm8 _ _ | movR8Imm8 _ _ | movAlMem _
  | addAlImm8 _ | subAlImm8 _ => rfl
  | _ => cases h

/-- Settles O33: another register or view than the one written reads as before. -/
theorem registersOtherThanTheDestinationKept : Obligations.RegistersOtherThanTheDestinationKept := by
  intro i s t h
  cases exec_writtenAtMost h with
  | nothing hregs _ | mem8 _ hregs _ | mem16 _ hregs _ =>
    rw [hregs]
    exact ⟨fun _ _ _ => rfl, fun _ _ _ _ => rfl⟩
  | @reg8 b v hdest hregs _ =>
    rw [hregs]
    refine ⟨fun r _ h8 => get16_set8_other _ v (h8 b hdest), fun b' q hb' hq => ?_⟩
    obtain rfl : b = b' := Option.some.inj (hdest.symm.trans hb')
    exact get8_set8_other _ v hq
  | @reg16 r v hdest hregs _ =>
    rw [hregs]
    refine ⟨fun q h16 _ => get16_set16_other _ v ?_, fun b q hb _ => ?_⟩
    · rintro rfl
      exact h16 hdest
    · cases (destination16_of_destination8 hb).symm.trans hdest

/-- Settles O34: another byte than those of the write access reads as before. -/
theorem memoryOutsideTheStoreKept : Obligations.MemoryOutsideTheStoreKept := by
  intro i s t h
  refine ⟨fun x hx => ?_, exec_image_params h⟩
  cases exec_writtenAtMost h with
  | nothing _ hmem | reg8 _ _ hmem | reg16 _ _ hmem => rw [hmem]
  | @mem8 a v hacc _ hmem =>
    have := hx a 1 hacc
    rw [hmem]
    exact read_write_other _ _ _ (by omega)
  | @mem16 a v hacc _ hmem =>
    have := hx a 2 hacc
    rw [hmem]
    exact read_write16_other _ _ _ (by omega) (by omega)

/-! ### Flags -/

theorem jumpIf_flags (c : Bool) (x y : Nat) (r8 : Byte) (s : State) :
    (jumpIf c x y r8 s).zf = s.zf ∧ (jumpIf c x y r8 s).sf = s.sf := by
  cases c <;> exact ⟨rfl, rfl⟩

/-- The rule of a jump or a fallback leaves the flags. -/
theorem rule_flags {i : Instr} {s t : State} (hm : ¬isMove i) (ha : ¬isArithmetic i) (h : ruleOf i s = .ok t) :
    t.zf = s.zf ∧ t.sf = s.sf := by
  cases i with
  | movRm8R8 _ _ | movRm16R16 _ _ | movR8Rm8 _ _ | movR16Rm16 _ _ | movRm8Imm8 _ _ | movRm16Imm16 _ _
  | movR8Imm8 _ _ | movR16Imm16 _ _ | movAlMem _ | movAxMem _ | movMemAl _ | movMemAx _ =>
    exact absurd ⟨_, rfl, by decide, by decide⟩ hm
  | jz _ | jnz _ | js _ | jns _ | jcxz _ => cases h; exact jumpIf_flags _ _ _ _ s
  | loopnz _ | loopz _ | loop _ => cases h; exact jumpIf_flags _ _ _ _ (decrementCx s)
  | jo _ | jno _ | jb _ | jnb _ | jbe _ | ja _ | jp _ | jnp _ | jl _ | jnl _ | jle _ | jg _ | db _ _ =>
    cases h
    exact ⟨rfl, rfl⟩
  | _ => exact absurd ⟨_, rfl, by decide, by decide⟩ ha

/-- Settles O31: MOV by O32's proof, the jumps and the fallback by their rules. -/
theorem flagsWrittenOnlyByArithmetic : Obligations.FlagsWrittenOnlyByArithmetic := by
  intro i s t h ha
  by_cases hm : isMove i
  · obtain ⟨hz, hs, -⟩ := movNeitherReadsNorWritesFlags i s t hm h
    exact ⟨hz, hs⟩
  · obtain ⟨code, -, he⟩ | ⟨f, -, -, he⟩ | ⟨u, -, hr, he⟩ := exec_cases i s <;> cases he.symm.trans h
    · exact ⟨rfl, rfl⟩
    · exact ⟨rfl, rfl⟩
    · exact (rule_flags hm ha hr :)

/-! ### Faults (spec/60_exceptions.md R189) -/

/-- A computation's fault, if any. -/
def outcome {α : Type} (x : Except Fault α) : Except Fault Unit := x.map fun _ => ()

/-- The check of an access `(address, bytes, writes)`: the range first, then for a write the image (R41, R47, R53). -/
def accessCheck (s : State) : Option (Nat × Nat × Bool) → Except Fault Unit
  | none => .ok ()
  | some (a, n, w) =>
    if 65536 < a + n then .error .eaRange else if w = true ∧ a < s.codeLen then .error .smc else .ok ()

theorem accessCheck_none (s : State) : accessCheck s none = .ok () := rfl

theorem accessCheck_read (s : State) (a n : Nat) :
    accessCheck s (some (a, n, false)) = if a + n ≤ 65536 then .ok () else .error .eaRange := by
  by_cases h : a + n ≤ 65536
  · simp [accessCheck, h, Nat.not_lt.mpr h]
  · simp [accessCheck, h, Nat.not_le.mp h]

theorem accessCheck_write (s : State) (a n : Nat) :
    accessCheck s (some (a, n, true)) =
      if 65536 < a + n then .error .eaRange else if a < s.codeLen then .error .smc else .ok () := by
  simp [accessCheck]

section
variable {α β : Type} (s : State)

theorem outcome_bind_pure (x : Except Fault α) (f : α → β) : outcome (x >>= fun a => pure (f a)) = outcome x := by
  cases x <;> rfl

theorem outcome_memRead8 (a : Nat) : outcome (memRead8 a s) = accessCheck s (some (a, 1, false)) := by
  rw [memRead8_eq, accessCheck_read]
  split <;> rfl

theorem outcome_memRead16 (a : Nat) : outcome (memRead16 a s) = accessCheck s (some (a, 2, false)) := by
  rw [memRead16_eq, accessCheck_read]
  split <;> rfl

theorem outcome_memWrite8 (a : Nat) (v : Byte) : outcome (memWrite8 a v s) = accessCheck s (some (a, 1, true)) := by
  rw [memWrite8_eq, accessCheck_write]
  split <;> [skip; split] <;> rfl

theorem outcome_memWrite16 (a : Nat) (v : Word) : outcome (memWrite16 a v s) = accessCheck s (some (a, 2, true)) := by
  rw [memWrite16_eq, accessCheck_write]
  split <;> [skip; split] <;> rfl

theorem outcome_readRm8 (o : RM8) : outcome (readRm8 o s) = accessCheck s (access8 o false s) := by
  cases o with
  | reg r => rfl
  | mem m => exact outcome_memRead8 s _

theorem outcome_readRm16 (o : RM16) : outcome (readRm16 o s) = accessCheck s (access16 o false s) := by
  cases o with
  | reg r => rfl
  | mem m => exact outcome_memRead16 s _

theorem outcome_writeRm8 (o : RM8) (v : Byte) : outcome (writeRm8 o v s) = accessCheck s (access8 o true s) := by
  cases o with
  | reg r => rfl
  | mem m => exact outcome_memWrite8 s _ v

theorem outcome_writeRm16 (o : RM16) (v : Word) : outcome (writeRm16 o v s) = accessCheck s (access16 o true s) := by
  cases o with
  | reg r => rfl
  | mem m => exact outcome_memWrite16 s _ v

/-- Reading what is then written adds no fault of its own: the range is checked for both. -/
theorem outcome_read_then_write {v : Except Fault α} {w : α → Except Fault β} {a n : Nat}
    (hr : outcome v = accessCheck s (some (a, n, false)))
    (hw : ∀ x, outcome (w x) = accessCheck s (some (a, n, true))) :
    outcome (v >>= w) = accessCheck s (some (a, n, true)) := by
  cases v with
  | ok x => exact hw x
  | error e =>
    rw [accessCheck_read] at hr
    split at hr
    · cases hr
    · cases hr
      rw [accessCheck_write, if_pos (by omega)]
      rfl

theorem outcome_arithRm8 (op : AluOp) (o : RM8) (f : Byte → Byte) (g : Byte → State → State) :
    outcome (do let a ← readRm8 o s; let t ← storeRm8 op o (f a) s; return g a t) =
      accessCheck s (access8 o (aluStores op) s) := by
  have hwrite : ∀ a, outcome (do let t ← writeRm8 o (f a) s; return g a t) = accessCheck s (access8 o true s) :=
    fun a => (outcome_bind_pure _ _).trans (outcome_writeRm8 s o (f a))
  cases op with
  | cmp => exact (outcome_bind_pure _ _).trans (outcome_readRm8 s o)
  | add | sub =>
    cases o with
    | reg r => rfl
    | mem m => exact outcome_read_then_write s (outcome_memRead8 s _) hwrite

theorem outcome_arithRm16 (op : AluOp) (o : RM16) (f : Word → Word) (g : Word → State → State) :
    outcome (do let a ← readRm16 o s; let t ← storeRm16 op o (f a) s; return g a t) =
      accessCheck s (access16 o (aluStores op) s) := by
  have hwrite : ∀ a, outcome (do let t ← writeRm16 o (f a) s; return g a t) = accessCheck s (access16 o true s) :=
    fun a => (outcome_bind_pure _ _).trans (outcome_writeRm16 s o (f a))
  cases op with
  | cmp => exact (outcome_bind_pure _ _).trans (outcome_readRm16 s o)
  | add | sub =>
    cases o with
    | reg r => rfl
    | mem m => exact outcome_read_then_write s (outcome_memRead16 s _) hwrite

end

/-- A rule faults exactly as the check of its access does. -/
theorem outcome_rule (i : Instr) (s : State) : outcome (ruleOf i s) = accessCheck s (access i s) := by
  cases i with
  | movRm8R8 _ _ | movRm8Imm8 _ _ => exact (outcome_bind_pure _ _).trans (outcome_writeRm8 s _ _)
  | movRm16R16 _ _ | movRm16Imm16 _ _ => exact (outcome_bind_pure _ _).trans (outcome_writeRm16 s _ _)
  | movR8Rm8 _ _ | addR8Rm8 _ _ | subR8Rm8 _ _ | cmpR8Rm8 _ _ =>
    exact (outcome_bind_pure _ _).trans (outcome_readRm8 s _)
  | movR16Rm16 _ _ | addR16Rm16 _ _ | subR16Rm16 _ _ | cmpR16Rm16 _ _ =>
    exact (outcome_bind_pure _ _).trans (outcome_readRm16 s _)
  | movAlMem _ => exact (outcome_bind_pure _ _).trans (outcome_memRead8 s _)
  | movAxMem _ => exact (outcome_bind_pure _ _).trans (outcome_memRead16 s _)
  | movMemAl _ => exact (outcome_bind_pure _ _).trans (outcome_memWrite8 s _ _)
  | movMemAx _ => exact (outcome_bind_pure _ _).trans (outcome_memWrite16 s _ _)
  | addRm8R8 o _ | addRm8Imm8 o _ | addRm8Imm8Alias o _ => exact outcome_arithRm8 s .add o _ _
  | subRm8R8 o _ | subRm8Imm8 o _ | subRm8Imm8Alias o _ => exact outcome_arithRm8 s .sub o _ _
  | cmpRm8R8 o _ | cmpRm8Imm8 o _ | cmpRm8Imm8Alias o _ => exact outcome_arithRm8 s .cmp o _ _
  | addRm16R16 o _ | addRm16Imm16 o _ | addRm16SImm8 o _ => exact outcome_arithRm16 s .add o _ _
  | subRm16R16 o _ | subRm16Imm16 o _ | subRm16SImm8 o _ => exact outcome_arithRm16 s .sub o _ _
  | cmpRm16R16 o _ | cmpRm16Imm16 o _ | cmpRm16SImm8 o _ => exact outcome_arithRm16 s .cmp o _ _
  | _ => rfl

/-- Nor does the start of the step change the access or its check. -/
theorem outcome_rule_beginStep (i : Instr) (n : Nat) (s : State) :
    outcome (ruleOf i (beginStep n s)) = accessCheck s (access i s) :=
  outcome_rule i (beginStep n s)

section
variable {i : Instr} {s : State} (hd : diagnosis i s.params.profile = none)
include hd

theorem exec_of_accessCheck_error {f : Fault} (h : accessCheck s (access i s) = .error f) :
    exec i s = .next (faulted f s) := by
  obtain ⟨code, hcode, -⟩ | ⟨e, -, hr, he⟩ | ⟨u, -, hr, -⟩ := exec_cases i s
  · cases hcode.symm.trans hd
  · have hrule := outcome_rule_beginStep i i.length s
    rw [hr, h] at hrule
    cases hrule
    exact he
  · have hrule := outcome_rule_beginStep i i.length s
    rw [hr, h] at hrule
    cases hrule

/-- An instruction carried out keeps the diagnostics, faulting or not. -/
theorem exec_diag_of_executed {t : State} (h : exec i s = .next t) :
    t.diagSeen = s.diagSeen ∧ t.lastDiag = s.lastDiag := by
  obtain ⟨code, hcode, -⟩ | ⟨f, -, -, he⟩ | ⟨u, -, hr, he⟩ := exec_cases i s
  · cases hcode.symm.trans hd
  · cases he.symm.trans h
    exact ⟨rfl, rfl⟩
  · cases he.symm.trans h
    exact ⟨(rule_sameRest hr).diagSeen, (rule_sameRest hr).lastDiag⟩

theorem exec_status_of_accessCheck_ok {t : State} (h : exec i s = .next t)
    (hcheck : accessCheck s (access i s) = .ok ()) : t.runState = s.runState ∧ t.faultCode = s.faultCode := by
  obtain ⟨code, hcode, -⟩ | ⟨f, -, hr, -⟩ | ⟨u, -, hr, he⟩ := exec_cases i s
  · cases hcode.symm.trans hd
  · have hrule := outcome_rule_beginStep i i.length s
    rw [hr, hcheck] at hrule
    cases hrule
  · cases he.symm.trans h
    exact ⟨(rule_sameRest hr).runState, (rule_sameRest hr).faultCode⟩

end

/-- Settles O26, by the check of the access. -/
theorem faultConditions : Obligations.FaultConditions := by
  refine ⟨fun i s hd => ?_, fun i s hd => ?_, rfl, rfl, rfl, fun m s h => ?_⟩
  · obtain ⟨t, ht⟩ := exec_answers_next i s
    obtain ⟨hseen, hlast⟩ := exec_diag_of_executed hd ht
    have hfault : ∀ f, accessCheck s (access i s) = .error f → t = faulted f s := fun f h =>
      Host.Outcome.next.inj (ht.symm.trans (exec_of_accessCheck_error hd h))
    have hok := exec_status_of_accessCheck_ok hd ht
    refine ⟨t, ht, hseen, hlast, ?_⟩
    cases hacc : access i s with
    | none => exact hok (by rw [hacc, accessCheck_none])
    | some x =>
      obtain ⟨a, n, w⟩ := x
      rw [hacc] at hfault hok
      refine ⟨fun hrange => hfault _ (if_pos hrange), fun hrange hw hcode => hfault _ ?_, fun hrange hcode => hok ?_⟩
      · rw [accessCheck, if_neg (Nat.not_lt.mpr hrange), if_pos ⟨hw, hcode⟩]
      · rw [accessCheck, if_neg (Nat.not_lt.mpr hrange), if_neg]
        rintro ⟨hw, hlt⟩
        exact absurd (hcode hw) (Nat.not_le.mpr hlt)
  · obtain ⟨code, hcode⟩ := Option.ne_none_iff_exists'.mp hd
    exact ⟨_, exec_of_diagnosis hcode, rfl, rfl⟩
  · have := le_eaNat_of_neg h
    omega

/-! ### CMP (spec/42_arith.md R123) -/

/-- A CMP form has no destination and its access, if any, reads. -/
theorem compare_destination_access {i : Instr} (h : isCompare i) (s : State) :
    destination8 i = none ∧ destination16 i = none ∧ ∀ a n w, access i s = some (a, n, w) → w = false := by
  have h8 : ∀ o a n w, access8 o false s = some (a, n, w) → w = false := fun o a n w ho => by
    cases o <;> cases ho
    rfl
  have h16 : ∀ o a n w, access16 o false s = some (a, n, w) → w = false := fun o a n w ho => by
    cases o <;> cases ho
    rfl
  obtain ⟨n, hn, hlo, hhi⟩ := h
  cases i with
  | cmpRm8R8 o _ | cmpR8Rm8 _ o | cmpRm8Imm8 o _ | cmpRm8Imm8Alias o _ => exact ⟨rfl, rfl, h8 o⟩
  | cmpRm16R16 o _ | cmpR16Rm16 _ o | cmpRm16Imm16 o _ | cmpRm16SImm8 o _ => exact ⟨rfl, rfl, h16 o⟩
  | cmpAlImm8 _ | cmpAxImm16 _ => exact ⟨rfl, rfl, fun _ _ _ => nofun⟩
  | db _ _ => cases hn
  | _ =>
    cases hn
    omega

/-- Settles O52: a CMP form has nothing to write to, and the check of a read has the range only. -/
theorem cmpStoresNothing : Obligations.CmpStoresNothing := by
  intro i s t hi h
  obtain ⟨h8, h16, hacc⟩ := compare_destination_access hi s
  have hunwritten : t.regs = s.regs ∧ t.mem = s.mem := by
    cases exec_writtenAtMost h with
    | nothing hregs hmem => exact ⟨hregs, hmem⟩
    | reg8 hdest _ _ => cases h8.symm.trans hdest
    | reg16 hdest _ _ => cases h16.symm.trans hdest
    | mem8 ha _ _ | mem16 ha _ _ => cases hacc _ _ _ ha
  refine ⟨hunwritten.1, hunwritten.2, fun hsmc => ?_⟩
  obtain ⟨code, -, he⟩ | ⟨f, -, hr, he⟩ | ⟨u, -, hr, he⟩ := exec_cases i s <;> cases he.symm.trans h
  · exact hsmc
  · have hrule := outcome_rule_beginStep i i.length s
    cases hsmc
    rw [hr] at hrule
    cases ha : access i s with
    | none =>
      rw [ha] at hrule
      cases hrule
    | some x =>
      obtain ⟨a, n, w⟩ := x
      obtain rfl := hacc a n w ha
      rw [ha, accessCheck_read] at hrule
      split at hrule <;> cases hrule
  · exact (rule_sameRest hr).faultCode.symm.trans hsmc

/-! ### Profiles (spec/60_exceptions.md R188) -/

/-- The table of R188 by rows. -/
def coverageOfRow (n : Nat) : Coverage :=
  if n ∈ conditionRows then .unmodelledCondition else if n ∈ sourceRows then .always else .fullOnly

theorem coverage_of_form {i : Instr} {n : Nat} (h : i.form = some n) : coverage i = coverageOfRow n := by
  cases i with
  | db _ _ => cases h
  | _ => cases h; rfl

theorem diagnosis_of_condition {i : Instr} (h : coverage i = .unmodelledCondition) (p : Profile) :
    diagnosis i p = some .condUnmodeled := by
  simp only [diagnosis, h]

theorem diagnosis_of_always {i : Instr} (h : coverage i = .always) (p : Profile) : diagnosis i p = none := by
  simp only [diagnosis, h]

theorem diagnosis_of_fullOnly {i : Instr} (h : coverage i = .fullOnly) :
    diagnosis i .full = none ∧ diagnosis i .source = some .profile := by
  simp only [diagnosis, h, and_self]

/-- Settles O28, by the coverage of the row. -/
theorem profileTable : Obligations.ProfileTable := by
  refine ⟨fun i n hn => ⟨fun s hcond => ?_, fun s hcond hexec => ?_, fun s hcond hsource hp => ?_⟩, rfl, rfl, by decide,
    fun bs s => ⟨exec_db _ bs s, exec_db _ bs s, exec_db _ bs s⟩, fun s buffer position hend => ?_⟩
  · have hcov := (coverage_of_form hn).trans (if_pos hcond)
    exact diagnosticNoOp i s _ (diagnosis_of_condition hcov _)
  · have hcov := (coverage_of_form hn).trans (if_neg hcond)
    have hd : diagnosis i s.params.profile = none := by
      by_cases hsource : n ∈ sourceRows
      · exact diagnosis_of_always (hcov.trans (if_pos hsource)) _
      · rw [hexec.resolve_left hsource]
        exact (diagnosis_of_fullOnly (hcov.trans (if_neg hsource))).1
    obtain ⟨t, ht⟩ := exec_answers_next i s
    exact ⟨hd, t, ht, exec_diag_of_executed hd ht⟩
  · have hcov := ((coverage_of_form hn).trans (if_neg hcond)).trans (if_neg hsource)
    exact diagnosticNoOp i s _ (by rw [hp]; exact (diagnosis_of_fullOnly hcov).2)
  · rw [execute, (decodeAt_eq_none_iff buffer position).mpr hend]
    rfl

end Sys2Proof.Machine
end

section
/-! MOV, ADD, SUB and CMP run to their end (spec/41_mov.md sections 1 to 5, spec/42_arith.md sections 1 to 4): the value
read, what is written, the flags and the charge. -/

namespace Sys2Proof.Machine

open Sys2Proof.Spec

/-! ### The operand and its cost (spec/41_mov.md R105, R107) -/

section
variable {s : State}

theorem readRm8_of_readable {o : RM8} (h : Readable8 o s) : readRm8 o s = .ok (value8 o s) := by
  cases o with
  | reg r => rfl
  | mem m => exact (memRead8_eq _ s).trans (if_pos h)

theorem readRm16_of_readable {o : RM16} (h : Readable16 o s) : readRm16 o s = .ok (value16 o s) := by
  cases o with
  | reg r => rfl
  | mem m =>
    rw [readRm16, memRead16_eq, combine_read_eq_wordAt]
    exact if_pos h

theorem readable8_of_writable {o : RM8} (h : Writable8 o s) : Readable8 o s := by
  cases o with
  | reg r => exact h
  | mem m => exact h.1

theorem readable16_of_writable {o : RM16} (h : Writable16 o s) : Readable16 o s := by
  cases o with
  | reg r => exact h
  | mem m => exact h.1

theorem put8_set8 (r : Reg8) (v : Byte) (regs : Regs) : Put8 r v regs (regs.set8 r v) :=
  byteWriteKeepsTheOtherByte regs r v

theorem put16_set16 (r : Reg16) (v : Word) (regs : Regs) : Put16 r v regs (regs.set16 r v) :=
  ⟨get16_set16_self regs r v, fun _ hq => get16_set16_other regs v hq⟩

/-- Only a memory operand needs memory in canonical form. -/
theorem writeRm8_of_writable {o : RM8} (hwf : ∀ m, o = .mem m → s.mem.wf = true) (h : Writable8 o s) (v : Byte) :
    ∃ regs mem, Written8 o v s regs mem ∧ writeRm8 o v s = .ok { s with regs := regs, mem := mem } := by
  cases o with
  | reg r => exact ⟨_, _, ⟨put8_set8 r v s.regs, rfl⟩, rfl⟩
  | mem m => exact ⟨_, _, ⟨rfl, store8_write (hwf m rfl) _ v⟩, memWrite8_of_writable v h.1 h.2⟩

theorem writeRm16_of_writable {o : RM16} (hwf : ∀ m, o = .mem m → s.mem.wf = true) (h : Writable16 o s) (v : Word) :
    ∃ regs mem, Written16 o v s regs mem ∧ writeRm16 o v s = .ok { s with regs := regs, mem := mem } := by
  cases o with
  | reg r => exact ⟨_, _, ⟨put16_set16 r v s.regs, rfl⟩, rfl⟩
  | mem m => exact ⟨_, _, ⟨rfl, store16_write (hwf m rfl) h.1 v⟩, memWrite16_of_writable v h.1 h.2⟩

theorem rmCost8_eq_cost8 (x y : Nat) (o : RM8) : rmCost8 x y o s = cost8 x y o s := by cases o <;> rfl

theorem rmCost16_eq_cost16 (x y k : Nat) (o : RM16) : rmCost16 x y k o s = cost16 x y k o s := by cases o <;> rfl

end

/-! ### The MOV rules -/

section
variable {s : State}

theorem moveToRm8_of_writable {d : RM8} (hwf : s.mem.wf = true) (hw : Writable8 d s) (v : Byte) (x y : Nat) :
    ∃ regs mem, Written8 d v s regs mem ∧
      moveToRm8 d v x y s = .ok (charge (cost8 x y d s) { s with regs := regs, mem := mem }) := by
  obtain ⟨regs, mem, hwritten, he⟩ := writeRm8_of_writable (fun _ _ => hwf) hw v
  refine ⟨regs, mem, hwritten, ?_⟩
  rw [moveToRm8, he, rmCost8_eq_cost8]
  rfl

theorem moveToRm16_of_writable {d : RM16} (hwf : s.mem.wf = true) (hw : Writable16 d s) (v : Word) (x y : Nat) :
    ∃ regs mem, Written16 d v s regs mem ∧
      moveToRm16 d v x y s = .ok (charge (cost16 x y 1 d s) { s with regs := regs, mem := mem }) := by
  obtain ⟨regs, mem, hwritten, he⟩ := writeRm16_of_writable (fun _ _ => hwf) hw v
  refine ⟨regs, mem, hwritten, ?_⟩
  rw [moveToRm16, he, rmCost16_eq_cost16]
  rfl

theorem moveFromRm8_of_readable {r : Reg8} {o : RM8} (h : Readable8 o s) :
    moveFromRm8 r o s =
      .ok (charge (cost8 s.params.clk.movRr s.params.clk.movRm o s) (writeReg8 r (value8 o s) s)) := by
  rw [moveFromRm8, readRm8_of_readable h, rmCost8_eq_cost8]
  rfl

theorem moveFromRm16_of_readable {r : Reg16} {o : RM16} (h : Readable16 o s) :
    moveFromRm16 r o s =
      .ok (charge (cost16 s.params.clk.movRr s.params.clk.movRm 1 o s) (writeReg16 r (value16 o s) s)) := by
  rw [moveFromRm16, readRm16_of_readable h, rmCost16_eq_cost16]
  rfl

end

/-! ### The step around a rule that runs to its end -/

theorem diagnosis_of_full {i : Instr} {s : State} (hfull : s.params.profile = .full) (h : coverage i = .fullOnly) :
    diagnosis i s.params.profile = none := by
  rw [hfull]
  exact (diagnosis_of_fullOnly h).1

section
variable {i : Instr} {s : State} (hd : diagnosis i s.params.profile = none)
include hd

theorem completes_of_rule {regs : Regs} {mem : Memory} {c : Nat} {zf sf : Bool} {effect : Regs → Memory → Prop}
    (heffect : effect regs mem)
    (hr : ruleOf i (beginStep i.length s) =
      .ok (charge c { beginStep i.length s with regs := regs, mem := mem, zf := zf, sf := sf })) :
    Completes i s c zf sf effect := by
  refine ⟨regs, mem, heffect, ?_⟩
  rw [exec_eq_perform, perform_of_ok hd hr]
  simp only [finishStep, charge, beginStep, Nat.zero_add]

/-! ### MOV -/

theorem completes_moveToRm8 {d : RM8} {v : Byte} {x y : Nat} (hwf : s.mem.wf = true) (hw : Writable8 d s)
    (hr : ruleOf i (beginStep i.length s) = moveToRm8 d v x y (beginStep i.length s)) :
    Completes i s (cost8 x y d s) s.zf s.sf (Written8 d v s) := by
  obtain ⟨regs, mem, hwritten, he⟩ := moveToRm8_of_writable (s := beginStep i.length s) hwf hw v x y
  exact completes_of_rule hd hwritten (hr.trans he)

theorem completes_moveToRm16 {d : RM16} {v : Word} {x y : Nat} (hwf : s.mem.wf = true) (hw : Writable16 d s)
    (hr : ruleOf i (beginStep i.length s) = moveToRm16 d v x y (beginStep i.length s)) :
    Completes i s (cost16 x y 1 d s) s.zf s.sf (Written16 d v s) := by
  obtain ⟨regs, mem, hwritten, he⟩ := moveToRm16_of_writable (s := beginStep i.length s) hwf hw v x y
  exact completes_of_rule hd hwritten (hr.trans he)

theorem completes_writeReg8 {r : Reg8} {v : Byte} {c : Nat}
    (hr : ruleOf i (beginStep i.length s) = .ok (charge c (writeReg8 r v (beginStep i.length s)))) :
    Completes i s c s.zf s.sf (Written8 (.reg r) v s) :=
  completes_of_rule hd ⟨put8_set8 r v s.regs, rfl⟩ hr

theorem completes_writeReg16 {r : Reg16} {v : Word} {c : Nat}
    (hr : ruleOf i (beginStep i.length s) = .ok (charge c (writeReg16 r v (beginStep i.length s)))) :
    Completes i s c s.zf s.sf (Written16 (.reg r) v s) :=
  completes_of_rule hd ⟨put16_set16 r v s.regs, rfl⟩ hr

end

/-- Settles O41: the value is read from the registers at the start, then the operand is written. -/
theorem movRegisterToRm : Obligations.MovRegisterToRm :=
  ⟨fun _ _ _ hfull hwf hw => completes_moveToRm8 (diagnosis_of_full hfull rfl) hwf hw rfl,
    fun _ _ _ hwf hw => completes_moveToRm16 rfl hwf hw rfl⟩

/-- Settles O42: a readable operand has a value, which the register takes. -/
theorem movRmToRegister : Obligations.MovRmToRegister :=
  ⟨fun _ _ _ hfull h => completes_writeReg8 (diagnosis_of_full hfull rfl) (moveFromRm8_of_readable h),
    fun _ _ _ h => completes_writeReg16 rfl (moveFromRm16_of_readable h)⟩

/-- Settles O43, as O41 with the immediate for the value. -/
theorem movImmediateToRm : Obligations.MovImmediateToRm :=
  ⟨fun _ _ _ hfull hwf hw => completes_moveToRm8 (diagnosis_of_full hfull rfl) hwf hw rfl,
    fun _ _ _ hfull hwf hw => completes_moveToRm16 (diagnosis_of_full hfull rfl) hwf hw rfl⟩

/-- Settles O44: a register takes any value, without an access. -/
theorem movImmediateToRegister : Obligations.MovImmediateToRegister :=
  ⟨fun _ _ _ hfull => completes_writeReg8 (diagnosis_of_full hfull rfl) rfl,
    fun _ _ _ => completes_writeReg16 rfl rfl⟩

/-! ### The direct address (spec/41_mov.md section 5) -/

theorem toNat_add_two_le_of_ne {v : Word} (h : v ≠ 0xffff#16) : v.toNat + 2 ≤ 65536 := by
  have hv := v.isLt
  have hne : v.toNat ≠ 65535 := fun heq => h (BitVec.eq_of_toNat_eq heq)
  omega

section
variable (s : State) {a16 : Word}

theorem toNat_add_one_le (v : Word) : v.toNat + 1 ≤ 65536 := v.isLt

theorem loadAl_eq : loadAl a16 s =
    .ok (charge s.params.clk.movAm (writeReg8 .al (s.mem.read a16.toNat) s)) := by
  rw [loadAl, memRead8_eq, if_pos (toNat_add_one_le a16)]
  rfl

theorem loadAx_eq (h : a16 ≠ 0xffff#16) : loadAx a16 s =
    .ok (charge (s.params.clk.movAm + odd a16.toNat 1 s) (writeReg16 .ax (wordAt s.mem a16.toNat) s)) := by
  rw [loadAx, memRead16_eq, if_pos (toNat_add_two_le_of_ne h), combine_read_eq_wordAt]
  rfl

theorem storeAl_eq (h : s.codeLen ≤ a16.toNat) : storeAl a16 s =
    .ok (charge s.params.clk.movAm { s with mem := s.mem.write a16.toNat (s.regs.get8 .al) }) := by
  rw [storeAl, memWrite8_of_writable _ (toNat_add_one_le a16) h]
  rfl

theorem storeAx_eq (hend : a16 ≠ 0xffff#16) (h : s.codeLen ≤ a16.toNat) : storeAx a16 s =
    .ok (charge (s.params.clk.movAm + odd a16.toNat 1 s)
      { s with
        mem := (s.mem.write a16.toNat (lowByte (s.regs.get16 .ax))).write (a16.toNat + 1)
          (highByte (s.regs.get16 .ax)) }) := by
  rw [storeAx, memWrite16_of_writable _ (toNat_add_two_le_of_ne hend) h]
  rfl

end

/-- Settles O45: every byte address, and every word address but 0xffff, lies inside memory. -/
theorem movAccumulatorDirect : Obligations.MovAccumulatorDirect := by
  refine ⟨fun a16 s hfull => ?_, fun a16 s hfull hend => ?_, fun a16 s hfull hwf hc => ?_,
    fun a16 s hfull hwf hend hc => ?_⟩
  · exact completes_writeReg8 (diagnosis_of_full hfull rfl) (loadAl_eq _)
  · exact completes_writeReg16 (diagnosis_of_full hfull rfl) (loadAx_eq _ hend)
  · exact completes_of_rule (diagnosis_of_full hfull rfl) ⟨rfl, store8_write hwf _ _⟩ (storeAl_eq _ hc)
  · exact completes_of_rule (diagnosis_of_full hfull rfl) ⟨rfl, store16_write hwf (toNat_add_two_le_of_ne hend) _⟩
      (storeAx_eq _ hend hc)

end Sys2Proof.Machine
end

section
/-! ADD, SUB and CMP run to their end (spec/42_arith.md sections 1 to 4): once its operands are read, every form at
either width is one body, which stores the result to the operand or register that is its destination. -/

namespace Sys2Proof.Machine

open Sys2Proof.Spec

/-! ### The common body -/

/-- The rule of an ALU form on the operands `a` and `b`: `store` stores the result, `c` is the charge. -/
def aluRule {n : Nat} (op : AluOp) (a b : BitVec n) (store : BitVec n → Except Fault State) (c : Nat) :
    Except Fault State := do
  let t ← store (aluResult op a b)
  return charge c (setFlags (aluResult op a b) t)

theorem completes_of_aluRule {n : Nat} {i : Instr} {s : State} (hd : diagnosis i s.params.profile = none) {regs : Regs}
    {mem : Memory} {op : AluOp} {a b : BitVec n} {store : BitVec n → Except Fault State} {c : Nat}
    {effect : Regs → Memory → Prop} (heffect : effect regs mem)
    (hr : ruleOf i (beginStep i.length s) = aluRule op a b store c)
    (hstore : store (aluResult op a b) = .ok { beginStep i.length s with regs := regs, mem := mem }) :
    Completes i s c (decide (aluResult op a b = 0#n)) (aluResult op a b).msb effect := by
  refine completes_of_rule hd heffect ?_
  rw [hr, aluRule, hstore]
  rfl

/-! ### Byte operands -/

section
variable (op : AluOp) {s : State}

theorem storeReg8_eq_storeRm8 (r : Reg8) (v : Byte) : .ok (storeReg8 op r v s) = storeRm8 op (.reg r) v s := by
  cases op <;> rfl

theorem arithRm8R8_eq {d : RM8} (r : Reg8) (h : Readable8 d s) :
    arithRm8R8 op d r s =
      aluRule op (value8 d s) (s.regs.get8 r) (storeRm8 op d · s)
        (cost8 (aluCosts op s).rr (aluCosts op s).mr d s) := by
  rw [arithRm8R8, readRm8_of_readable h, rmCost8_eq_cost8]
  rfl

theorem arithRm8Imm8_eq {d : RM8} (v : Byte) (h : Readable8 d s) :
    arithRm8Imm8 op d v s =
      aluRule op (value8 d s) v (storeRm8 op d · s) (cost8 (aluCosts op s).ri (aluCosts op s).mi d s) := by
  rw [arithRm8Imm8, readRm8_of_readable h, rmCost8_eq_cost8]
  rfl

theorem arithR8Rm8_eq (r : Reg8) {o : RM8} (h : Readable8 o s) :
    arithR8Rm8 op r o s =
      aluRule op (s.regs.get8 r) (value8 o s) (storeRm8 op (.reg r) · s)
        (cost8 (aluCosts op s).rr (aluCosts op s).rm o s) := by
  rw [arithR8Rm8, readRm8_of_readable h, rmCost8_eq_cost8]
  simp only [aluRule, ← storeReg8_eq_storeRm8]
  rfl

theorem arithAlImm8_eq (v : Byte) :
    arithAlImm8 op v s = aluRule op (s.regs.get8 .al) v (storeRm8 op (.reg .al) · s) (aluCosts op s).ai := by
  simp only [aluRule, ← storeReg8_eq_storeRm8]
  rfl

end

section
variable {i : Instr} {s : State} (hd : diagnosis i s.params.profile = none)
include hd

theorem completesByte_alu {op : AluOp} {d : RM8} {a b : Byte} {c : Nat} (hop : aluStores op = true)
    (hwf : ∀ m, d = .mem m → s.mem.wf = true) (hw : Writable8 d s)
    (hr : ruleOf i (beginStep i.length s) = aluRule op a b (storeRm8 op d · (beginStep i.length s)) c) :
    CompletesByte i s c (aluResult op a b) (Written8 d (aluResult op a b) s) := by
  obtain ⟨regs, mem, hwritten, he⟩ :=
    writeRm8_of_writable (s := beginStep i.length s) hwf hw (aluResult op a b)
  exact completes_of_aluRule hd hwritten hr ((if_pos hop).trans he)

theorem completesByte_compare {d : RM8} {a b : Byte} {c : Nat}
    (hr : ruleOf i (beginStep i.length s) = aluRule .cmp a b (storeRm8 .cmp d · (beginStep i.length s)) c) :
    CompletesByte i s c (a - b) (Unwritten s) :=
  completes_of_aluRule hd ⟨rfl, rfl⟩ hr rfl

end

/-! ### Word operands -/

section
variable (op : AluOp) {s : State}

theorem storeReg16_eq_storeRm16 (r : Reg16) (v : Word) : .ok (storeReg16 op r v s) = storeRm16 op (.reg r) v s := by
  cases op <;> rfl

theorem arithRm16R16_eq {d : RM16} (r : Reg16) (h : Readable16 d s) :
    arithRm16R16 op d r s =
      aluRule op (value16 d s) (s.regs.get16 r) (storeRm16 op d · s)
        (cost16 (aluCosts op s).rr (aluCosts op s).mr (aluCosts op s).transfers d s) := by
  rw [arithRm16R16, readRm16_of_readable h, rmCost16_eq_cost16]
  rfl

theorem arithRm16Imm16_eq {d : RM16} (v : Word) (h : Readable16 d s) :
    arithRm16Imm16 op d v s =
      aluRule op (value16 d s) v (storeRm16 op d · s)
        (cost16 (aluCosts op s).ri (aluCosts op s).mi (aluCosts op s).transfers d s) := by
  rw [arithRm16Imm16, readRm16_of_readable h, rmCost16_eq_cost16]
  rfl

theorem arithR16Rm16_eq (r : Reg16) {o : RM16} (h : Readable16 o s) :
    arithR16Rm16 op r o s =
      aluRule op (s.regs.get16 r) (value16 o s) (storeRm16 op (.reg r) · s)
        (cost16 (aluCosts op s).rr (aluCosts op s).rm 1 o s) := by
  rw [arithR16Rm16, readRm16_of_readable h, rmCost16_eq_cost16]
  simp only [aluRule, ← storeReg16_eq_storeRm16]
  rfl

theorem arithAxImm16_eq (v : Word) :
    arithAxImm16 op v s = aluRule op (s.regs.get16 .ax) v (storeRm16 op (.reg .ax) · s) (aluCosts op s).ai := by
  simp only [aluRule, ← storeReg16_eq_storeRm16]
  rfl

end

section
variable {i : Instr} {s : State} (hd : diagnosis i s.params.profile = none)
include hd

theorem completesWord_alu {op : AluOp} {d : RM16} {a b : Word} {c : Nat} (hop : aluStores op = true)
    (hwf : ∀ m, d = .mem m → s.mem.wf = true) (hw : Writable16 d s)
    (hr : ruleOf i (beginStep i.length s) = aluRule op a b (storeRm16 op d · (beginStep i.length s)) c) :
    CompletesWord i s c (aluResult op a b) (Written16 d (aluResult op a b) s) := by
  obtain ⟨regs, mem, hwritten, he⟩ :=
    writeRm16_of_writable (s := beginStep i.length s) hwf hw (aluResult op a b)
  exact completes_of_aluRule hd hwritten hr ((if_pos hop).trans he)

theorem completesWord_compare {d : RM16} {a b : Word} {c : Nat}
    (hr : ruleOf i (beginStep i.length s) = aluRule .cmp a b (storeRm16 .cmp d · (beginStep i.length s)) c) :
    CompletesWord i s c (a - b) (Unwritten s) :=
  completes_of_aluRule hd ⟨rfl, rfl⟩ hr rfl

end

/-! ### The statements -/

/-- Settles O46: ArithRM with `d = 0`. -/
theorem addSubRegisterToRm : Obligations.AddSubRegisterToRm := by
  refine ⟨fun dst src s hfull hwf hw => ⟨?_, ?_⟩, fun dst src s hwf hw => ⟨?_, ?_⟩⟩
  · exact completesByte_alu (op := .add) (diagnosis_of_full hfull rfl) rfl (fun _ _ => hwf) hw
      (arithRm8R8_eq .add src (readable8_of_writable hw))
  · exact completesByte_alu (op := .sub) (diagnosis_of_full hfull rfl) rfl (fun _ _ => hwf) hw
      (arithRm8R8_eq .sub src (readable8_of_writable hw))
  · exact completesWord_alu (op := .add) rfl rfl (fun _ _ => hwf) hw
      (arithRm16R16_eq .add src (readable16_of_writable hw))
  · exact completesWord_alu (op := .sub) rfl rfl (fun _ _ => hwf) hw
      (arithRm16R16_eq .sub src (readable16_of_writable hw))

/-- Settles O47: ArithRM with `d = 1`. -/
theorem addSubRmToRegister : Obligations.AddSubRmToRegister := by
  refine ⟨fun dst src s hfull h => ⟨?_, ?_⟩, fun dst src s h => ⟨?_, ?_⟩⟩
  · exact completesByte_alu (op := .add) (diagnosis_of_full hfull rfl) rfl nofun trivial (arithR8Rm8_eq .add dst h)
  · exact completesByte_alu (op := .sub) (diagnosis_of_full hfull rfl) rfl nofun trivial (arithR8Rm8_eq .sub dst h)
  · exact completesWord_alu (op := .add) rfl rfl nofun trivial (arithR16Rm16_eq .add dst h)
  · exact completesWord_alu (op := .sub) rfl rfl nofun trivial (arithR16Rm16_eq .sub dst h)

/-- Settles O48: ArithAI. -/
theorem addSubAccumulatorImmediate : Obligations.AddSubAccumulatorImmediate := by
  refine fun s hfull => ⟨fun imm => ⟨?_, ?_⟩, fun imm => ⟨?_, ?_⟩⟩
  · exact completesByte_alu (op := .add) (diagnosis_of_full hfull rfl) rfl nofun trivial (arithAlImm8_eq .add imm)
  · exact completesByte_alu (op := .sub) (diagnosis_of_full hfull rfl) rfl nofun trivial (arithAlImm8_eq .sub imm)
  · exact completesWord_alu (op := .add) (diagnosis_of_full hfull rfl) rfl nofun trivial (arithAxImm16_eq .add imm)
  · exact completesWord_alu (op := .sub) (diagnosis_of_full hfull rfl) rfl nofun trivial (arithAxImm16_eq .sub imm)

/-- Settles O49: ArithRMI; 0x82 has the rule of 0x80, and 0x83 that of 0x81 on the extended immediate. -/
theorem addSubImmediateToRm : Obligations.AddSubImmediateToRm := by
  refine ⟨fun dst imm s hfull hwf hw i => ?_, fun dst s hwf hw => ?_⟩
  · have h := readable8_of_writable hw
    refine ⟨?_, ?_⟩
    · rintro (rfl | rfl) <;>
        exact completesByte_alu (op := .add) (diagnosis_of_full hfull rfl) rfl (fun _ _ => hwf) hw
          (arithRm8Imm8_eq .add imm h)
    · rintro (rfl | rfl) <;>
        exact completesByte_alu (op := .sub) (diagnosis_of_full hfull rfl) rfl (fun _ _ => hwf) hw
          (arithRm8Imm8_eq .sub imm h)
  · have h := readable16_of_writable hw
    refine ⟨fun imm => ⟨?_, ?_⟩, fun imm => ⟨?_, ?_⟩⟩
    · exact completesWord_alu (op := .add) rfl rfl (fun _ _ => hwf) hw (arithRm16Imm16_eq .add imm h)
    · exact completesWord_alu (op := .sub) rfl rfl (fun _ _ => hwf) hw (arithRm16Imm16_eq .sub imm h)
    · exact completesWord_alu (op := .add) rfl rfl (fun _ _ => hwf) hw (arithRm16Imm16_eq .add (sextImm imm) h)
    · exact completesWord_alu (op := .sub) rfl rfl (fun _ _ => hwf) hw (arithRm16Imm16_eq .sub (sextImm imm) h)

/-- Settles O50: ArithRM of CMP, in both directions. -/
theorem cmpRegisterAndRm : Obligations.CmpRegisterAndRm := by
  refine ⟨fun o r s hfull h => ⟨?_, ?_⟩, fun o r s h => ⟨?_, ?_⟩⟩
  · exact completesByte_compare (diagnosis_of_full hfull rfl) (arithRm8R8_eq .cmp r h)
  · exact completesByte_compare (diagnosis_of_full hfull rfl) (arithR8Rm8_eq .cmp r h)
  · exact completesWord_compare rfl (arithRm16R16_eq .cmp r h)
  · exact completesWord_compare rfl (arithR16Rm16_eq .cmp r h)

/-- Settles O51: ArithAI and ArithRMI of CMP. -/
theorem cmpImmediate : Obligations.CmpImmediate := by
  refine ⟨fun imm s hfull => ?_, fun imm s hfull => ?_, fun o imm s hfull h i => ?_,
    fun o s h => ⟨fun imm => ?_, fun imm => ?_⟩⟩
  · exact completesByte_compare (diagnosis_of_full hfull rfl) (arithAlImm8_eq .cmp imm)
  · exact completesWord_compare (diagnosis_of_full hfull rfl) (arithAxImm16_eq .cmp imm)
  · rintro (rfl | rfl) <;>
      exact completesByte_compare (diagnosis_of_full hfull rfl) (arithRm8Imm8_eq .cmp imm h)
  · exact completesWord_compare rfl (arithRm16Imm16_eq .cmp imm h)
  · exact completesWord_compare rfl (arithRm16Imm16_eq .cmp (sextImm imm) h)

/-! ### A register with itself -/

section
variable {i : Instr} {s : State} {c : Nat}

theorem CompletesByte.written {res : Byte} {r : Reg8} (h : CompletesByte i s c res (Written8 (.reg r) res s)) :
    ∃ t, exec i s = .next t ∧ t.regs.get8 r = res ∧ t.zf = decide (res = 0#8) ∧ t.sf = res.getLsbD 7 := by
  obtain ⟨regs, mem, ⟨hput, -⟩, he⟩ := h
  exact ⟨_, he, hput.1, rfl, rfl⟩

theorem CompletesWord.written {res : Word} {r : Reg16} (h : CompletesWord i s c res (Written16 (.reg r) res s)) :
    ∃ t, exec i s = .next t ∧ t.regs.get16 r = res ∧ t.zf = decide (res = 0#16) ∧ t.sf = res.getLsbD 15 := by
  obtain ⟨regs, mem, ⟨hput, -⟩, he⟩ := h
  exact ⟨_, he, hput.1, rfl, rfl⟩

theorem Completes.unwritten {zf sf : Bool} (h : Completes i s c zf sf (Unwritten s)) :
    ∃ t, exec i s = .next t ∧ t.regs = s.regs ∧ t.zf = zf ∧ t.sf = sf := by
  obtain ⟨regs, mem, ⟨hregs, -⟩, he⟩ := h
  exact ⟨_, he, hregs, rfl, rfl⟩

end

section
variable {n : Nat} (v : BitVec n)

theorem aluResult_sub_self : aluResult .sub v v = 0#n := BitVec.sub_self v

theorem aluResult_add_self : (aluResult .add v v).toNat = 2 * v.toNat % 2 ^ n := by
  rw [aluResult, BitVec.toNat_add, Nat.two_mul]

end

section
variable {i : Instr} {s : State} {op : AluOp} (hd : diagnosis i s.params.profile = none) (hop : aluStores op = true)
include hd hop

/-- A register destination needs nothing of memory. -/
theorem exec_reg_self8 {r : Reg8} (hr : ∀ u, ruleOf i u = arithRm8R8 op (.reg r) r u) :
    ∃ t, exec i s = .next t ∧ t.regs.get8 r = aluResult op (s.regs.get8 r) (s.regs.get8 r) ∧
      t.zf = decide (aluResult op (s.regs.get8 r) (s.regs.get8 r) = 0#8) ∧
      t.sf = (aluResult op (s.regs.get8 r) (s.regs.get8 r)).getLsbD 7 :=
  CompletesByte.written (completesByte_alu (d := .reg r) hd hop (fun _ h => nomatch h) trivial
    ((hr _).trans (arithRm8R8_eq op r trivial)))

theorem exec_reg_self16 {r : Reg16} (hr : ∀ u, ruleOf i u = arithRm16R16 op (.reg r) r u) :
    ∃ t, exec i s = .next t ∧ t.regs.get16 r = aluResult op (s.regs.get16 r) (s.regs.get16 r) ∧
      t.zf = decide (aluResult op (s.regs.get16 r) (s.regs.get16 r) = 0#16) ∧
      t.sf = (aluResult op (s.regs.get16 r) (s.regs.get16 r)).getLsbD 15 :=
  CompletesWord.written (completesWord_alu (d := .reg r) hd hop (fun _ h => nomatch h) trivial
    ((hr _).trans (arithRm16R16_eq op r trivial)))

end

/-- Settles O53: both operands are the one value `v`, so the results are `v - v = 0` and `v + v`. -/
theorem sameRegisterArithmetic : Obligations.SameRegisterArithmetic := by
  refine ⟨fun r s => ⟨?_, ?_, ?_⟩, fun r s hfull => ⟨?_, ?_, ?_⟩⟩
  · have h := exec_reg_self16 (i := .subRm16R16 (.reg r) r) (s := s) rfl rfl fun _ => rfl
    rwa [aluResult_sub_self] at h
  · have h : CompletesWord _ s _ (s.regs.get16 r - s.regs.get16 r) (Unwritten s) :=
      (cmpRegisterAndRm.2 (.reg r) r s trivial).1
    rw [BitVec.sub_self] at h
    exact Completes.unwritten h
  · obtain ⟨t, ht, hreg, -⟩ := exec_reg_self16 (i := .addRm16R16 (.reg r) r) (s := s) rfl rfl fun _ => rfl
    exact ⟨t, ht, (congrArg BitVec.toNat hreg).trans (aluResult_add_self _)⟩
  · have h := exec_reg_self8 (i := .subRm8R8 (.reg r) r) (s := s) (diagnosis_of_full hfull rfl) rfl fun _ => rfl
    rwa [aluResult_sub_self] at h
  · have h : CompletesByte _ s _ (s.regs.get8 r - s.regs.get8 r) (Unwritten s) :=
      (cmpRegisterAndRm.1 (.reg r) r s hfull trivial).1
    rw [BitVec.sub_self] at h
    exact Completes.unwritten h
  · obtain ⟨t, ht, hreg, -⟩ :=
      exec_reg_self8 (i := .addRm8R8 (.reg r) r) (s := s) (diagnosis_of_full hfull rfl) rfl fun _ => rfl
    exact ⟨t, ht, (congrArg BitVec.toNat hreg).trans (aluResult_add_self _)⟩

end Sys2Proof.Machine
end

section
/-! The short jumps that are carried out (spec/43_control.md sections 3 and 4): target, the two costs and the frame. -/

namespace Sys2Proof.Machine

open Sys2Proof.Spec

theorem jumps_of_rule {i : Instr} {s : State} {regs : Regs} {taken : Bool} {r8 : Byte} {x y : Nat}
    (hd : diagnosis i s.params.profile = none) (hlen : i.length = 2)
    (hr : ruleOf i (beginStep 2 s) = .ok (jumpIf taken x y r8 { beginStep 2 s with regs := regs })) :
    Jumps i s regs taken r8 x y := by
  rw [← hlen] at hr
  rw [Jumps, exec_eq_perform, perform_of_ok hd hr, hlen]
  cases taken <;> simp [jumpIf, charge, jumpBy, beginStep, finishStep]

/-- Settles O54: each rule is `jumpIf` on its condition, from the end of the jump. -/
theorem conditionalJumps : Obligations.ConditionalJumps :=
  ⟨fun _ _ => jumps_of_rule rfl rfl rfl, fun _ _ hfull =>
    ⟨jumps_of_rule (diagnosis_of_full hfull rfl) rfl rfl, jumps_of_rule (diagnosis_of_full hfull rfl) rfl rfl,
      jumps_of_rule (diagnosis_of_full hfull rfl) rfl rfl⟩⟩

/-- Settles O56: the decremented `cx` is 0 exactly when `cx` was 1 (`decremented_ne_zero`). -/
theorem loopFamily : Obligations.LoopFamily := by
  intro r8 s hfull
  have hcx := decremented_ne_zero s.regs.cx
  refine ⟨?_, jumps_of_rule (diagnosis_of_full hfull rfl) rfl rfl⟩
  rintro regs rfl
  rw [← hcx]
  exact ⟨jumps_of_rule (diagnosis_of_full hfull rfl) rfl rfl, jumps_of_rule (diagnosis_of_full hfull rfl) rfl rfl,
    jumps_of_rule (diagnosis_of_full hfull rfl) rfl rfl⟩

end Sys2Proof.Machine
end

section
/-! The charges under the default tables (spec/70_reset_and_hazards.md R208 to R212): a rule adds its base cost and the
cost of its operand, and no sum of the two passes 29. -/

namespace Sys2Proof.Machine

open Sys2Proof.Spec

/-! ### Only the charge at a rule's end counts clocks -/

section
variable {s t : State}

theorem writeRm8_clocks {o : RM8} {v : Byte} (h : writeRm8 o v s = .ok t) : t.clocks = s.clocks := by
  obtain ⟨r, -, rfl⟩ | ⟨m, -, -, -, rfl⟩ := writeRm8_eq_ok h <;> rfl

theorem writeRm16_clocks {o : RM16} {v : Word} (h : writeRm16 o v s = .ok t) : t.clocks = s.clocks := by
  obtain ⟨r, -, rfl⟩ | ⟨m, -, -, -, rfl⟩ := writeRm16_eq_ok h <;> rfl

theorem storeRm8_clocks {op : AluOp} {o : RM8} {v : Byte} (h : storeRm8 op o v s = .ok t) :
    t.clocks = s.clocks := by
  cases op with
  | cmp => cases h; rfl
  | add | sub => exact writeRm8_clocks h

theorem storeRm16_clocks {op : AluOp} {o : RM16} {v : Word} (h : storeRm16 op o v s = .ok t) :
    t.clocks = s.clocks := by
  cases op with
  | cmp => cases h; rfl
  | add | sub => exact writeRm16_clocks h

theorem storeReg8_clocks (op : AluOp) (r : Reg8) (v : Byte) : (storeReg8 op r v s).clocks = s.clocks := by
  cases op <;> rfl

theorem storeReg16_clocks (op : AluOp) (r : Reg16) (v : Word) : (storeReg16 op r v s).clocks = s.clocks := by
  cases op <;> rfl

theorem charge_clocks_le {u : State} {n : Nat} (hu : u.clocks = s.clocks) (hn : n ≤ 29) :
    (charge n u).clocks ≤ s.clocks + 29 := by
  rw [charge_clocks, hu]
  exact Nat.add_le_add_left hn _

theorem jumpIf_clocks_le {x y : Nat} (hx : x ≤ 29) (hy : y ≤ 29) (c : Bool) (r8 : Byte) :
    (jumpIf c x y r8 s).clocks ≤ s.clocks + 29 := by
  cases c
  · exact charge_clocks_le rfl hy
  · exact charge_clocks_le rfl hx

end

/-! ### The default tables -/

/-- The parameters R208 to R212 give, whatever the profile. -/
structure DefaultTables (s : State) : Prop where
  clk : s.params.clk = defaultClk
  ea : s.params.eaClocks = defaultEaClocks
  odd : s.params.oddWord = 0

section
variable {s : State} (h : DefaultTables s)
include h

theorem eaCost_le (m : MemOp) : eaCost m s ≤ 12 := by
  cases m with
  | direct _ => simp only [eaCost, h.ea]; decide
  | noDisp b | disp8 b _ | disp16 b _ => simp only [eaCost, h.ea]; cases b <;> decide

theorem oddCost_eq_zero (a k : Nat) : oddCost a k s = 0 := by
  rw [oddCost, h.odd, Nat.zero_mul, ite_self]

/-- The largest memory base cost, 17, and the largest EA cost, 12. -/
theorem rmCost8_le {x y : Nat} (hx : x ≤ 29) (hy : y ≤ 17) (o : RM8) : rmCost8 x y o s ≤ 29 := by
  cases o with
  | reg r => exact hx
  | mem m => exact Nat.add_le_add hy (eaCost_le h m)

theorem rmCost16_le {x y : Nat} (hx : x ≤ 29) (hy : y ≤ 17) (k : Nat) (o : RM16) : rmCost16 x y k o s ≤ 29 := by
  cases o with
  | reg r => exact hx
  | mem m =>
    rw [rmCost16, oddCost_eq_zero h]
    exact Nat.add_le_add hy (eaCost_le h m)

theorem clk_le {n : Nat} (f : Clk → Nat) (hf : f defaultClk ≤ n) : f s.params.clk ≤ n := by
  rwa [h.clk]

end

/-- Bounds that keep every ALU form within 29 clocks: 29 on the base cost of a register form, 17 on that of a memory
form. -/
structure AluCosts.Bounded (c : AluCosts) : Prop where
  rr : c.rr ≤ 29
  ri : c.ri ≤ 29
  ai : c.ai ≤ 29
  rm : c.rm ≤ 17
  mr : c.mr ≤ 17
  mi : c.mi ≤ 17

section
variable {s t : State} (h : DefaultTables s)
include h

theorem aluCosts_bounded (op : AluOp) : (aluCosts op s).Bounded := by
  cases op <;> constructor <;> simp only [aluCosts, h.clk] <;> decide

/-! ### The rules -/

theorem rule_clocks_le {i : Instr} (hr : ruleOf i s = .ok t) : t.clocks ≤ s.clocks + 29 := by
  have alu := aluCosts_bounded h
  cases i with
  | movRm8R8 _ _ =>
    obtain ⟨u, hu, rfl⟩ := map_ok_inv hr
    exact charge_clocks_le (writeRm8_clocks hu)
      (rmCost8_le h (clk_le h Clk.movRr (by decide)) (clk_le h Clk.movMr (by decide)) _)
  | movRm8Imm8 _ _ =>
    obtain ⟨u, hu, rfl⟩ := map_ok_inv hr
    exact charge_clocks_le (writeRm8_clocks hu)
      (rmCost8_le h (clk_le h Clk.movRi (by decide)) (clk_le h Clk.movMi (by decide)) _)
  | movRm16R16 _ _ =>
    obtain ⟨u, hu, rfl⟩ := map_ok_inv hr
    exact charge_clocks_le (writeRm16_clocks hu)
      (rmCost16_le h (clk_le h Clk.movRr (by decide)) (clk_le h Clk.movMr (by decide)) 1 _)
  | movRm16Imm16 _ _ =>
    obtain ⟨u, hu, rfl⟩ := map_ok_inv hr
    exact charge_clocks_le (writeRm16_clocks hu)
      (rmCost16_le h (clk_le h Clk.movRi (by decide)) (clk_le h Clk.movMi (by decide)) 1 _)
  | movR8Rm8 _ _ =>
    obtain ⟨v, -, rfl⟩ := map_ok_inv hr
    exact charge_clocks_le rfl
      (rmCost8_le h (clk_le h Clk.movRr (by decide)) (clk_le h Clk.movRm (by decide)) _)
  | movR16Rm16 _ _ =>
    obtain ⟨v, -, rfl⟩ := map_ok_inv hr
    exact charge_clocks_le rfl
      (rmCost16_le h (clk_le h Clk.movRr (by decide)) (clk_le h Clk.movRm (by decide)) 1 _)
  | movR8Imm8 _ _ | movR16Imm16 _ _ =>
    cases hr
    exact charge_clocks_le rfl (clk_le h Clk.movRi (by decide))
  | movAlMem _ =>
    obtain ⟨v, -, rfl⟩ := map_ok_inv hr
    exact charge_clocks_le rfl (clk_le h Clk.movAm (by decide))
  | movMemAl _ =>
    obtain ⟨u, hu, rfl⟩ := map_ok_inv hr
    obtain ⟨-, -, rfl⟩ := memWrite8_eq_ok hu
    exact charge_clocks_le rfl (clk_le h Clk.movAm (by decide))
  | movAxMem _ =>
    obtain ⟨v, -, rfl⟩ := map_ok_inv hr
    rw [oddCost_eq_zero h]
    exact charge_clocks_le rfl (clk_le h Clk.movAm (by decide))
  | movMemAx _ =>
    obtain ⟨u, hu, rfl⟩ := map_ok_inv hr
    obtain ⟨-, -, rfl⟩ := memWrite16_eq_ok hu
    rw [oddCost_eq_zero h]
    exact charge_clocks_le rfl (clk_le h Clk.movAm (by decide))
  | addRm8R8 _ _ | subRm8R8 _ _ | cmpRm8R8 _ _ =>
    obtain ⟨a, -, hr⟩ := bind_ok_inv hr
    obtain ⟨u, hu, rfl⟩ := map_ok_inv hr
    exact charge_clocks_le (storeRm8_clocks hu :) (rmCost8_le h (alu _).rr (alu _).mr _)
  | addRm16R16 _ _ | subRm16R16 _ _ | cmpRm16R16 _ _ =>
    obtain ⟨a, -, hr⟩ := bind_ok_inv hr
    obtain ⟨u, hu, rfl⟩ := map_ok_inv hr
    exact charge_clocks_le (storeRm16_clocks hu :) (rmCost16_le h (alu _).rr (alu _).mr _ _)
  | addRm8Imm8 _ _ | subRm8Imm8 _ _ | cmpRm8Imm8 _ _ | addRm8Imm8Alias _ _ | subRm8Imm8Alias _ _
  | cmpRm8Imm8Alias _ _ =>
    obtain ⟨a, -, hr⟩ := bind_ok_inv hr
    obtain ⟨u, hu, rfl⟩ := map_ok_inv hr
    exact charge_clocks_le (storeRm8_clocks hu :) (rmCost8_le h (alu _).ri (alu _).mi _)
  | addRm16Imm16 _ _ | subRm16Imm16 _ _ | cmpRm16Imm16 _ _ | addRm16SImm8 _ _ | subRm16SImm8 _ _
  | cmpRm16SImm8 _ _ =>
    obtain ⟨a, -, hr⟩ := bind_ok_inv hr
    obtain ⟨u, hu, rfl⟩ := map_ok_inv hr
    exact charge_clocks_le (storeRm16_clocks hu :) (rmCost16_le h (alu _).ri (alu _).mi _ _)
  | addR8Rm8 _ _ | subR8Rm8 _ _ | cmpR8Rm8 _ _ =>
    obtain ⟨b, -, rfl⟩ := map_ok_inv hr
    exact charge_clocks_le (storeReg8_clocks _ _ _ :) (rmCost8_le h (alu _).rr (alu _).rm _)
  | addR16Rm16 _ _ | subR16Rm16 _ _ | cmpR16Rm16 _ _ =>
    obtain ⟨b, -, rfl⟩ := map_ok_inv hr
    exact charge_clocks_le (storeReg16_clocks _ _ _ :) (rmCost16_le h (alu _).rr (alu _).rm 1 _)
  | addAlImm8 _ | subAlImm8 _ | cmpAlImm8 _ =>
    cases hr
    exact charge_clocks_le (storeReg8_clocks _ _ _ :) (alu _).ai
  | addAxImm16 _ | subAxImm16 _ | cmpAxImm16 _ =>
    cases hr
    exact charge_clocks_le (storeReg16_clocks _ _ _ :) (alu _).ai
  | jz _ | jnz _ | js _ | jns _ =>
    cases hr
    exact jumpIf_clocks_le (clk_le h Clk.jccTaken (by decide)) (clk_le h Clk.jccNotTaken (by decide)) _ _
  | loopnz _ =>
    cases hr
    exact jumpIf_clocks_le (s := decrementCx s) (clk_le h Clk.loopnzTaken (by decide))
      (clk_le h Clk.loopnzNotTaken (by decide)) _ _
  | loopz _ =>
    cases hr
    exact jumpIf_clocks_le (s := decrementCx s) (clk_le h Clk.loopzTaken (by decide))
      (clk_le h Clk.loopzNotTaken (by decide)) _ _
  | loop _ =>
    cases hr
    exact jumpIf_clocks_le (s := decrementCx s) (clk_le h Clk.loopTaken (by decide))
      (clk_le h Clk.loopNotTaken (by decide)) _ _
  | jcxz _ =>
    cases hr
    exact jumpIf_clocks_le (clk_le h Clk.jcxzTaken (by decide)) (clk_le h Clk.jcxzNotTaken (by decide)) _ _
  | _ =>
    cases hr
    exact Nat.le_add_right _ _

theorem exec_clocks_le {i : Instr} (he : exec i s = .next t) : t.clocks ≤ 29 := by
  obtain ⟨code, -, hc⟩ | ⟨f, -, -, hc⟩ | ⟨u, -, hr, hc⟩ := exec_cases i s <;> cases hc.symm.trans he
  · exact Nat.zero_le _
  · exact Nat.zero_le _
  · have hle := rule_clocks_le (s := beginStep i.length s) ⟨h.clk, h.ea, h.odd⟩ hr
    rwa [beginStep_clocks, Nat.zero_add] at hle

end

/-- The clocks of a word ADD of an immediate to writable memory. -/
theorem exec_addRm16Imm16_clocks {m : MemOp} {s : State} (hw : Writable16 (.mem m) s) (v : Word) :
    ∃ t, exec (.addRm16Imm16 (.mem m) v) s = .next t ∧
      t.clocks = cost16 s.params.clk.aluRi s.params.clk.aluMi 2 (.mem m) s := by
  have hr := arithRm16Imm16_eq .add (s := beginStep (Instr.addRm16Imm16 (.mem m) v).length s) (d := .mem m) v hw.1
  have hstore := memWrite16_of_writable (s := beginStep (Instr.addRm16Imm16 (.mem m) v).length s)
    (aluResult .add (value16 (.mem m) s) v) hw.1 hw.2
  exact ⟨_, (exec_eq_perform _ s).trans (perform_of_ok rfl (hr.trans (congrArg (· >>= _) hstore))), Nat.zero_add _⟩

/-- Settles O24: no charge passes 29, and `add word [bx+di+d],imm` costs 17 and the EA cost 12. -/
theorem defaultChargesAtMost29 : Obligations.DefaultChargesAtMost29 := by
  refine ⟨fun s t hclk hea hodd hrun hip h => ?_, fun d imm s hparams hw => ?_⟩
  · obtain ⟨i, hi⟩ := exists_step_eq_exec hrun hip
    exact exec_clocks_le ⟨hclk, hea, hodd⟩ (hi.symm.trans h)
  · obtain ⟨t, ht, hclocks⟩ := exec_addRm16Imm16_clocks hw imm
    refine ⟨t, ht, hclocks.trans ?_⟩
    simp only [cost16, eaCost, Spec.odd, hparams]
    simp [defaultParams, defaultClk, defaultEaClocks, eaColumnAt]

end Sys2Proof.Machine
end
